-- ==== Sys2Proof/Word.lean ====
section
/-! DEFINITION. The two value widths of the engine: the 32-bit datapath word (spec/00_scope.md R7
WORD_BITS, R8) and the byte of message data (R10, R26). -/

namespace Sys2Proof

/-- A datapath or register word: 32 bits, unsigned (R7, R8). -/
abbrev Word := BitVec 32

/-- A message byte (R10, R26). -/
abbrev Byte := BitVec 8

end Sys2Proof
end

