-- ==== Sys2Proof/Config.lean ====
section
/-! DEFINITION. What the platform fixes and what the spec leaves open: the window's base address and
the free values. An `opaque` constant here has no body, so nothing in Lean can evaluate it or prove a
value of it: a claim that mentions one holds for every value. The constants the spec does give
(the parameters of R7, K, IV, ID) stand in Machine/Constants.lean. -/

namespace Sys2Proof.Config

/-- Which 64-byte slot of the platform's address space holds the register window. OPEN in the spec
(R51: BASE is "a byte address chosen by the platform"). Assumption log 3. -/
opaque windowIndex : Nat

/-- BASE, the byte address of the register window: any multiple of 64 (R51). -/
def base : Nat := 64 * windowIndex

/-- The free choice of which agent moves where both may and the State's `plan` names none (R16: "Any
enabled agent may take the next step"), under the weak fairness of R269: how many turns in a row the
host takes before the engine takes one, for a count begun at draw `n`. Any number, but a finite one, so
the engine is never passed over for ever. Assumption log 1 and 16. -/
opaque hostLead : Nat → Nat

/-- What the platform's reset leaves in the items R48 calls "unspecified (any value)": the value at
draw `n` of item `k` (the numbering of the items is `resetItems` in Machine/Agents.lean), of which
the item takes as many low bits as it is wide. Assumption log 5. -/
opaque resetDraw : Nat → Nat → BitVec 64

end Sys2Proof.Config
end

