-- ==== Sys2Proof/Syntax.lean ====
section
/-! DEFINITION. The instructions: one constructor for each row of spec/opcode_table.json, in the
table's order. The three formats are the host's bus transactions (BUS: R70, R71), the command words a
WR_CMD delivers (CMD: R80, R81) and the sequencer's own steps, selected by the PHASE code (PHASE:
R85, R86). The five ENG_UNREACHABLE rows of the table are five constructors. -/

namespace Sys2Proof

/-- One row of the opcode table each, with the bits the row leaves free as operands. A write carries
its data word `d` (R70: `D` is the 32-bit write data for a write; a read has no D). -/
inductive Instr where
  -- BUS, reads (R191 to R199)
  | rdId
  | rdStatus
  | rdCmd
  | rdData
  | rdLenLo
  | rdLenHi
  | rdRsvd (sel : BitVec 1)              -- `A[2]`: offset 0x18 or 0x1C
  | rdDigest (i : BitVec 3)              -- `i = A[4:2]`
  | rdMisalignedOdd (hi : BitVec 5)      -- `A[5:1]`
  | rdMisalignedHalf (reg : BitVec 4)    -- `A[5:2]`
  -- BUS, writes (R200 to R202)
  | wrId (d : Word)
  | wrStatus (d : Word)
  | wrCmd (d : Word)
  | wrData (d : Word)
  | wrLen (sel : BitVec 1) (d : Word)            -- `A[2]`: offset 0x10 or 0x14
  | wrRsvd (sel : BitVec 1) (d : Word)           -- `A[2]`: offset 0x18 or 0x1C
  | wrDigest (i : BitVec 3) (d : Word)           -- `i = A[4:2]`
  | wrMisalignedOdd (hi : BitVec 5) (d : Word)   -- `A[5:1]`
  | wrMisalignedHalf (reg : BitVec 4) (d : Word) -- `A[5:2]`
  -- CMD (R203 to R207)
  | nop
  | init
  | absorb (n : BitVec 2)                -- `N`: number of bytes minus 1
  | final
  | cmdIllegal (w : Word)                -- the whole word
  -- PHASE (R190, R141, R171, R153, R86)
  | engIdle
  | engSchedule
  | engAdd
  | engRound (t : BitVec 6)              -- `t = PHASE[5:0]`
  | engUnreachable03                     -- code 0x03
  | engUnreachable04 (lo : BitVec 2)     -- codes 0x04 to 0x07
  | engUnreachable08 (lo : BitVec 3)     -- codes 0x08 to 0x0F
  | engUnreachable10 (lo : BitVec 4)     -- codes 0x10 to 0x1F
  | engUnreachable20 (lo : BitVec 5)     -- codes 0x20 to 0x3F
  deriving DecidableEq, Repr

/-- The row's mnemonic, as spec/opcode_table.json spells it. -/
def Instr.mnemonic : Instr → String
  | .rdId => "RD_ID"
  | .rdStatus => "RD_STATUS"
  | .rdCmd => "RD_CMD"
  | .rdData => "RD_DATA"
  | .rdLenLo => "RD_LEN_LO"
  | .rdLenHi => "RD_LEN_HI"
  | .rdRsvd _ => "RD_RSVD"
  | .rdDigest _ => "RD_DIGEST"
  | .rdMisalignedOdd _ => "RD_MISALIGNED_ODD"
  | .rdMisalignedHalf _ => "RD_MISALIGNED_HALF"
  | .wrId _ => "WR_ID"
  | .wrStatus _ => "WR_STATUS"
  | .wrCmd _ => "WR_CMD"
  | .wrData _ => "WR_DATA"
  | .wrLen _ _ => "WR_LEN"
  | .wrRsvd _ _ => "WR_RSVD"
  | .wrDigest _ _ => "WR_DIGEST"
  | .wrMisalignedOdd _ _ => "WR_MISALIGNED_ODD"
  | .wrMisalignedHalf _ _ => "WR_MISALIGNED_HALF"
  | .nop => "NOP"
  | .init => "INIT"
  | .absorb _ => "ABSORB"
  | .final => "FINAL"
  | .cmdIllegal _ => "CMD_ILLEGAL"
  | .engIdle => "ENG_IDLE"
  | .engSchedule => "ENG_SCHEDULE"
  | .engAdd => "ENG_ADD"
  | .engRound _ => "ENG_ROUND"
  | .engUnreachable03 => "ENG_UNREACHABLE"
  | .engUnreachable04 _ => "ENG_UNREACHABLE"
  | .engUnreachable08 _ => "ENG_UNREACHABLE"
  | .engUnreachable10 _ => "ENG_UNREACHABLE"
  | .engUnreachable20 _ => "ENG_UNREACHABLE"

end Sys2Proof
end

