-- ==== Sys2Proof/WellFormed.lean ====
section
/-! DEFINITION. Which instruction terms stand for an encoding. Every operand is a bit vector of its
field's exact width, so one check is left: a CMD_ILLEGAL term must carry a word that no other CMD row
takes (spec/30_encoding.md R83: that row "is selected only when no other CMD row matches"). -/

namespace Sys2Proof

/-- The word matches one of the rows NOP, INIT, ABSORB, FINAL of R81, by the row's mask and word. -/
def legalCommandWord (w : Word) : Bool :=
  w == 0x00000000#32 || w == 0x10000000#32 ||
  w &&& 0xFFFFFFFC#32 == 0x20000000#32 || w == 0x30000000#32

/-- The term stands for an encoding of its own row. -/
def Instr.wellFormed : Instr → Bool
  | .cmdIllegal w => !legalCommandWord w
  | .rdId => true
  | .rdStatus => true
  | .rdCmd => true
  | .rdData => true
  | .rdLenLo => true
  | .rdLenHi => true
  | .rdRsvd _ => true
  | .rdDigest _ => true
  | .rdMisalignedOdd _ => true
  | .rdMisalignedHalf _ => true
  | .wrId _ => true
  | .wrStatus _ => true
  | .wrCmd _ => true
  | .wrData _ => true
  | .wrLen _ _ => true
  | .wrRsvd _ _ => true
  | .wrDigest _ _ => true
  | .wrMisalignedOdd _ _ => true
  | .wrMisalignedHalf _ _ => true
  | .nop => true
  | .init => true
  | .absorb _ => true
  | .final => true
  | .engIdle => true
  | .engSchedule => true
  | .engAdd => true
  | .engRound _ => true
  | .engUnreachable03 => true
  | .engUnreachable04 _ => true
  | .engUnreachable08 _ => true
  | .engUnreachable10 _ => true
  | .engUnreachable20 _ => true

end Sys2Proof
end

