-- ==== Sys2Proof/Decode.lean ====
section
/-! DEFINITION. The decoders of the three formats (spec/30_encoding.md R70 to R72, R80 to R87), the
encoder written from the same tables, and the tables themselves as lists of rows. -/

namespace Sys2Proof

/-- The three encodings of spec/30_encoding.md, as the values they are: a bus transaction `(A, D)`
(R70), the CMD word (R80), the PHASE code (R85). -/
inductive CodeWord where
  | bus (a : BitVec 7) (d : Word)
  | cmd (d : Word)
  | phase (p : BitVec 7)
  deriving DecidableEq, Repr

/-- One row of a decode table: the value matches when `value &&& mask = pattern` (R71). -/
structure Row (width : Nat) where
  mnemonic : String
  pattern : BitVec width
  mask : BitVec width
  deriving DecidableEq, Repr

/-- The value matches the row (R71: "A descriptor matches a row when `(A & mask) = match`"). -/
def Row.takes {width : Nat} (r : Row width) (x : BitVec width) : Bool :=
  x &&& r.mask == r.pattern

/-- The table of R71. -/
def busTable : List (Row 7) :=
  [⟨"RD_ID", 0x00#7, 0x7F#7⟩, ⟨"RD_STATUS", 0x04#7, 0x7F#7⟩, ⟨"RD_CMD", 0x08#7, 0x7F#7⟩,
   ⟨"RD_DATA", 0x0C#7, 0x7F#7⟩, ⟨"RD_LEN_LO", 0x10#7, 0x7F#7⟩, ⟨"RD_LEN_HI", 0x14#7, 0x7F#7⟩,
   ⟨"RD_RSVD", 0x18#7, 0x7B#7⟩, ⟨"RD_DIGEST", 0x20#7, 0x63#7⟩,
   ⟨"RD_MISALIGNED_ODD", 0x01#7, 0x41#7⟩, ⟨"RD_MISALIGNED_HALF", 0x02#7, 0x43#7⟩] ++
  [⟨"WR_ID", 0x40#7, 0x7F#7⟩, ⟨"WR_STATUS", 0x44#7, 0x7F#7⟩, ⟨"WR_CMD", 0x48#7, 0x7F#7⟩,
   ⟨"WR_DATA", 0x4C#7, 0x7F#7⟩, ⟨"WR_LEN", 0x50#7, 0x7B#7⟩, ⟨"WR_RSVD", 0x58#7, 0x7B#7⟩,
   ⟨"WR_DIGEST", 0x60#7, 0x63#7⟩, ⟨"WR_MISALIGNED_ODD", 0x41#7, 0x41#7⟩,
   ⟨"WR_MISALIGNED_HALF", 0x42#7, 0x43#7⟩]

/-- The rows of R81 that name a command; CMD_ILLEGAL is the default where none matches (R83). -/
def cmdTable : List (Row 32) :=
  [⟨"NOP", 0x00000000#32, 0xFFFFFFFF#32⟩, ⟨"INIT", 0x10000000#32, 0xFFFFFFFF#32⟩,
   ⟨"ABSORB", 0x20000000#32, 0xFFFFFFFC#32⟩, ⟨"FINAL", 0x30000000#32, 0xFFFFFFFF#32⟩]

/-- The PHASE rows of R85, ENG_UNREACHABLE as its five rows. -/
def phaseTable : List (Row 7) :=
  [⟨"ENG_IDLE", 0x00#7, 0x7F#7⟩, ⟨"ENG_SCHEDULE", 0x01#7, 0x7F#7⟩, ⟨"ENG_ADD", 0x02#7, 0x7F#7⟩,
   ⟨"ENG_ROUND", 0x40#7, 0x40#7⟩, ⟨"ENG_UNREACHABLE", 0x03#7, 0x7F#7⟩,
   ⟨"ENG_UNREACHABLE", 0x04#7, 0x7C#7⟩, ⟨"ENG_UNREACHABLE", 0x08#7, 0x78#7⟩,
   ⟨"ENG_UNREACHABLE", 0x10#7, 0x70#7⟩, ⟨"ENG_UNREACHABLE", 0x20#7, 0x60#7⟩]

/-! ### Bus transactions -/

/-- Descriptor decode (R71), with the operands of R72. The write data of a read is not looked at. -/
def decodeBus (a : BitVec 7) (d : Word) : Instr :=
  if a = 0x00#7 then .rdId
  else if a = 0x04#7 then .rdStatus
  else if a = 0x08#7 then .rdCmd
  else if a = 0x0C#7 then .rdData
  else if a = 0x10#7 then .rdLenLo
  else if a = 0x14#7 then .rdLenHi
  else if a &&& 0x7B#7 = 0x18#7 then .rdRsvd (a.extractLsb' 2 1)
  else if a &&& 0x63#7 = 0x20#7 then .rdDigest (a.extractLsb' 2 3)
  else if a &&& 0x41#7 = 0x01#7 then .rdMisalignedOdd (a.extractLsb' 1 5)
  else if a &&& 0x43#7 = 0x02#7 then .rdMisalignedHalf (a.extractLsb' 2 4)
  else if a = 0x40#7 then .wrId d
  else if a = 0x44#7 then .wrStatus d
  else if a = 0x48#7 then .wrCmd d
  else if a = 0x4C#7 then .wrData d
  else if a &&& 0x7B#7 = 0x50#7 then .wrLen (a.extractLsb' 2 1) d
  else if a &&& 0x7B#7 = 0x58#7 then .wrRsvd (a.extractLsb' 2 1) d
  else if a &&& 0x63#7 = 0x60#7 then .wrDigest (a.extractLsb' 2 3) d
  else if a &&& 0x41#7 = 0x41#7 then .wrMisalignedOdd (a.extractLsb' 1 5) d
  else .wrMisalignedHalf (a.extractLsb' 2 4) d

/-! ### Command words -/

/-- What a command word decodes to (R83). -/
inductive Command where
  | nop
  | init
  | absorb (n : BitVec 2)
  | final
  | illegal (w : Word)
  deriving DecidableEq, Repr

/-- CMD decode (R83): a word is a command when it matches that row of R81 exactly, and illegal
otherwise. -/
def decodeCommand (d : Word) : Command :=
  if d = 0x00000000#32 then .nop
  else if d = 0x10000000#32 then .init
  else if d &&& 0xFFFFFFFC#32 = 0x20000000#32 then .absorb (d.extractLsb' 0 2)
  else if d = 0x30000000#32 then .final
  else .illegal d

/-- The command as the instruction of its row. -/
def Command.toInstr : Command → Instr
  | .nop => .nop
  | .init => .init
  | .absorb n => .absorb n
  | .final => .final
  | .illegal w => .cmdIllegal w

/-- The instruction a command word stands for (R83). -/
def decodeCmd (d : Word) : Instr := (decodeCommand d).toInstr

/-! ### PHASE codes -/

/-- PHASE code of IDLE (R35). -/
abbrev phaseIdle : BitVec 7 := 0x00#7

/-- PHASE code of SCHEDULE (R35). -/
abbrev phaseSchedule : BitVec 7 := 0x01#7

/-- PHASE code of ADD (R35). -/
abbrev phaseAdd : BitVec 7 := 0x02#7

/-- PHASE code of ROUND(t), `0x40 | t` (R35). -/
def phaseRound (t : BitVec 6) : BitVec 7 := 1#1 ++ t

/-- PHASE decode (R85, R86). -/
def decodePhase (p : BitVec 7) : Instr :=
  if p = phaseIdle then .engIdle
  else if p = phaseSchedule then .engSchedule
  else if p = phaseAdd then .engAdd
  else if p &&& 0x40#7 = 0x40#7 then .engRound (p.extractLsb' 0 6)
  else if p = 0x03#7 then .engUnreachable03
  else if p &&& 0x7C#7 = 0x04#7 then .engUnreachable04 (p.extractLsb' 0 2)
  else if p &&& 0x78#7 = 0x08#7 then .engUnreachable08 (p.extractLsb' 0 3)
  else if p &&& 0x70#7 = 0x10#7 then .engUnreachable10 (p.extractLsb' 0 4)
  else .engUnreachable20 (p.extractLsb' 0 5)

/-! ### All formats -/

/-- The instruction a code word stands for. Total: R71 covers every descriptor, R83 every command
word, R85 and R86 every PHASE code. -/
def decode : CodeWord → Instr
  | .bus a d => decodeBus a d
  | .cmd d => decodeCmd d
  | .phase p => decodePhase p

/-! ### The encoder -/

/-- The command word of a command (R81). -/
def encodeCommand : Command → Word
  | .nop => 0x00000000#32
  | .init => 0x10000000#32
  | .absorb n => 0x2#4 ++ 0#26 ++ n
  | .final => 0x30000000#32
  | .illegal w => w

/-- The code word of an instruction, laid out from the tables of R71, R81 and R85: fixed bits and
operand fields side by side, most significant first. A read's data word is 0. -/
def encode : Instr → CodeWord
  | .rdId => .bus 0x00#7 0#32
  | .rdStatus => .bus 0x04#7 0#32
  | .rdCmd => .bus 0x08#7 0#32
  | .rdData => .bus 0x0C#7 0#32
  | .rdLenLo => .bus 0x10#7 0#32
  | .rdLenHi => .bus 0x14#7 0#32
  | .rdRsvd sel => .bus (0b0011#4 ++ sel ++ 0b00#2) 0#32
  | .rdDigest i => .bus (0b01#2 ++ i ++ 0b00#2) 0#32
  | .rdMisalignedOdd hi => .bus (0b0#1 ++ hi ++ 0b1#1) 0#32
  | .rdMisalignedHalf reg => .bus (0b0#1 ++ reg ++ 0b10#2) 0#32
  | .wrId d => .bus 0x40#7 d
  | .wrStatus d => .bus 0x44#7 d
  | .wrCmd d => .bus 0x48#7 d
  | .wrData d => .bus 0x4C#7 d
  | .wrLen sel d => .bus (0b1010#4 ++ sel ++ 0b00#2) d
  | .wrRsvd sel d => .bus (0b1011#4 ++ sel ++ 0b00#2) d
  | .wrDigest i d => .bus (0b11#2 ++ i ++ 0b00#2) d
  | .wrMisalignedOdd hi d => .bus (0b1#1 ++ hi ++ 0b1#1) d
  | .wrMisalignedHalf reg d => .bus (0b1#1 ++ reg ++ 0b10#2) d
  | .nop => .cmd (encodeCommand .nop)
  | .init => .cmd (encodeCommand .init)
  | .absorb n => .cmd (encodeCommand (.absorb n))
  | .final => .cmd (encodeCommand .final)
  | .cmdIllegal w => .cmd (encodeCommand (.illegal w))
  | .engIdle => .phase phaseIdle
  | .engSchedule => .phase phaseSchedule
  | .engAdd => .phase phaseAdd
  | .engRound t => .phase (phaseRound t)
  | .engUnreachable03 => .phase 0x03#7
  | .engUnreachable04 lo => .phase (0b00001#5 ++ lo)
  | .engUnreachable08 lo => .phase (0b0001#4 ++ lo)
  | .engUnreachable10 lo => .phase (0b001#3 ++ lo)
  | .engUnreachable20 lo => .phase (0b01#2 ++ lo)

/-! ### Raw words, as the opcode table numbers them -/

/-- Why a raw word is no encoding. -/
inductive DecodeError where
  /-- The word has a set bit where its format has none (bit 7 above a descriptor, or a bit above the
  last one). -/
  | strayBits
  deriving DecidableEq, Repr

/-- A raw word as a code word. `nbits = 32` is the CMD format. Every other length is read as the BUS
format: the descriptor `A` in bits 6..0 of the first byte (bit 7 clear), the write data `D` in bits
39..8, zero where the word is shorter. PHASE codes are internal and no word reaches the machine that
way, so a 7-bit row of the table is read as a bus descriptor (assumption log 8). -/
def readRaw (nbits w : Nat) : Except DecodeError CodeWord :=
  if nbits = 32 then
    if w < 2 ^ 32 then .ok (.cmd (BitVec.ofNat 32 w)) else .error .strayBits
  else if w % 256 < 128 ∧ w < 2 ^ 40 then
    .ok (.bus (BitVec.ofNat 7 w) (BitVec.ofNat 32 (w / 256)))
  else .error .strayBits

/-- The instruction the decoder reads from a raw word, `none` where it refuses it. -/
def decodeTableWord (nbits w : Nat) : Option Instr :=
  match readRaw nbits w with
  | .ok c => some (decode c)
  | .error _ => none

end Sys2Proof
end

