-- ==== Sys2Proof/Machine/State.lean ====
section
/-! DEFINITION. The state of the system (spec/00_scope.md R16): the engine's state, item for item as
spec/10_state.md R20 lists it (K and IV are constants: Machine/Constants.lean), and the host's: its
position in its program, the write it is being held on, the values it has read. The last fields are
the model's own: the interleaving the environment has fixed, and the counter of free values drawn. -/

namespace Sys2Proof.Machine

/-- MODE, the hash-session state (R32). -/
inductive Mode where
  | uninit
  | accepting
  | finalized
  | failed
  deriving DecidableEq, Repr

/-- The four sticky error flags (R33, R241). -/
inductive ErrFlag where
  | cmd
  | seq
  | len
  | bus
  deriving DecidableEq, Repr

/-- The two agents that step (R16). -/
inductive Agent where
  | host
  | engine
  deriving DecidableEq, Repr

/-- What the environment has fixed for one coming step: which agent moves if both may (R16), or that
the platform asserts reset (R260). -/
inductive Turn where
  | host
  | engine
  | reset
  deriving DecidableEq, Repr

/-- An access of the platform by byte address: the form R12 gives as `MemRead(BASE + off, 4)` and
`MemWrite(BASE + off, 4, v)`, with the width and the bus master that R53 and R253 speak of. -/
structure PlatformAccess where
  /-- The bus master; 0 is the engine's one host (R253, assumption log 9). -/
  master : Nat
  /-- The byte address. -/
  addr : Nat
  /-- The access width in bits. -/
  width : Nat
  /-- True for a write. -/
  write : Bool
  /-- The write data; a read has none. -/
  data : Word
  deriving DecidableEq, Repr

/-- One line of the host's program. -/
inductive HostLine where
  /-- One transaction `(A, D)` (R70, R90). -/
  | bus (a : BitVec 7) (d : Word)
  /-- `poll off, mask, value`: read `off` until `(value read & mask) = value` (R88). -/
  | poll (off : BitVec 6) (mask value : Word)
  /-- An access by platform address (R12, R51). -/
  | mem (acc : PlatformAccess)
  deriving DecidableEq, Repr

/-- The state of the system: engine (R20), host (R16), environment. -/
structure State where
  /-- H[0..7], the chaining state (R21). -/
  h : Vector Word 8
  /-- V[0..7] = a..h, the working variables (R22). -/
  v : Vector Word 8
  /-- W[0..63], the message schedule (R23). -/
  w : Vector Word 64
  /-- BUF[0..63], the block buffer (R26). -/
  buf : Vector Byte 64
  /-- BUFCNT, the number of valid bytes in BUF (R27). -/
  bufCnt : BitVec 6
  /-- L, the message bytes accepted since INIT (R28). -/
  len : BitVec 64
  /-- BITLEN, the latched bit length (R29). -/
  bitLen : BitVec 64
  /-- PEND_LEN, a length-only block is still to be compressed (R30). -/
  pendLen : Bool
  /-- DATA, the host data register (R31). -/
  data : Word
  /-- MODE (R32). -/
  mode : Mode
  /-- ERR_CMD (R33). -/
  errCmd : Bool
  /-- ERR_SEQ (R33). -/
  errSeq : Bool
  /-- ERR_LEN (R33). -/
  errLen : Bool
  /-- ERR_BUS (R33). -/
  errBus : Bool
  /-- PHASE, the 7-bit sequencer state (R35). -/
  phase : BitVec 7
  /-- The command word of the WR_CMD the host has issued and is being held on (R14, R201). -/
  held : Option Word
  /-- The lines of the host's program still to run: the host's program position (R16, R90). -/
  program : List HostLine
  /-- The values the engine has returned to the host, the latest first (R271). -/
  reads : List Word
  /-- The model's own: the turns the environment has fixed for the coming steps. -/
  plan : List Turn
  /-- The model's own: how many free values have been drawn. -/
  draws : Nat
  deriving DecidableEq, Repr

/-- Why the machine stops with a fault. -/
inductive Fault where
  /-- The "unreachable sequencer state" of R86: the engine's step finds PHASE holding a code 0x03 to
  0x3F. Raised by the five ENG_UNREACHABLE meanings. Safe: the model stops, and no claim about a
  further state can be proved. -/
  | unreachableSequencerState
  deriving DecidableEq, Repr

/-- What the model gives no meaning. -/
inductive Refusal where
  /-- An instruction without a meaning yet, by its mnemonic. Raised by exec's refused arms (there are
  none left). Safe. -/
  | notModelled (mnemonic : String)
  /-- An access to the window that is not 32 bits wide (R53, R256). Raised by the host's step on a
  platform access. Safe. -/
  | accessWidth (bits : Nat)
  /-- An access to the window by a second bus master (R253, R256). Raised by the host's step on a
  platform access. Safe. -/
  | secondHost (master : Nat)
  deriving DecidableEq, Repr

/-- Right after reset (R48, R260). H, V, W, BUF and BITLEN are "unspecified (any value)" there; the
model names 0 for each (DESIGN CHOICE, assumption log 4). The host has no program yet (log 7). -/
def State.reset : State where
  h := Vector.replicate 8 0#32
  v := Vector.replicate 8 0#32
  w := Vector.replicate 64 0#32
  buf := Vector.replicate 64 0#8
  bufCnt := 0#6
  len := 0#64
  bitLen := 0#64
  pendLen := false
  data := 0#32
  mode := .uninit
  errCmd := false
  errSeq := false
  errLen := false
  errBus := false
  phase := phaseIdle
  held := none
  program := []
  reads := []
  plan := []
  draws := 0

end Sys2Proof.Machine
end

