-- ==== Sys2Proof/Machine/Flags.lean ====
section
/-! DEFINITION. The flags of the engine: the derived signals BUSY and DVALID (R34), the STATUS word
(spec/10_state.md R40) and the one way an error is recorded (spec/00_scope.md R13, R33). No datapath
operation writes a flag (R47). -/

namespace Sys2Proof.Machine

/-- BUSY (R34). -/
def State.busy (s : State) : Bool := s.phase != phaseIdle

/-- DVALID (R34). -/
def State.dvalid (s : State) : Bool := s.mode == .finalized && s.phase == phaseIdle

/-- The two-bit code of MODE (R32). -/
def Mode.code : Mode → BitVec 2
  | .uninit => 0#2
  | .accepting => 1#2
  | .finalized => 2#2
  | .failed => 3#2

/-- A one-bit flag as a word. -/
def flagBit (b : Bool) : Word := (BitVec.ofBool b).setWidth 32

/-- The STATUS word, as R40's pseudocode assembles it. -/
def State.statusWord (s : State) : Word :=
  s.bufCnt.setWidth 32 <<< 16 ||| flagBit s.errBus <<< 11 ||| flagBit s.errLen <<< 10 |||
    flagBit s.errSeq <<< 9 ||| flagBit s.errCmd <<< 8 ||| s.mode.code.setWidth 32 <<< 2 |||
    flagBit s.dvalid <<< 1 ||| flagBit s.busy

/-- One error flag's value. -/
def State.err (s : State) : ErrFlag → Bool
  | .cmd => s.errCmd
  | .seq => s.errSeq
  | .len => s.errLen
  | .bus => s.errBus

/-- `flag ERR_X` (R13): the sticky bit becomes 1, nothing else changes. This is all that taking an
error is on this hardware (R240, R245: it saves nothing and goes nowhere). -/
def State.flag (s : State) : ErrFlag → State
  | .cmd => { s with errCmd := true }
  | .seq => { s with errSeq := true }
  | .len => { s with errLen := true }
  | .bus => { s with errBus := true }

/-- All four flags cleared, as INIT does (R204). -/
def State.clearErrors (s : State) : State :=
  { s with errCmd := false, errSeq := false, errLen := false, errBus := false }

end Sys2Proof.Machine
end

