-- ==== Sys2Proof/Machine/Constants.lean ====
section
/-! DEFINITION. The constants the spec gives the engine: the parameters of spec/00_scope.md R7, the
round-constant ROM K (spec/40_primitives.md R109) and the initial-state ROM IV (R110). -/

namespace Sys2Proof.Machine

/-- ID_VALUE, ASCII "S256" (R7, R39). -/
def idValue : Word := 0x53323536#32

/-- MAX_MSG_BYTES, the largest message length in bytes (R7, R28). -/
def maxMsgBytes : Nat := 2 ^ 61 - 1

/-- K[0..7] (R109). -/
def kRow0 : List Word :=
  [0x428A2F98#32, 0x71374491#32, 0xB5C0FBCF#32, 0xE9B5DBA5#32,
   0x3956C25B#32, 0x59F111F1#32, 0x923F82A4#32, 0xAB1C5ED5#32]

/-- K[8..15] (R109). -/
def kRow1 : List Word :=
  [0xD807AA98#32, 0x12835B01#32, 0x243185BE#32, 0x550C7DC3#32,
   0x72BE5D74#32, 0x80DEB1FE#32, 0x9BDC06A7#32, 0xC19BF174#32]

/-- K[16..23] (R109). -/
def kRow2 : List Word :=
  [0xE49B69C1#32, 0xEFBE4786#32, 0x0FC19DC6#32, 0x240CA1CC#32,
   0x2DE92C6F#32, 0x4A7484AA#32, 0x5CB0A9DC#32, 0x76F988DA#32]

/-- K[24..31] (R109). -/
def kRow3 : List Word :=
  [0x983E5152#32, 0xA831C66D#32, 0xB00327C8#32, 0xBF597FC7#32,
   0xC6E00BF3#32, 0xD5A79147#32, 0x06CA6351#32, 0x14292967#32]

/-- K[32..39] (R109). -/
def kRow4 : List Word :=
  [0x27B70A85#32, 0x2E1B2138#32, 0x4D2C6DFC#32, 0x53380D13#32,
   0x650A7354#32, 0x766A0ABB#32, 0x81C2C92E#32, 0x92722C85#32]

/-- K[40..47] (R109). -/
def kRow5 : List Word :=
  [0xA2BFE8A1#32, 0xA81A664B#32, 0xC24B8B70#32, 0xC76C51A3#32,
   0xD192E819#32, 0xD6990624#32, 0xF40E3585#32, 0x106AA070#32]

/-- K[48..55] (R109). -/
def kRow6 : List Word :=
  [0x19A4C116#32, 0x1E376C08#32, 0x2748774C#32, 0x34B0BCB5#32,
   0x391C0CB3#32, 0x4ED8AA4A#32, 0x5B9CCA4F#32, 0x682E6FF3#32]

/-- K[56..63] (R109). -/
def kRow7 : List Word :=
  [0x748F82EE#32, 0x78A5636F#32, 0x84C87814#32, 0x8CC70208#32,
   0x90BEFFFA#32, 0xA4506CEB#32, 0xBEF9A3F7#32, 0xC67178F2#32]

/-- K[0..63], the round constants (R109). Nothing writes K. -/
def kTable : List Word := kRow0 ++ kRow1 ++ kRow2 ++ kRow3 ++ kRow4 ++ kRow5 ++ kRow6 ++ kRow7

/-- K[t] (R109). -/
def kAt (t : BitVec 6) : Word := kTable.getD t.toNat 0#32

/-- IV[0..7], the initial state (R110). Nothing writes IV. -/
def iv : Vector Word 8 :=
  #v[0x6A09E667#32, 0xBB67AE85#32, 0x3C6EF372#32, 0xA54FF53A#32,
     0x510E527F#32, 0x9B05688C#32, 0x1F83D9AB#32, 0x5BE0CD19#32]

end Sys2Proof.Machine
end

