-- ==== Sys2Proof/Machine/Primitives.lean ====
section
/-! DEFINITION. The combinational functions of spec/40_primitives.md (R100 to R112) and the two
functions of a round (spec/43_compression.md R150, R151). The rotation amounts and formulas are the
spec's passages "from general knowledge, not in source". -/

namespace Sys2Proof.Machine

/-- ADD32 (R100). Every `+` between words in this model is this sum: it wraps modulo 2^32 (R9). -/
abbrev add32 (x y : Word) : Word := x + y

/-- ROTR (R101), for the counts `0 < n < 32` the rules use. -/
def rotr (x : Word) (n : Nat) : Word := (x >>> n) ||| (x <<< (32 - n))

/-- SHR (R102), zero fill from the left. -/
def shr (x : Word) (n : Nat) : Word := x >>> n

/-- σ0 (R103). -/
def smallSigma0 (x : Word) : Word := rotr x 7 ^^^ rotr x 18 ^^^ shr x 3

/-- σ1 (R104). -/
def smallSigma1 (x : Word) : Word := rotr x 17 ^^^ rotr x 19 ^^^ shr x 10

/-- Σ0 (R105). -/
def bigSigma0 (x : Word) : Word := rotr x 2 ^^^ rotr x 13 ^^^ rotr x 22

/-- Σ1 (R106). -/
def bigSigma1 (x : Word) : Word := rotr x 6 ^^^ rotr x 11 ^^^ rotr x 25

/-- Ch, "choose" (R107). -/
def ch (x y z : Word) : Word := (x &&& y) ^^^ (~~~x &&& z)

/-- Maj, "majority" (R108). -/
def maj (x y z : Word) : Word := (x &&& y) ^^^ (x &&& z) ^^^ (y &&& z)

/-- BE32 (R111): four bytes as a word, the first the most significant. -/
def be32 (b0 b1 b2 b3 : Byte) : Word := b0 ++ b1 ++ b2 ++ b3

/-- `bytes(w)`, the inverse of BE32 (R111). -/
def wordBytes (x : Word) : List Byte :=
  [x.extractLsb' 24 8, x.extractLsb' 16 8, x.extractLsb' 8 8, x.extractLsb' 0 8]

/-- BE64 (R112): a 64-bit value as eight bytes, the most significant first. -/
def be64 (x : BitVec 64) : List Byte :=
  [x.extractLsb' 56 8, x.extractLsb' 48 8, x.extractLsb' 40 8, x.extractLsb' 32 8,
   x.extractLsb' 24 8, x.extractLsb' 16 8, x.extractLsb' 8 8, x.extractLsb' 0 8]

/-- T1 (R150), of the working variables `v` = a..h, the round constant and the schedule word. -/
def t1 (v : Vector Word 8) (k w : Word) : Word :=
  v[7] + bigSigma1 v[4] + ch v[4] v[5] v[6] + k + w

/-- T2 (R150). -/
def t2 (v : Vector Word 8) : Word := bigSigma0 v[0] + maj v[0] v[1] v[2]

/-- ROUNDF (R151) with T1 and T2 of R150: all right-hand sides from the old a..h. -/
def roundF (v : Vector Word 8) (k w : Word) : Vector Word 8 :=
  #v[t1 v k w + t2 v, v[0], v[1], v[2], v[3] + t1 v k w, v[4], v[5], v[6]]

/-- FEEDFWD (spec/44_block_adder.md R170): each word's sum on its own. -/
def feedForward (h v : Vector Word 8) : Vector Word 8 :=
  Vector.ofFn fun i : Fin 8 => add32 h[i] v[i]

/-- W[t], 0 beyond the array's end (which no rule reads). -/
def wordAt (w : Vector Word 64) (t : Nat) : Word := w[t]?.getD 0#32

/-- The right-hand side of the schedule recurrence for W[t], `t >= 16` (R140, R141). -/
def scheduleWord (w : Vector Word 64) (t : Nat) : Word :=
  smallSigma1 (wordAt w (t - 2)) + wordAt w (t - 7) + smallSigma0 (wordAt w (t - 15)) +
    wordAt w (t - 16)

/-- `for t in 16..63: W[t] <- ...`, in increasing t (R141). -/
def extendSchedule (w : Vector Word 64) : Vector Word 64 :=
  (List.range' 16 48).foldl (fun w t => w.setIfInBounds t (scheduleWord w t)) w

/-- Word `i` of a 64-byte block, big-endian (R124, R140). -/
def blockWord (blk : List Byte) (i : Nat) : Word :=
  be32 (blk.getD (4 * i) 0#8) (blk.getD (4 * i + 1) 0#8) (blk.getD (4 * i + 2) 0#8)
    (blk.getD (4 * i + 3) 0#8)

/-- W with W[0..15] replaced by the block's words (R124). -/
def loadWords (blk : List Byte) (w : Vector Word 64) : Vector Word 64 :=
  Vector.ofFn fun i : Fin 64 => if i.val < 16 then blockWord blk i.val else w[i]

end Sys2Proof.Machine
end

