-- ==== Sys2Proof/Machine/Operands.lean ====
section
/-! DEFINITION. What the instructions read: the register views of spec/10_state.md (R39 to R44), the
bytes an ABSORB takes (spec/30_encoding.md R82) and how an access by platform address reaches the
window (spec/20_memory.md R51, R53; spec/60_exceptions.md R253). -/

namespace Sys2Proof.Machine

/-- LEN_LO (R43). -/
def State.lenLo (s : State) : Word := s.len.extractLsb' 0 32

/-- LEN_HI (R43). -/
def State.lenHi (s : State) : Word := s.len.extractLsb' 32 32

/-- DIGESTi: `DVALID ? H[i] : 0` (R44). -/
def State.digestWord (s : State) (i : BitVec 3) : Word :=
  if s.dvalid then s.h[i.toNat]'i.isLt else 0#32

/-- The byte count of an ABSORB, `n = N + 1` (R82). -/
def absorbCount (n : BitVec 2) : Nat := n.toNat + 1

/-- The bytes an ABSORB takes from DATA: `byte_j = DATA[31-8j : 24-8j]` for j = 0..n-1 (R82). -/
def absorbBytes (n : BitVec 2) (data : Word) : List Byte :=
  (wordBytes data).take (absorbCount n)

/-- The read descriptor of an offset, WE = 0 (R70). -/
def readDescriptor (off : BitVec 6) : BitVec 7 := 0#1 ++ off

/-- The write descriptor of an offset, WE = 1 (R70). -/
def writeDescriptor (off : BitVec 6) : BitVec 7 := 1#1 ++ off

/-- Where an access by platform address ends up. -/
inductive Reach where
  /-- Outside the window: it does not reach the engine (R51). -/
  | outside
  /-- In the window, by a bus master that is not the engine's host (R253). -/
  | secondHost (master : Nat)
  /-- In the window, not 32 bits wide (R53). -/
  | wrongWidth (bits : Nat)
  /-- The transaction `(A, D)` it is (R12, R70). -/
  | transaction (a : BitVec 7) (d : Word)
  deriving DecidableEq, Repr

/-- How a platform access reaches the engine: `off = addr - BASE` when `BASE <= addr < BASE + 64`
(R51). A read's D is 0. DESIGN CHOICE (assumption log 19): an access of any width belongs to the window
by the address of its first byte alone, so one that begins below BASE and extends into the window is
outside it. -/
def PlatformAccess.reach (acc : PlatformAccess) : Reach :=
  if Config.base ≤ acc.addr ∧ acc.addr < Config.base + 64 then
    if acc.master ≠ 0 then .secondHost acc.master
    else if acc.width ≠ 32 then .wrongWidth acc.width
    else if acc.write then
      .transaction (writeDescriptor (BitVec.ofNat 6 (acc.addr - Config.base))) acc.data
    else .transaction (readDescriptor (BitVec.ofNat 6 (acc.addr - Config.base))) 0#32
  else .outside

end Sys2Proof.Machine
end

