-- ==== Sys2Proof/Machine/Ops.lean ====
section
/-! DEFINITION. The shared operations: returning a value to the host, the hold of a CMD write
(spec/00_scope.md R14, spec/45_host_interface.md R201), and the padding unit's micro-operations
(spec/41_padding.md R123 to R126). Taking an error is `State.flag` (Machine/Flags.lean, R13); there
is no trap to enter and none to return from (spec/60_exceptions.md R240, R245, R247). -/

namespace Sys2Proof.Machine

/-- A read completes: the value goes to the host and no state of the engine changes (R57). -/
def State.answer (s : State) (x : Word) : State := { s with reads := x :: s.reads }

/-- The host's CMD write of `d` is on the bus, held (R14: "The access does not complete, and has no
effect"). -/
def State.hold (s : State) (d : Word) : State := { s with held := some d }

/-- The host's CMD write has completed. -/
def State.release (s : State) : State := { s with held := none }

/-- `hold until PHASE = IDLE` (R201), for the command word `d` with its effect. -/
def acceptWhenIdle (d : Word) (effect : State → State) (s : State) :
    Host.Outcome State Fault Refusal :=
  if s.busy then .next (s.hold d) else .next (effect s.release)

/-- LOAD_BLOCK (R124). -/
def State.loadBlock (s : State) (blk : List Byte) : State :=
  { s with w := loadWords blk s.w, phase := phaseSchedule }

/-- APPEND_BYTE (R123). -/
def State.appendByte (s : State) (x : Byte) : State :=
  let s1 := { s with buf := s.buf.set s.bufCnt.toNat x s.bufCnt.isLt, len := s.len + 1#64 }
  if s.bufCnt = 63#6 then State.loadBlock { s1 with bufCnt := 0#6 } s1.buf.toList
  else { s1 with bufCnt := s.bufCnt + 1#6 }

/-- The bit length `8 * L` (R29, R125). -/
def State.messageBits (s : State) : BitVec 64 := 8#64 * s.len

/-- The block PAD_TAIL loads (R125): the buffered tail, 0x80 and zeros, with the length in bytes 56
to 63 where it fits. -/
def State.tailBlock (s : State) : List Byte :=
  let r := s.bufCnt.toNat
  let blk := s.buf.toList.take r ++ [0x80#8] ++ List.replicate (63 - r) 0x00#8
  if r ≤ 55 then blk.take 56 ++ be64 s.messageBits else blk

/-- PAD_TAIL (R125). -/
def State.padTail (s : State) : State :=
  State.loadBlock
    { s with bitLen := s.messageBits, pendLen := decide (55 < s.bufCnt.toNat), bufCnt := 0#6 }
    s.tailBlock

/-- LENGTH_BLOCK (R126): `0^56 || BE64(BITLEN)`. -/
def State.lengthBlock (s : State) : State :=
  { s.loadBlock (List.replicate 56 0x00#8 ++ be64 s.bitLen) with pendLen := false }

end Sys2Proof.Machine
end

