-- ==== Sys2Proof/Machine/BusReads.lean ====
section
/-! DEFINITION. The meanings of the read transactions (spec/45_host_interface.md R191 to R199). Each
completes at once, whatever PHASE is (R190), and changes nothing of the engine (R57). -/

namespace Sys2Proof.Machine

/-- RD_ID (R191). -/
def execRdId (s : State) : Host.Outcome State Fault Refusal := .next (s.answer idValue)

/-- RD_STATUS (R192). -/
def execRdStatus (s : State) : Host.Outcome State Fault Refusal := .next (s.answer s.statusWord)

/-- RD_CMD (R193). -/
def execRdCmd (s : State) : Host.Outcome State Fault Refusal := .next (s.answer 0x00000000#32)

/-- RD_DATA (R194). -/
def execRdData (s : State) : Host.Outcome State Fault Refusal := .next (s.answer s.data)

/-- RD_LEN_LO (R195). -/
def execRdLenLo (s : State) : Host.Outcome State Fault Refusal := .next (s.answer s.lenLo)

/-- RD_LEN_HI (R196). -/
def execRdLenHi (s : State) : Host.Outcome State Fault Refusal := .next (s.answer s.lenHi)

/-- RD_RSVD (R197). -/
def execRdRsvd (_sel : BitVec 1) (s : State) : Host.Outcome State Fault Refusal :=
  .next (s.answer 0x00000000#32)

/-- RD_DIGEST (R198). -/
def execRdDigest (i : BitVec 3) (s : State) : Host.Outcome State Fault Refusal :=
  .next (s.answer (s.digestWord i))

/-- RD_MISALIGNED_ODD (R199). -/
def execRdMisalignedOdd (_hi : BitVec 5) (s : State) : Host.Outcome State Fault Refusal :=
  .next (s.answer 0x00000000#32)

/-- RD_MISALIGNED_HALF (R199). -/
def execRdMisalignedHalf (_reg : BitVec 4) (s : State) : Host.Outcome State Fault Refusal :=
  .next (s.answer 0x00000000#32)

end Sys2Proof.Machine
end

