-- ==== Sys2Proof/Machine/Commands.lean ====
section
/-! DEFINITION. The meanings of the command words (spec/45_host_interface.md R203 to R207). A command
comes to the engine in a CMD write, so each is held while PHASE is not IDLE (R201); its effect once
the hold lifts is a function of its own. -/

namespace Sys2Proof.Machine

/-- NOP (R203): "(nothing)". -/
def execNop (s : State) : Host.Outcome State Fault Refusal :=
  acceptWhenIdle (encodeCommand .nop) (fun s => s) s

/-- INIT's effect (R204). -/
def State.startSession (s : State) : State :=
  { s.clearErrors with h := iv, len := 0#64, bufCnt := 0#6, pendLen := false, mode := .accepting }

/-- INIT (R204). -/
def execInit (s : State) : Host.Outcome State Fault Refusal :=
  acceptWhenIdle (encodeCommand .init) State.startSession s

/-- ABSORB's effect (R205): the checks in R243's order, then the bytes one after another. -/
def State.absorb (n : BitVec 2) (s : State) : State :=
  if s.mode ≠ .accepting then s.flag .seq
  else if s.len.toNat + absorbCount n > maxMsgBytes then { s.flag .len with mode := .failed }
  else (absorbBytes n s.data).foldl State.appendByte s

/-- ABSORB (R205). -/
def execAbsorb (n : BitVec 2) (s : State) : Host.Outcome State Fault Refusal :=
  acceptWhenIdle (encodeCommand (.absorb n)) (State.absorb n) s

/-- FINAL's effect (R206). -/
def State.finish (s : State) : State :=
  if s.mode ≠ .accepting then s.flag .seq else { s.padTail with mode := .finalized }

/-- FINAL (R206). -/
def execFinal (s : State) : Host.Outcome State Fault Refusal :=
  acceptWhenIdle (encodeCommand .final) State.finish s

/-- CMD_ILLEGAL (R207). -/
def execCmdIllegal (w : Word) (s : State) : Host.Outcome State Fault Refusal :=
  acceptWhenIdle (encodeCommand (.illegal w)) (fun s => s.flag .cmd) s

end Sys2Proof.Machine
end

