-- ==== Sys2Proof/Machine/BusWrites.lean ====
section
/-! DEFINITION. The meanings of the write transactions (spec/45_host_interface.md R200 to R202). -/

namespace Sys2Proof.Machine

/-- A write to a read-only, reserved or misaligned offset: ignored, and ERR_BUS set (R202). It is
never held. -/
def busErrorWrite (s : State) : Host.Outcome State Fault Refusal := .next (s.flag .bus)

/-- WR_ID (R202). -/
def execWrId (_d : Word) (s : State) : Host.Outcome State Fault Refusal := busErrorWrite s

/-- WR_STATUS (R202). -/
def execWrStatus (_d : Word) (s : State) : Host.Outcome State Fault Refusal := busErrorWrite s

/-- WR_CMD (R201): held while PHASE is not IDLE; then the word is decoded (R83) and performed. -/
def execWrCmd (d : Word) (s : State) : Host.Outcome State Fault Refusal :=
  if s.busy then .next (s.hold d)
  else
    match decodeCommand d with
    | .nop => execNop s
    | .init => execInit s
    | .absorb n => execAbsorb n s
    | .final => execFinal s
    | .illegal w => execCmdIllegal w s

/-- WR_DATA (R200). -/
def execWrData (d : Word) (s : State) : Host.Outcome State Fault Refusal :=
  .next { s with data := d }

/-- WR_LEN (R202). -/
def execWrLen (_sel : BitVec 1) (_d : Word) (s : State) : Host.Outcome State Fault Refusal :=
  busErrorWrite s

/-- WR_RSVD (R202). -/
def execWrRsvd (_sel : BitVec 1) (_d : Word) (s : State) : Host.Outcome State Fault Refusal :=
  busErrorWrite s

/-- WR_DIGEST (R202). -/
def execWrDigest (_i : BitVec 3) (_d : Word) (s : State) : Host.Outcome State Fault Refusal :=
  busErrorWrite s

/-- WR_MISALIGNED_ODD (R202). -/
def execWrMisalignedOdd (_hi : BitVec 5) (_d : Word) (s : State) :
    Host.Outcome State Fault Refusal :=
  busErrorWrite s

/-- WR_MISALIGNED_HALF (R202). -/
def execWrMisalignedHalf (_reg : BitVec 4) (_d : Word) (s : State) :
    Host.Outcome State Fault Refusal :=
  busErrorWrite s

end Sys2Proof.Machine
end

