-- ==== Sys2Proof/Machine/Engine.lean ====
section
/-! DEFINITION. The meanings of the engine's own steps, selected by the PHASE code: SCHEDULE
(spec/42_schedule.md R141), ROUND(t) (spec/43_compression.md R153), ADD (spec/44_block_adder.md R171),
IDLE (R190) and the unreachable codes (R86). -/

namespace Sys2Proof.Machine

/-- ENG_IDLE: "the engine has no step" (R85, R190); every state item keeps its value (R255). -/
def execEngIdle (s : State) : Host.Outcome State Fault Refusal := .next s

/-- ENG_SCHEDULE (R141). -/
def execEngSchedule (s : State) : Host.Outcome State Fault Refusal :=
  .next { s with w := extendSchedule s.w, v := s.h, phase := phaseRound 0#6 }

/-- ENG_ROUND, the ROUND(t) step (R153). -/
def execEngRound (t : BitVec 6) (s : State) : Host.Outcome State Fault Refusal :=
  .next
    { s with
      v := roundF s.v (kAt t) (wordAt s.w t.toNat)
      phase := if t = 63#6 then phaseAdd else phaseRound (t + 1#6) }

/-- ENG_ADD (R171). -/
def execEngAdd (s : State) : Host.Outcome State Fault Refusal :=
  let s1 := { s with h := feedForward s.h s.v }
  if s.pendLen then .next s1.lengthBlock else .next { s1 with phase := phaseIdle }

/-- ENG_UNREACHABLE, code 0x03 (R86). -/
def execEngUnreachable03 (_s : State) : Host.Outcome State Fault Refusal :=
  .fault .unreachableSequencerState

/-- ENG_UNREACHABLE, codes 0x04 to 0x07 (R86). -/
def execEngUnreachable04 (_lo : BitVec 2) (_s : State) : Host.Outcome State Fault Refusal :=
  .fault .unreachableSequencerState

/-- ENG_UNREACHABLE, codes 0x08 to 0x0F (R86). -/
def execEngUnreachable08 (_lo : BitVec 3) (_s : State) : Host.Outcome State Fault Refusal :=
  .fault .unreachableSequencerState

/-- ENG_UNREACHABLE, codes 0x10 to 0x1F (R86). -/
def execEngUnreachable10 (_lo : BitVec 4) (_s : State) : Host.Outcome State Fault Refusal :=
  .fault .unreachableSequencerState

/-- ENG_UNREACHABLE, codes 0x20 to 0x3F (R86). -/
def execEngUnreachable20 (_lo : BitVec 5) (_s : State) : Host.Outcome State Fault Refusal :=
  .fault .unreachableSequencerState

end Sys2Proof.Machine
end

