-- ==== Sys2Proof/Machine/Dispatch.lean ====
section
/-! DEFINITION. The meaning of every instruction, one arm per row of spec/opcode_table.json. -/

namespace Sys2Proof.Machine

def exec (i : Instr) (s : State) : Host.Outcome State Fault Refusal :=
  match i with
  -- BUS, reads
  | .rdId => Sys2Proof.Machine.execRdId s
  | .rdStatus => Sys2Proof.Machine.execRdStatus s
  | .rdCmd => Sys2Proof.Machine.execRdCmd s
  | .rdData => Sys2Proof.Machine.execRdData s
  | .rdLenLo => Sys2Proof.Machine.execRdLenLo s
  | .rdLenHi => Sys2Proof.Machine.execRdLenHi s
  | .rdRsvd sel => Sys2Proof.Machine.execRdRsvd sel s
  | .rdDigest k => Sys2Proof.Machine.execRdDigest k s
  | .rdMisalignedOdd hi => Sys2Proof.Machine.execRdMisalignedOdd hi s
  | .rdMisalignedHalf reg => Sys2Proof.Machine.execRdMisalignedHalf reg s
  -- BUS, writes
  | .wrId d => Sys2Proof.Machine.execWrId d s
  | .wrStatus d => Sys2Proof.Machine.execWrStatus d s
  | .wrCmd d => Sys2Proof.Machine.execWrCmd d s
  | .wrData d => Sys2Proof.Machine.execWrData d s
  | .wrLen sel d => Sys2Proof.Machine.execWrLen sel d s
  | .wrRsvd sel d => Sys2Proof.Machine.execWrRsvd sel d s
  | .wrDigest k d => Sys2Proof.Machine.execWrDigest k d s
  | .wrMisalignedOdd hi d => Sys2Proof.Machine.execWrMisalignedOdd hi d s
  | .wrMisalignedHalf reg d => Sys2Proof.Machine.execWrMisalignedHalf reg d s
  -- CMD
  | .nop => Sys2Proof.Machine.execNop s
  | .init => Sys2Proof.Machine.execInit s
  | .absorb n => Sys2Proof.Machine.execAbsorb n s
  | .final => Sys2Proof.Machine.execFinal s
  | .cmdIllegal w => Sys2Proof.Machine.execCmdIllegal w s
  -- PHASE
  | .engIdle => Sys2Proof.Machine.execEngIdle s
  | .engSchedule => Sys2Proof.Machine.execEngSchedule s
  | .engAdd => Sys2Proof.Machine.execEngAdd s
  | .engRound t => Sys2Proof.Machine.execEngRound t s
  | .engUnreachable03 => Sys2Proof.Machine.execEngUnreachable03 s
  | .engUnreachable04 lo => Sys2Proof.Machine.execEngUnreachable04 lo s
  | .engUnreachable08 lo => Sys2Proof.Machine.execEngUnreachable08 lo s
  | .engUnreachable10 lo => Sys2Proof.Machine.execEngUnreachable10 lo s
  | .engUnreachable20 lo => Sys2Proof.Machine.execEngUnreachable20 lo s

end Sys2Proof.Machine
end

