-- ==== Sys2Proof/Machine/Agents.lean ====
section
/-! DEFINITION. The two agents and the platform (spec/00_scope.md R16; spec/70_reset_and_hazards.md
R260): what the host does in a step, what the engine does in a step, when each may move, and the
reset the platform may assert between two steps. -/

namespace Sys2Proof.Machine

/-- The engine's step: the instruction its PHASE code selects (R85). -/
def engineMove (s : State) : Host.Outcome State Fault Refusal := exec (decodePhase s.phase) s

/-- The value the latest read returned. -/
def State.lastRead (s : State) : Word := s.reads.headD 0#32

/-- One read of a `poll` (R88): the line stays at the head of the program until
`(value & mask) = value wanted`. `s` is the state with the line taken off. -/
def pollMove (off : BitVec 6) (mask value : Word) (s : State) :
    Host.Outcome State Fault Refusal :=
  match exec (decodeBus (readDescriptor off) 0#32) s with
  | .next s' =>
    if s'.lastRead &&& mask = value then .next s'
    else .next { s' with program := .poll off mask value :: s'.program }
  | .fault f => .fault f
  | .refused r => .refused r

/-- An access by platform address (R12, R51, R53, R253). One outside the window is the platform's
business: the engine does not see it. `s` is the state with the line taken off. -/
def memMove (acc : PlatformAccess) (s : State) : Host.Outcome State Fault Refusal :=
  match acc.reach with
  | .outside => .next s
  | .secondHost m => .refused (.secondHost m)
  | .wrongWidth b => .refused (.accessWidth b)
  | .transaction a d => exec (decodeBus a d) s

/-- One line of the host's program. `s` is the state with the line taken off. -/
def HostLine.run (l : HostLine) (s : State) : Host.Outcome State Fault Refusal :=
  match l with
  | .bus a d => exec (decodeBus a d) s
  | .poll off mask value => pollMove off mask value s
  | .mem acc => memMove acc s

/-- The host's step (R190): the CMD write it is held on, or else the next line of its program, in
program order (R58). -/
def hostMove (s : State) : Host.Outcome State Fault Refusal :=
  match s.held with
  | some d => exec (.wrCmd d) s
  | none =>
    match s.program with
    | [] => .next s
    | l :: rest => l.run { s with program := rest }

/-- The host may move: a held write only once PHASE is IDLE (R14, R201), and otherwise whenever its
program has a line left. -/
def State.hostEnabled (s : State) : Bool :=
  match s.held with
  | some _ => !s.busy
  | none => !s.program.isEmpty

/-- The engine may move: "only while PHASE is not IDLE" (R16). -/
def State.engineEnabled (s : State) : Bool := s.busy

/-- The agent that moves when `preferred` names the choice between two enabled ones (R16). With
neither enabled the step is the engine's rest in IDLE. -/
def State.mover (s : State) (preferred : Agent) : Agent :=
  match s.hostEnabled, s.engineEnabled with
  | true, true => preferred
  | true, false => .host
  | false, _ => .engine

/-- The agent's step. -/
def agentMove (a : Agent) (s : State) : Host.Outcome State Fault Refusal :=
  match a with
  | .host => hostMove s
  | .engine => engineMove s

/-- The step in which the choice, where there is one, is `preferred`. -/
def turnOf (preferred : Agent) (s : State) : Host.Outcome State Fault Refusal :=
  agentMove (s.mover preferred) s

/-- How many turns the host still takes before the engine's next, at each draw: counts taken from `lead`,
one after another. -/
def hostTurnsLeft (lead : Nat → Nat) : Nat → Nat
  | 0 => lead 0
  | n + 1 =>
    match hostTurnsLeft lead n with
    | 0 => lead (n + 1)
    | left + 1 => left

/-- The host moves at draw `n`, the engine if not (R16). Weakly fair to the engine (R269: "A model assumes
weak fairness of the engine agent"), whatever the free counts are. -/
def hostMoves (n : Nat) : Bool := hostTurnsLeft Config.hostLead n != 0

/-- The free values the platform's reset leaves in the items R48 calls unspecified, at one draw:
item 0 is BITLEN, items 1 to 8 are H, 9 to 16 are V, 17 to 80 are W, 81 to 144 are BUF. -/
def resetItems (n : Nat) (s : State) : State :=
  { s with
    bitLen := Config.resetDraw n 0
    h := Vector.ofFn fun i : Fin 8 => (Config.resetDraw n (1 + i.val)).setWidth 32
    v := Vector.ofFn fun i : Fin 8 => (Config.resetDraw n (9 + i.val)).setWidth 32
    w := Vector.ofFn fun i : Fin 64 => (Config.resetDraw n (17 + i.val)).setWidth 32
    buf := Vector.ofFn fun i : Fin 64 => (Config.resetDraw n (81 + i.val)).setWidth 8 }

/-- The platform asserts reset (R260): the specified items take their values of R48, the others a
free one; a block in progress and a held CMD write are abandoned. The host's program position, its
read values and the environment's plan are not the engine's. -/
def platformReset (s : State) : State :=
  resetItems s.draws
    { State.reset with
      program := s.program
      reads := s.reads
      plan := s.plan
      draws := s.draws + 1 }

/-- One step under the environment's plan: reset, or a turn with the choice the plan names, or, where
the plan names none, a free choice, fair to the engine, if there is one to make (R16, R269). -/
def systemStep (s : State) : Host.Outcome State Fault Refusal :=
  match s.plan with
  | .reset :: rest => .next (platformReset { s with plan := rest })
  | .host :: rest => turnOf .host { s with plan := rest }
  | .engine :: rest => turnOf .engine { s with plan := rest }
  | [] =>
    if s.hostEnabled && s.engineEnabled then
      turnOf (if hostMoves s.draws then .host else .engine) { s with draws := s.draws + 1 }
    else turnOf .engine s

/-- Put one transaction where the host's next step takes it from, and let the host be the agent that
moves: no write is held, the line heads the program, and the plan gives the host the next turn. -/
def State.withTransaction (s : State) (a : BitVec 7) (d : Word) : State :=
  { s with held := none, program := .bus a d :: s.program, plan := .host :: s.plan }

/-- Bring a code word to where the machine takes it from: a command comes in a WR_CMD (R80), a PHASE
code stands in PHASE, with the engine the agent that moves. -/
def State.withCodeWord (s : State) : CodeWord → State
  | .bus a d => s.withTransaction a d
  | .cmd d => s.withTransaction 0x48#7 d
  | .phase p => { s with phase := p, plan := .engine :: s.plan }

end Sys2Proof.Machine
end

