-- ==== Sys2Proof/Machine/Step.lean ====
section
/-! DEFINITION. One step of the system (spec/00_scope.md R16: "one host access or one engine step"), and
how a raw instruction word is placed so that the next step runs it. -/

namespace Sys2Proof.Machine

/-- One step. -/
def step (s : State) : Host.Outcome State Fault Refusal := systemStep s

/-- The state in which the very next step runs the instruction whose bits are `w`: a bus transaction,
or the WR_CMD that delivers a command word (see `readRaw`). A word the decoder refuses changes
nothing. -/
def State.withFetchWord (s : State) (nbits w : Nat) : State :=
  match readRaw nbits w with
  | .ok c => s.withCodeWord c
  | .error _ => s

end Sys2Proof.Machine
end

