-- ==== Sys2Proof/Machine/HostAsm.lean ====
section
/-! DEFINITION. The host's assembly lines and pseudo-instructions as the program lines they stand for
(spec/30_encoding.md R88, R89). -/

namespace Sys2Proof.Machine.Asm

/-- `rd OFF` (R88). -/
def rd (off : BitVec 6) : List HostLine := [.bus (readDescriptor off) 0#32]

/-- `wr OFF, VALUE` (R88). -/
def wr (off : BitVec 6) (value : Word) : List HostLine := [.bus (writeDescriptor off) value]

/-- `poll OFF, MASK, VAL` (R88). -/
def poll (off : BitVec 6) (mask value : Word) : List HostLine := [.poll off mask value]

/-- `nop` (R89). -/
def nop : List HostLine := wr 0x08#6 0x00000000#32

/-- `init` (R89). -/
def init : List HostLine := wr 0x08#6 0x10000000#32

/-- `absorb n`, with `n - 1` in the two-bit field (R89). -/
def absorb (n : BitVec 2) : List HostLine := wr 0x08#6 (0x20000000#32 ||| n.setWidth 32)

/-- `final` (R89). -/
def final : List HostLine := wr 0x08#6 0x30000000#32

/-- `data v` (R89). -/
def data (x : Word) : List HostLine := wr 0x0C#6 x

/-- `absorb.w v` (R89). -/
def absorbW (x : Word) : List HostLine := data x ++ absorb 3#2

/-- `absorb.b x` (R89). -/
def absorbB (x : Byte) : List HostLine := data (x.setWidth 32 <<< 24) ++ absorb 0#2

/-- `absorb.s "str"`, on the string's bytes (R89). -/
def absorbS : List Byte → List HostLine
  | [] => []
  | [b0] => data (be32 b0 0#8 0#8 0#8) ++ absorb 0#2
  | [b0, b1] => data (be32 b0 b1 0#8 0#8) ++ absorb 1#2
  | [b0, b1, b2] => data (be32 b0 b1 b2 0#8) ++ absorb 2#2
  | b0 :: b1 :: b2 :: b3 :: rest => absorbW (be32 b0 b1 b2 b3) ++ absorbS rest

/-- `wait.idle` (R89). -/
def waitIdle : List HostLine := poll 0x04#6 0x00000001#32 0x00000000#32

/-- `wait.digest` (R89). -/
def waitDigest : List HostLine := poll 0x04#6 0x00000002#32 0x00000002#32

/-- `read.digest`: the eight reads 0x20 to 0x3C, in order (R89). -/
def readDigest : List HostLine :=
  rd 0x20#6 ++ rd 0x24#6 ++ rd 0x28#6 ++ rd 0x2C#6 ++ rd 0x30#6 ++ rd 0x34#6 ++ rd 0x38#6 ++
    rd 0x3C#6

end Sys2Proof.Machine.Asm
end

