-- ==== Sys2Proof/Machine/Reference.lean ====
section
/-! DEFINITION. The algorithm as functions of byte strings, which the spec gives beside the engine's
steps: PAD (spec/41_padding.md R120), SCHED (spec/42_schedule.md R140), COMPRESS
(spec/43_compression.md R152), SHA256, SER and HEX (spec/44_block_adder.md R172, R173, R178). Claims
compare the engine with them; no step calls them. -/

namespace Sys2Proof.Machine

/-- The number k of zero bytes, `(55 - len(M)) mod 64` (R120). -/
def padZeros (length : Nat) : Nat := (119 - length % 64) % 64

/-- PAD(M) `= M || 0x80 || 0^k || BE64(8 * len(M))` (R120). -/
def pad (m : List Byte) : List Byte :=
  m ++ [0x80#8] ++ List.replicate (padZeros m.length) 0x00#8 ++
    be64 (BitVec.ofNat 64 (8 * m.length))

/-- The 64-byte blocks of a padded message, in order (R122). -/
def blocks (p : List Byte) : List (List Byte) :=
  (List.range (p.length / 64)).map fun j => (p.drop (64 * j)).take 64

/-- The next schedule word from the words so far, `t = ws.length` (R140). -/
def nextScheduleWord (ws : List Word) : Word :=
  let t := ws.length
  smallSigma1 (ws.getD (t - 2) 0#32) + ws.getD (t - 7) 0#32 +
    smallSigma0 (ws.getD (t - 15) 0#32) + ws.getD (t - 16) 0#32

/-- `n` more schedule words. -/
def growSchedule : Nat → List Word → List Word
  | 0, ws => ws
  | n + 1, ws => growSchedule n (ws ++ [nextScheduleWord ws])

/-- SCHED(blk), the 64 schedule words of a block (R140). -/
def sched (blk : List Byte) : List Word :=
  growSchedule 48 ((List.range 16).map (blockWord blk))

/-- The 64 rounds of COMPRESS on the working variables (R152), with the schedule `ws`. -/
def rounds (ws : List Word) (v : Vector Word 8) : Vector Word 8 :=
  (List.range 64).foldl (fun v t => roundF v (kTable.getD t 0#32) (ws.getD t 0#32)) v

/-- COMPRESS(H, blk) (R152). -/
def compress (h : Vector Word 8) (blk : List Byte) : Vector Word 8 :=
  feedForward h (rounds (sched blk) h)

/-- The chaining state after a list of blocks, from IV (R172). -/
def hashBlocks (bs : List (List Byte)) : Vector Word 8 := bs.foldl compress iv

/-- SER(H), the 32 digest bytes (R173). -/
def ser (h : Vector Word 8) : List Byte := h.toList.flatMap wordBytes

/-- The chaining state SHA256(M) serializes (R172). -/
def digestState (m : List Byte) : Vector Word 8 := hashBlocks (blocks (pad m))

/-- SHA256(M) (R172). -/
def sha256 (m : List Byte) : List Byte := ser (digestState m)

/-- One hex digit, lowercase (R178). -/
def hexDigit (x : BitVec 4) : Char := ['0', '1', '2', '3', '4', '5', '6', '7', '8', '9', 'a', 'b',
  'c', 'd', 'e', 'f'].getD x.toNat '0'

/-- HEX(bytes), a host-side reference function (R178): two digits a byte, the high nibble first. -/
def hex (bs : List Byte) : List Char :=
  bs.flatMap fun b => [hexDigit (b.extractLsb' 4 4), hexDigit (b.extractLsb' 0 4)]

end Sys2Proof.Machine
end

