-- ==== Sys2Proof/Safety.lean ====
section
/-! DEFINITION. The terms claims are stated in: the invariants of spec/10_state.md R37, what a safe
outcome is (spec/60_exceptions.md R256), the engine running alone, the end of a run
(spec/70_reset_and_hazards.md R271) and a hash session. -/

namespace Sys2Proof.Machine

/-- PHASE holds one of the 67 codes R35 lists and R85 gives a step: IDLE, SCHEDULE, ADD and the 64
ROUND(t), so not a code 0x03 to 0x3F (R86). R35's text counts them as 66. DESIGN CHOICE (assumption
log 20): the model follows the list, not the count. -/
abbrev State.PhaseLegal (s : State) : Prop := s.phase.toNat ≤ 2 ∨ 64 ≤ s.phase.toNat

/-- The invariants (1) to (6) of R37, with the legal PHASE codes of R35. -/
abbrev State.Inv (s : State) : Prop :=
  s.PhaseLegal ∧
  (s.pendLen = true → s.busy = true ∧ s.mode = .finalized) ∧
  (s.mode = .uninit ∨ s.mode = .accepting ∨ s.mode = .failed →
    s.bufCnt.toNat = s.len.toNat % 64) ∧
  (s.mode = .finalized → s.bufCnt = 0#6) ∧
  (s.mode = .accepting → s.busy = true → s.bufCnt.toNat ≤ 3) ∧
  s.len.toNat ≤ maxMsgBytes ∧
  (s.busy = true → s.mode = .accepting ∨ s.mode = .finalized)

/-- The engine's part of the state is the same (every item of R20). -/
abbrev State.SameEngine (s t : State) : Prop :=
  s.h = t.h ∧ s.v = t.v ∧ s.w = t.w ∧ s.buf = t.buf ∧ s.bufCnt = t.bufCnt ∧ s.len = t.len ∧
  s.bitLen = t.bitLen ∧ s.pendLen = t.pendLen ∧ s.data = t.data ∧ s.mode = t.mode ∧
  s.errCmd = t.errCmd ∧ s.errSeq = t.errSeq ∧ s.errLen = t.errLen ∧ s.errBus = t.errBus ∧
  s.phase = t.phase

/-- `n` engine steps and nothing else; `none` if one of them faults. -/
def engineRun : Nat → State → Option State
  | 0, s => some s
  | n + 1, s =>
    match engineMove s with
    | .next t => engineRun n t
    | .fault _ => none
    | .refused _ => none

/-- Byte `j` of the block PAD_TAIL loads, place by place (R125): the buffered tail, 0x80, then zeros,
with BE64 of the bit length in bytes 56 to 63 when the tail has at most 55 bytes. -/
def State.paddedByte (s : State) (j : Nat) : Byte :=
  if j < s.bufCnt.toNat then s.buf[j]?.getD 0#8
  else if j = s.bufCnt.toNat then 0x80#8
  else if s.bufCnt.toNat ≤ 55 ∧ 56 ≤ j then (8#64 * s.len).extractLsb' (8 * (63 - j)) 8
  else 0x00#8

/-- Word `i` of that block, big-endian (R124). -/
def State.paddedWord (s : State) (i : Nat) : Word :=
  be32 (s.paddedByte (4 * i)) (s.paddedByte (4 * i + 1)) (s.paddedByte (4 * i + 2))
    (s.paddedByte (4 * i + 3))

/-- Byte `k` of DATA, the most significant first (R42). -/
def State.dataByte (s : State) (k : Nat) : Byte := s.data.extractLsb' (24 - 8 * k) 8

/-- Byte `j` of the block that fills the buffer during an ABSORB: the bytes buffered before it, then
DATA's (R123, R205). -/
def State.filledByte (s : State) (j : Nat) : Byte :=
  if j < s.bufCnt.toNat then s.buf[j]?.getD 0#8 else s.dataByte (j - s.bufCnt.toNat)

/-- Word `i` of that block (R124). -/
def State.filledWord (s : State) (i : Nat) : Word :=
  be32 (s.filledByte (4 * i)) (s.filledByte (4 * i + 1)) (s.filledByte (4 * i + 2))
    (s.filledByte (4 * i + 3))

end Sys2Proof.Machine

/-- The instruction a host transaction performs: the command, for a CMD write (R201). -/
def Sys2Proof.Instr.performed (i : Instr) : Instr :=
  match i with
  | .wrCmd d => decodeCmd d
  | j => j

/-- The rows of R202: writes to a read-only, reserved or misaligned offset. -/
def Sys2Proof.Instr.isBusError (i : Instr) : Bool :=
  i.mnemonic ∈ ["WR_ID", "WR_STATUS", "WR_LEN", "WR_RSVD", "WR_DIGEST", "WR_MISALIGNED_ODD",
    "WR_MISALIGNED_HALF"]

namespace Sys2Proof.Machine

/-- The transaction a line of the host's program performs, each time it is run: a `poll` is reads of its
offset (R88), an access outside the window is none (R51). -/
def HostLine.transaction : HostLine → Option (BitVec 7 × Word)
  | .bus a d => some (a, d)
  | .poll off _ _ => some (readDescriptor off, 0#32)
  | .mem acc =>
    match acc.reach with
    | .transaction a d => some (a, d)
    | .outside => none
    | .secondHost _ => none
    | .wrongWidth _ => none

/-- The transaction performs the instruction: itself, or the command its CMD write delivers (R201). -/
def performs (x : BitVec 7 × Word) (i : Instr) : Bool := (decodeBus x.1 x.2).performed == i

/-- The transactions the host has still to complete: the CMD write it is held on, then those of its
program. -/
def State.pendingTransactions (s : State) : List (BitVec 7 × Word) :=
  s.held.toList.map (fun d => (0x48#7, d)) ++ s.program.filterMap HostLine.transaction

/-- The host's next move performs the instruction: the write it is held on delivers it, or else the line
at the head of its program does. -/
def State.hostPerforms (s : State) (i : Instr) : Bool :=
  match s.held with
  | some d => performs (0x48#7, d) i
  | none =>
    match s.program with
    | [] => false
    | l :: _ => l.transaction.any fun x => performs x i

/-- The program to be run from `s` issues FINAL (R271). -/
def State.issuesFinal (s : State) : Bool := s.pendingTransactions.any fun x => performs x .final

/-- What R271 asks of the state in which a run ends, of a program that issued FINAL or did not: the
program is exhausted (no write of it still held), PHASE is IDLE and, if it issued FINAL, DVALID is 1. -/
abbrev State.RunEnded (s : State) (issuedFinal : Bool) : Prop :=
  s.program = [] ∧ s.held = none ∧ s.phase = phaseIdle ∧ (issuedFinal = true → s.dvalid = true)

/-- The hash run of the program that stands in `s` ends after `k` steps, in `t`: the FIRST state in which
all that R271 asks holds. The run's result is `t`, with the values read in `t.reads`. -/
def RunEndsAt (s : State) (k : Nat) (t : State) : Prop :=
  Sys2Proof.core.run k s = .next t ∧ t.RunEnded s.issuesFinal ∧
  ∀ j u, j < k → Sys2Proof.core.run j s = .next u → ¬ u.RunEnded s.issuesFinal

/-- Bus transactions `(A, D)` in program order (R70, R90). -/
abbrev Transactions := List (BitVec 7 × Word)

/-- What may stand between a session's INIT and its FINAL: any transaction but another INIT or FINAL. -/
def Transactions.inSession (ts : Transactions) : Bool :=
  ts.all fun x =>
    (decodeBus x.1 x.2).performed != .init && (decodeBus x.1 x.2).performed != .final

/-- The bytes the transactions' ABSORBs take, in order, with `data` in DATA before them (R82, R266). -/
def Transactions.absorbed : Word → Transactions → List Byte
  | _, [] => []
  | data, x :: rest =>
    match decodeBus x.1 x.2 with
    | .wrData d => Transactions.absorbed d rest
    | .wrCmd d =>
      match decodeCommand d with
      | .absorb n => absorbBytes n data ++ Transactions.absorbed data rest
      | _ => Transactions.absorbed data rest
    | _ => Transactions.absorbed data rest

/-- The host program of a session: `init`, the transactions, `final` (R263). -/
def Transactions.session (ts : Transactions) : List HostLine :=
  Asm.init ++ ts.map (fun x => .bus x.1 x.2) ++ Asm.final

/-- How many of the next `k` steps are the engine's: those that change PHASE while it is not IDLE. No
transaction does (R190), and every SCHEDULE, ROUND and ADD step does (R36). -/
def engineSteps : Nat → State → Nat
  | 0, _ => 0
  | k + 1, s =>
    match step s with
    | .next t => (if s.busy && t.phase != s.phase then 1 else 0) + engineSteps k t
    | .fault _ => 0
    | .refused _ => 0

/-- How many engine steps are left until PHASE is IDLE (R36, R269): 66 from SCHEDULE, 64 - t rounds and
the ADD from ROUND(t), 1 from ADD, and 66 more where a length block follows. -/
def State.engineStepsLeft (s : State) : Nat :=
  if s.phase = 0x00#7 then 0
  else
    (if s.phase = 0x01#7 then 66 else if s.phase = 0x02#7 then 1 else 129 - s.phase.toNat) +
      if s.pendLen then 66 else 0

end Sys2Proof.Machine
end

