-- ==== Sys2Proof/Certificates/Slice0/Obligations.lean ====
section
/-! DEFINITION. The statements for the provers, in the order of OBLIGATIONS.json: encodings, how a step
chooses its instruction, reads, writes, commands, engine steps, reset, the rules about the whole
machine, and the algorithm. -/

open Sys2Proof Sys2Proof.Machine

/-! ### Encodings (spec/30_encoding.md) -/

/-- No operand bit is lost: every well-formed instruction is read back from its encoding. -/
def Obligations.EncodeThenDecodeIsIdentity : Prop :=
  ∀ i : Instr, i.wellFormed = true → decode (encode i) = i

/-- Every code word is the encoding of what it decodes to; a read's D counts as 0 (R70: a read has
no D). -/
def Obligations.DecodeThenEncodeIsIdentity : Prop :=
  (∀ (a : BitVec 7) (d : Word), a.getLsbD 6 = true ∨ d = 0#32 →
    encode (decode (.bus a d)) = .bus a d ∧ (decode (.bus a d)).wellFormed = true) ∧
  (∀ w : Word, encode (decode (.cmd w)) = .cmd w ∧ (decode (.cmd w)).wellFormed = true) ∧
  (∀ p : BitVec 7, encode (decode (.phase p)) = .phase p ∧ (decode (.phase p)).wellFormed = true)

/-- R71: exactly one row of the table takes a descriptor, and the decoder gives that row. -/
def Obligations.EveryDescriptorSelectsExactlyOneRow : Prop :=
  ∀ (a : BitVec 7) (d : Word),
    (busTable.filter fun r => r.takes a).map Row.mnemonic = [(decodeBus a d).mnemonic]

/-- R83: a word is NOP, INIT, ABSORB or FINAL when it matches that row exactly, and CMD_ILLEGAL
otherwise. -/
def Obligations.CommandWordsDecodeExactly : Prop :=
  ∀ w : Word,
    (decodeCmd w = .nop ↔ w = 0x00000000#32) ∧
    (decodeCmd w = .init ↔ w = 0x10000000#32) ∧
    (∀ n : BitVec 2, decodeCmd w = .absorb n ↔ w = 0x20000000#32 + n.setWidth 32) ∧
    (decodeCmd w = .final ↔ w = 0x30000000#32) ∧
    ((w ≠ 0x00000000#32 ∧ w ≠ 0x10000000#32 ∧ w ≠ 0x30000000#32 ∧
      ∀ n : BitVec 2, w ≠ 0x20000000#32 + n.setWidth 32) → decodeCmd w = .cmdIllegal w)

/-- R85 and R86: each PHASE code selects one row; ROUND's operand is PHASE[5:0]; the codes 0x03 to
0x3F, and no others, are ENG_UNREACHABLE. -/
def Obligations.EveryPhaseCodeSelectsExactlyOneRow : Prop :=
  ∀ p : BitVec 7,
    (phaseTable.filter fun r => r.takes p).map Row.mnemonic = [(decodePhase p).mnemonic] ∧
    (∀ t : BitVec 6, p = 0x40#7 ||| t.setWidth 7 → decodePhase p = .engRound t) ∧
    ((decodePhase p).mnemonic = "ENG_UNREACHABLE" ↔ 3 ≤ p.toNat ∧ p.toNat ≤ 0x3F)

/-- A few words written out from the tables of R71, R81 and R85. -/
def Obligations.SampleWordsDecodeAsTheTablesSay : Prop :=
  decode (.bus 0b0000100#7 0#32) = .rdStatus ∧
  decode (.bus 0b0111100#7 0#32) = .rdDigest 7#3 ∧
  decode (.bus 0b0000101#7 0#32) = .rdMisalignedOdd 2#5 ∧
  decode (.bus 0b1001100#7 0x61626300#32) = .wrData 0x61626300#32 ∧
  decode (.bus 0b1010100#7 1#32) = .wrLen 1#1 1#32 ∧
  decode (.cmd 0x20000003#32) = .absorb 3#2 ∧
  decode (.cmd 0x20000004#32) = .cmdIllegal 0x20000004#32 ∧
  decode (.phase 0x55#7) = .engRound 21#6 ∧
  decode (.phase 0x3F#7) = .engUnreachable20 31#5

/-! ### Which instruction a step runs (spec/00_scope.md R14, R16; spec/45_host_interface.md R190) -/

/-- The host's step is the instruction its next transaction decodes to, with the line taken off the
program: when the plan gives the host the turn, and, with PHASE IDLE, whatever turn the plan gives
that is not a reset. -/
def Obligations.HostStepRunsDecodedTransaction : Prop :=
  ∀ (s : State) (a : BitVec 7) (d : Word) (rest : List HostLine), s.held = none →
    s.program = .bus a d :: rest →
    (∀ ps, s.plan = .host :: ps →
      step s = exec (decodeBus a d) { s with program := rest, plan := ps }) ∧
    (∀ ps, s.phase = 0x00#7 → s.plan = .engine :: ps →
      step s = exec (decodeBus a d) { s with program := rest, plan := ps }) ∧
    (s.phase = 0x00#7 → s.plan = [] → step s = exec (decodeBus a d) { s with program := rest })

/-- A raw word placed where the next step fetches is the instruction that step runs, in the state as
it stood (with no CMD write held). -/
def Obligations.NextStepRunsPlacedWord : Prop :=
  ∀ (s : State) (nbits w : Nat) (i : Instr), decodeTableWord nbits w = some i →
    step (s.withFetchWord nbits w) = exec i { s with held := none }

/-- The engine's step is the instruction PHASE decodes to: when the plan gives the engine the turn
and PHASE is not IDLE, and, when the host cannot move, whatever turn the plan gives that is not a
reset. -/
def Obligations.EngineStepRunsPhaseInstruction : Prop :=
  ∀ s : State, s.phase ≠ 0x00#7 →
    (∀ ps, s.plan = .engine :: ps →
      step s = exec (decodePhase s.phase) { s with plan := ps }) ∧
    (∀ ps, s.program = [] ∨ s.held ≠ none → s.plan = .host :: ps →
      step s = exec (decodePhase s.phase) { s with plan := ps }) ∧
    (s.program = [] ∧ s.held = none ∨ s.held ≠ none → s.plan = [] →
      step s = exec (decodePhase s.phase) s)

/-- R16: where the plan names no agent and both may move, the step is the host's or the engine's. -/
def Obligations.EitherEnabledAgentMayTakeTheStep : Prop :=
  ∀ (s : State) (a : BitVec 7) (d : Word) (rest : List HostLine), s.held = none →
    s.program = .bus a d :: rest → s.phase ≠ 0x00#7 → s.plan = [] →
    step s = exec (decodeBus a d) { s with program := rest, draws := s.draws + 1 } ∨
    step s = exec (decodePhase s.phase) { s with draws := s.draws + 1 }

/-- R14, R201: a held CMD write waits for PHASE = IDLE (only the engine moves until then) and is
performed in the next step once PHASE is IDLE, whichever agent the plan names and where it names none. -/
def Obligations.HeldWriteCompletesOnlyWhenIdle : Prop :=
  ∀ (s : State) (d : Word), s.held = some d →
    (s.plan = [] →
      (s.phase ≠ 0x00#7 → step s = exec (decodePhase s.phase) s) ∧
      (s.phase = 0x00#7 → step s = exec (.wrCmd d) s)) ∧
    ∀ ps, s.plan = .host :: ps ∨ s.plan = .engine :: ps →
      (s.phase ≠ 0x00#7 → step s = exec (decodePhase s.phase) { s with plan := ps }) ∧
      (s.phase = 0x00#7 → step s = exec (.wrCmd d) { s with plan := ps })

/-- R255: in IDLE with nothing for the host to do, every item of the state keeps its value; and
ENG_IDLE itself changes nothing. -/
def Obligations.IdleKeepsEveryItem : Prop :=
  (∀ s : State, exec .engIdle s = .next s) ∧
  ∀ s : State, s.phase = 0x00#7 → s.program = [] → s.held = none → s.plan = [] →
    step s = .next s

/-- R88: a `poll` reads its offset; the line is done when `(value & mask) = value wanted` and stays
next otherwise. Nothing but the value read and the program position changes. -/
def Obligations.PollReadsUntilTheMaskedValueMatches : Prop :=
  ∀ (s : State) (off : BitVec 6) (mask value : Word) (rest : List HostLine) (ps : List Turn),
    s.held = none → s.program = .poll off mask value :: rest → s.plan = .host :: ps →
    ∃ x : Word,
      exec (decodeBus (0#1 ++ off) 0#32) s = .next { s with reads := x :: s.reads } ∧
      step s = .next { s with
        reads := x :: s.reads, plan := ps,
        program := if x &&& mask = value then rest else s.program }

/-- R51, R12: BASE is a multiple of 64; a 32-bit access of the host to a byte address in the window
is the transaction at `off = addr - BASE`; an access outside it does not reach the engine. That an access
of several bytes is outside when its first byte is, is the model's choice (assumption log 19). -/
def Obligations.WindowAccessReachesItsOffset : Prop :=
  (∃ k, Config.base = 64 * k) ∧
  ∀ (s : State) (addr : Nat) (x : Word),
    (Config.base ≤ addr → addr < Config.base + 64 →
      (HostLine.mem ⟨0, addr, 32, false, x⟩).run s =
        exec (decodeBus (0#1 ++ BitVec.ofNat 6 (addr - Config.base)) 0#32) s ∧
      (HostLine.mem ⟨0, addr, 32, true, x⟩).run s =
        exec (decodeBus (1#1 ++ BitVec.ofNat 6 (addr - Config.base)) x) s) ∧
    (addr < Config.base ∨ Config.base + 64 ≤ addr → ∀ (m w : Nat) (b : Bool),
      (HostLine.mem ⟨m, addr, w, b, x⟩).run s = .next s)

/-- R53, R253: an access to the window of another width, or by a second bus master, is refused by
name; the access is one to the window when its first byte is in it (assumption log 19). -/
def Obligations.OtherWidthsAndSecondHostAreRefused : Prop :=
  ∀ (s : State) (addr m w : Nat) (b : Bool) (x : Word),
    Config.base ≤ addr → addr < Config.base + 64 →
    (m ≠ 0 → (HostLine.mem ⟨m, addr, w, b, x⟩).run s = .refused (.secondHost m)) ∧
    (w ≠ 32 → (HostLine.mem ⟨0, addr, w, b, x⟩).run s = .refused (.accessWidth w))

/-! ### Reads (spec/45_host_interface.md R191 to R199) -/

/-- R191, R193, R197, R199: the reads of a constant, by their encodings, in every state, with nothing
else changed. -/
def Obligations.ConstantReadsReturnTheirConstant : Prop :=
  (∀ d : Word, decodeBus 0x00#7 d = .rdId ∧ decodeBus 0x08#7 d = .rdCmd ∧
    decodeBus 0x18#7 d = .rdRsvd 0#1 ∧ decodeBus 0x1C#7 d = .rdRsvd 1#1 ∧
    ∀ a : BitVec 7, a.getLsbD 6 = false →
      (a.getLsbD 0 = true → decodeBus a d = .rdMisalignedOdd (a.extractLsb' 1 5)) ∧
      (a.getLsbD 0 = false → a.getLsbD 1 = true →
        decodeBus a d = .rdMisalignedHalf (a.extractLsb' 2 4))) ∧
  ∀ s : State,
    exec .rdId s = .next { s with reads := 0x53323536#32 :: s.reads } ∧
    exec .rdCmd s = .next { s with reads := 0x00000000#32 :: s.reads } ∧
    (∀ sel, exec (.rdRsvd sel) s = .next { s with reads := 0x00000000#32 :: s.reads }) ∧
    (∀ hi, exec (.rdMisalignedOdd hi) s = .next { s with reads := 0x00000000#32 :: s.reads }) ∧
    (∀ reg, exec (.rdMisalignedHalf reg) s = .next { s with reads := 0x00000000#32 :: s.reads })

/-- R194, R195, R196: the reads of DATA and of the two halves of L, by their encodings, with nothing
else changed; the halves together are L, and bits 31 to 29 of the high one are 0 while L is within its
bound. -/
def Obligations.DataAndLengthReadsReturnTheRegister : Prop :=
  (∀ d : Word, decodeBus 0x0C#7 d = .rdData ∧ decodeBus 0x10#7 d = .rdLenLo ∧
    decodeBus 0x14#7 d = .rdLenHi) ∧
  ∀ s : State,
    exec .rdData s = .next { s with reads := s.data :: s.reads } ∧
    ∃ lo hi : Word, hi.toNat * 2 ^ 32 + lo.toNat = s.len.toNat ∧
      (s.len.toNat ≤ 2 ^ 61 - 1 → hi.extractLsb' 29 3 = 0#3) ∧
      exec .rdLenLo s = .next { s with reads := lo :: s.reads } ∧
      exec .rdLenHi s = .next { s with reads := hi :: s.reads }

/-- R192, R40: RD_STATUS returns the word with BUSY, DVALID, MODE, the four error flags and BUFCNT in
their places and every reserved bit 0, and changes nothing else. -/
def Obligations.StatusReadReturnsEveryField : Prop :=
  (∀ d : Word, decodeBus 0x04#7 d = .rdStatus) ∧
  ∀ s : State, ∃ x : Word,
    exec .rdStatus s = .next { s with reads := x :: s.reads } ∧
    (x.getLsbD 0 = true ↔ s.phase ≠ 0x00#7) ∧
    (x.getLsbD 1 = true ↔ s.mode = .finalized ∧ s.phase = 0x00#7) ∧
    (s.mode = .uninit → x.extractLsb' 2 2 = 0#2) ∧
    (s.mode = .accepting → x.extractLsb' 2 2 = 1#2) ∧
    (s.mode = .finalized → x.extractLsb' 2 2 = 2#2) ∧
    (s.mode = .failed → x.extractLsb' 2 2 = 3#2) ∧
    x.extractLsb' 4 4 = 0#4 ∧
    x.getLsbD 8 = s.errCmd ∧ x.getLsbD 9 = s.errSeq ∧ x.getLsbD 10 = s.errLen ∧
    x.getLsbD 11 = s.errBus ∧
    x.extractLsb' 12 4 = 0#4 ∧
    x.extractLsb' 16 6 = s.bufCnt ∧
    x.extractLsb' 22 10 = 0#10

/-- R198: DIGESTi reads H[i] when MODE is FINALIZED and PHASE is IDLE, and 0 otherwise; nothing else
changes. Its descriptor is 0x20 + 4i. -/
def Obligations.DigestReadIsGatedByDvalid : Prop :=
  ∀ (s : State) (i : BitVec 3),
    (∀ d : Word, decodeBus (0x20#7 + 4#7 * i.setWidth 7) d = .rdDigest i) ∧
    (s.mode = .finalized → s.phase = 0x00#7 →
      exec (.rdDigest i) s = .next { s with reads := s.h[i.toNat]'i.isLt :: s.reads }) ∧
    (s.mode ≠ .finalized ∨ s.phase ≠ 0x00#7 →
      exec (.rdDigest i) s = .next { s with reads := 0x00000000#32 :: s.reads })

/-- R174, R173: with DVALID = 1 the eight words RD_DIGEST returns, each read most significant byte
first, are SER(H). -/
def Obligations.DigestRegistersSerializeToTheDigest : Prop :=
  ∀ s : State, s.mode = .finalized → s.phase = 0x00#7 →
    ∃ d : BitVec 3 → Word,
      (∀ i, exec (.rdDigest i) s = .next { s with reads := d i :: s.reads }) ∧
      ∀ (i : BitVec 3) (j : Fin 4),
        (ser s.h)[4 * i.toNat + j.val]? = some ((d i).extractLsb' (24 - 8 * j.val) 8)

/-! ### Writes (R200 to R202) -/

/-- R200: WR_DATA stores the whole word, whatever PHASE is, and changes nothing else. -/
def Obligations.DataWriteStoresTheWord : Prop :=
  ∀ (s : State) (d : Word), decodeBus 0x4C#7 d = .wrData d ∧
    exec (.wrData d) s = .next { s with data := d }

/-- R202: a write to a read-only, reserved or misaligned offset, which is every write but those of CMD
and DATA, sets ERR_BUS and changes nothing else, whatever PHASE is. -/
def Obligations.BadWritesOnlySetErrBus : Prop :=
  ∀ (s : State) (d : Word),
    (∀ a : BitVec 7, a.getLsbD 6 = true → a ≠ 0x48#7 → a ≠ 0x4C#7 →
      exec (decodeBus a d) s = .next { s with errBus := true }) ∧
    exec (.wrId d) s = .next { s with errBus := true } ∧
    exec (.wrStatus d) s = .next { s with errBus := true } ∧
    (∀ sel, exec (.wrLen sel d) s = .next { s with errBus := true }) ∧
    (∀ sel, exec (.wrRsvd sel d) s = .next { s with errBus := true }) ∧
    (∀ i, exec (.wrDigest i d) s = .next { s with errBus := true }) ∧
    (∀ hi, exec (.wrMisalignedOdd hi d) s = .next { s with errBus := true }) ∧
    (∀ reg, exec (.wrMisalignedHalf reg d) s = .next { s with errBus := true })

/-- R201: while PHASE is not IDLE a CMD write, and the command it would deliver, have no effect: the
word is held and nothing else changes. -/
def Obligations.CommandIsHeldWhileBusy : Prop :=
  ∀ (s : State) (d : Word), s.phase ≠ 0x00#7 →
    exec (.wrCmd d) s = .next { s with held := some d } ∧
    exec (decodeCmd d) s = .next { s with held := some d }

/-- R201: with PHASE IDLE a CMD write completes, whatever its word, and does what the command its word
decodes to does; the write is no longer held. -/
def Obligations.CommandWritePerformsItsCommandWhenIdle : Prop :=
  ∀ (s : State) (d : Word), s.phase = 0x00#7 →
    ∃ t : State, exec (.wrCmd d) s = .next t ∧ exec (decodeCmd d) s = .next t ∧ t.held = none

/-! ### Commands, accepted with PHASE = IDLE (R203 to R207) -/

/-- R203: NOP, word 0x00000000, changes nothing of the engine, in every MODE. -/
def Obligations.NopChangesNothing : Prop :=
  decodeCmd 0x00000000#32 = .nop ∧
  ∀ s : State, s.phase = 0x00#7 → exec .nop s = .next { s with held := none }

/-- R204, with the values of R110: INIT, word 0x10000000, in every MODE. V, W, BUF, BITLEN, DATA and
PHASE keep their values. -/
def Obligations.InitStartsASession : Prop :=
  decodeCmd 0x10000000#32 = .init ∧
  ∀ s : State, s.phase = 0x00#7 → exec .init s = .next { s with
    h := #v[0x6A09E667#32, 0xBB67AE85#32, 0x3C6EF372#32, 0xA54FF53A#32,
            0x510E527F#32, 0x9B05688C#32, 0x1F83D9AB#32, 0x5BE0CD19#32]
    len := 0#64
    bufCnt := 0#6
    pendLen := false
    errCmd := false
    errSeq := false
    errLen := false
    errBus := false
    mode := .accepting
    held := none }

/-- R205, R243: ABSORB outside ACCEPTING accepts no byte and sets ERR_SEQ; in ACCEPTING, one that would
bring L above 2^61 - 1 accepts no byte, sets ERR_LEN and makes MODE FAILED. -/
def Obligations.AbsorbRefusals : Prop :=
  ∀ (s : State) (n : BitVec 2), s.phase = 0x00#7 →
    (s.mode ≠ .accepting →
      exec (.absorb n) s = .next { s with errSeq := true, held := none }) ∧
    (s.mode = .accepting → s.len.toNat + (n.toNat + 1) > 2 ^ 61 - 1 →
      exec (.absorb n) s = .next { s with errLen := true, mode := .failed, held := none })

/-- R205, R123: an accepted ABSORB that does not fill the buffer appends the top n bytes of DATA, in
order, at BUF[BUFCNT] and counts them in BUFCNT and L. Nothing else changes. -/
def Obligations.AbsorbAppendsItsBytes : Prop :=
  ∀ (s : State) (n : BitVec 2), s.phase = 0x00#7 → s.mode = .accepting →
    s.len.toNat + (n.toNat + 1) ≤ 2 ^ 61 - 1 → s.bufCnt.toNat + (n.toNat + 1) < 64 →
    ∃ t : State, exec (.absorb n) s = .next t ∧
      t.len.toNat = s.len.toNat + (n.toNat + 1) ∧
      t.bufCnt.toNat = s.bufCnt.toNat + (n.toNat + 1) ∧
      (∀ j : Fin 64, t.buf[j] =
        if s.bufCnt.toNat ≤ j.val ∧ j.val < s.bufCnt.toNat + (n.toNat + 1)
        then s.dataByte (j.val - s.bufCnt.toNat) else s.buf[j]) ∧
      t.held = none ∧
      { t with len := s.len, bufCnt := s.bufCnt, buf := s.buf, held := s.held } = s

/-- R205, R123, R124: an accepted ABSORB that fills the buffer loads the filled block into W[0..15] and
starts the sequencer; the bytes left over go to the front of BUF. Nothing else changes. -/
def Obligations.AbsorbThatFillsTheBufferLoadsTheBlock : Prop :=
  ∀ (s : State) (n : BitVec 2), s.phase = 0x00#7 → s.mode = .accepting →
    s.len.toNat + (n.toNat + 1) ≤ 2 ^ 61 - 1 → 64 ≤ s.bufCnt.toNat + (n.toNat + 1) →
    ∃ t : State, exec (.absorb n) s = .next t ∧
      t.len.toNat = s.len.toNat + (n.toNat + 1) ∧
      t.bufCnt.toNat = s.bufCnt.toNat + (n.toNat + 1) - 64 ∧
      (∀ j : Fin 64, t.buf[j] =
        if s.bufCnt.toNat ≤ j.val then s.dataByte (j.val - s.bufCnt.toNat)
        else if j.val < s.bufCnt.toNat + (n.toNat + 1) - 64
        then s.dataByte (64 - s.bufCnt.toNat + j.val) else s.buf[j]) ∧
      (∀ k : Fin 64, t.w[k] = if k.val < 16 then s.filledWord k.val else s.w[k]) ∧
      t.phase = 0x01#7 ∧ t.held = none ∧
      { t with len := s.len, bufCnt := s.bufCnt, buf := s.buf, w := s.w, phase := s.phase,
               held := s.held } = s

/-- R206, R125: FINAL, word 0x30000000, in ACCEPTING latches BITLEN = 8 * L, sets PEND_LEN exactly when
56 or more bytes are buffered, empties the buffer count, loads the padded block, starts the sequencer
and makes MODE FINALIZED; outside ACCEPTING it only sets ERR_SEQ. Nothing else changes. -/
def Obligations.FinalPadsTheTail : Prop :=
  decodeCmd 0x30000000#32 = .final ∧
  ∀ s : State, s.phase = 0x00#7 →
    (s.mode ≠ .accepting → exec .final s = .next { s with errSeq := true, held := none }) ∧
    (s.mode = .accepting → ∃ t : State, exec .final s = .next t ∧
      t.bitLen = 8#64 * s.len ∧
      (t.pendLen = true ↔ 56 ≤ s.bufCnt.toNat) ∧
      t.bufCnt = 0#6 ∧
      (∀ k : Fin 64, t.w[k] = if k.val < 16 then s.paddedWord k.val else s.w[k]) ∧
      t.phase = 0x01#7 ∧ t.mode = .finalized ∧ t.held = none ∧
      { t with bitLen := s.bitLen, pendLen := s.pendLen, bufCnt := s.bufCnt, w := s.w,
               phase := s.phase, mode := s.mode, held := s.held } = s)

/-- R207: a word that is none of NOP, INIT, ABSORB and FINAL sets ERR_CMD and changes nothing else, in
every MODE. -/
def Obligations.IllegalCommandOnlySetsErrCmd : Prop :=
  ∀ (s : State) (w : Word), s.phase = 0x00#7 →
    ((w ≠ 0x00000000#32 ∧ w ≠ 0x10000000#32 ∧ w ≠ 0x30000000#32 ∧
      ∀ n : BitVec 2, w ≠ 0x20000000#32 + n.setWidth 32) → decodeCmd w = .cmdIllegal w) ∧
    exec (.cmdIllegal w) s = .next { s with errCmd := true, held := none }

/-! ### Engine steps (R141, R153, R171, R86) -/

/-- R141: the SCHEDULE step, PHASE 0x01, extends W by the recurrence, seeds V from H and goes to
ROUND(0). Nothing else changes. -/
def Obligations.ScheduleStepExtendsWAndSeedsV : Prop :=
  decodePhase 0x01#7 = .engSchedule ∧
  ∀ s : State, ∃ t : State, exec .engSchedule s = .next t ∧
    (∀ k, k < 16 → wordAt t.w k = wordAt s.w k) ∧
    (∀ k, 16 ≤ k → k < 64 → wordAt t.w k =
      smallSigma1 (wordAt t.w (k - 2)) + wordAt t.w (k - 7) +
        smallSigma0 (wordAt t.w (k - 15)) + wordAt t.w (k - 16)) ∧
    t.v = s.h ∧ t.phase = 0x40#7 ∧
    { t with w := s.w, v := s.v, phase := s.phase } = s

/-- R153, R150, R151: the ROUND(t) step, PHASE 0x40 | t, with a = V[0] to h = V[7]. Nothing else
changes. -/
def Obligations.RoundStepUpdatesTheWorkingVariables : Prop :=
  (∀ t : BitVec 6, decodePhase (0x40#7 ||| t.setWidth 7) = .engRound t) ∧
  ∀ (s : State) (t : BitVec 6) (a b c d e f g h : Word), s.v = #v[a, b, c, d, e, f, g, h] →
    let T1 := h + bigSigma1 e + ch e f g + kTable.getD t.toNat 0#32 + s.w[t.toNat]'t.isLt
    let T2 := bigSigma0 a + maj a b c
    exec (.engRound t) s = .next { s with
      v := #v[T1 + T2, a, b, c, d + T1, e, f, g]
      phase := if t.toNat < 63 then 0x40#7 ||| (t + 1#6).setWidth 7 else 0x02#7 }

/-- R171, R170, R126: the ADD step, PHASE 0x02, adds V into H word by word; with PEND_LEN = 0 it ends in IDLE, with
PEND_LEN = 1 it loads the length block and goes to SCHEDULE. Nothing else changes. -/
def Obligations.AddStepFeedsForward : Prop :=
  decodePhase 0x02#7 = .engAdd ∧
  ∀ s : State, ∃ t : State, exec .engAdd s = .next t ∧
    (∀ i : Fin 8, t.h[i] = s.h[i] + s.v[i]) ∧
    (s.pendLen = false → t.phase = 0x00#7 ∧ { t with h := s.h, phase := s.phase } = s) ∧
    (s.pendLen = true → t.phase = 0x01#7 ∧ t.pendLen = false ∧
      (∀ k : Fin 64, t.w[k] =
        if k.val < 14 then 0#32 else if k.val = 14 then s.bitLen.extractLsb' 32 32
        else if k.val = 15 then s.bitLen.extractLsb' 0 32 else s.w[k]) ∧
      { t with h := s.h, phase := s.phase, pendLen := s.pendLen, w := s.w } = s)

/-- R86: the engine's step on a PHASE code 0x03 to 0x3F is the fault "unreachable sequencer state", and
no step leads from another code to one of them. -/
def Obligations.UnreachablePhaseCodesFault : Prop :=
  ∀ s : State,
    exec .engUnreachable03 s = .fault .unreachableSequencerState ∧
    (∀ lo, exec (.engUnreachable04 lo) s = .fault .unreachableSequencerState) ∧
    (∀ lo, exec (.engUnreachable08 lo) s = .fault .unreachableSequencerState) ∧
    (∀ lo, exec (.engUnreachable10 lo) s = .fault .unreachableSequencerState) ∧
    (∀ lo, exec (.engUnreachable20 lo) s = .fault .unreachableSequencerState) ∧
    (∀ p : BitVec 7, 3 ≤ p.toNat → p.toNat ≤ 0x3F →
      exec (decodePhase p) s = .fault .unreachableSequencerState) ∧
    ∀ t : State, s.PhaseLegal → step s = .next t → t.PhaseLegal

/-! ### Reset (R48, R260) -/

/-- R48, R260: the values reset gives the specified items, in the reset state and after the platform's
reset from any state, where a held CMD write is abandoned too. -/
def Obligations.ResetGivesTheSpecifiedItems : Prop :=
  let specified (t : State) : Prop :=
    t.phase = 0x00#7 ∧ t.mode = .uninit ∧ t.bufCnt = 0#6 ∧ t.len = 0#64 ∧ t.pendLen = false ∧
    t.data = 0#32 ∧ t.errCmd = false ∧ t.errSeq = false ∧ t.errLen = false ∧ t.errBus = false ∧
    t.held = none
  specified State.reset ∧
  ∀ (s : State) (ps : List Turn), s.plan = .reset :: ps →
    ∃ t : State, step s = .next t ∧ specified t ∧
      t.program = s.program ∧ t.reads = s.reads ∧ t.plan = ps

/-- The reset state meets the invariants of R37. -/
def Obligations.ResetStateMeetsTheInvariants : Prop := State.reset.Inv

/-- R48: no host-visible result depends on what reset leaves in H, V, W, BUF and BITLEN. Two states with
no session since reset that differ in those five items alone give the host the same values, step for
step, whatever its program and whatever the interleaving. -/
def Obligations.UnspecifiedResetItemsAreUnobservable : Prop :=
  ∀ (k : Nat) (s t s' : State), s.mode = .uninit → s.phase = 0x00#7 →
    { t with h := s.h, v := s.v, w := s.w, buf := s.buf, bitLen := s.bitLen } = s →
    Sys2Proof.core.run k s = .next s' →
    ∃ t' : State, Sys2Proof.core.run k t = .next t' ∧ t'.reads = s'.reads

/-! ### Rules about the whole machine -/

/-- R37: every step keeps the invariants. -/
def Obligations.EveryStepKeepsTheInvariants : Prop :=
  ∀ s t : State, s.Inv → step s = .next t → t.Inv

/-- R37: the invariants hold in every reachable state, whatever program the host runs, however the two
agents interleave, whenever the platform resets the engine and whatever reset leaves in the items R48
does not specify. -/
def Obligations.EveryReachableStateMeetsTheInvariants : Prop :=
  ∀ (program : List HostLine) (plan : List Turn) (draws k : Nat) (h v : Vector Word 8)
    (w : Vector Word 64) (buf : Vector Byte 64) (bitLen : BitVec 64) (s : State),
    Sys2Proof.core.run k
      { State.reset with program := program, plan := plan, draws := draws, h := h, v := v, w := w,
                         buf := buf, bitLen := bitLen } = .next s →
    s.Inv

/-- R86, R256: from a state that meets the invariants no step faults. -/
def Obligations.NoStepFaultsUnderTheInvariants : Prop :=
  ∀ (s : State) (f : Fault), s.Inv → step s ≠ .fault f

/-- R190, R57: while PHASE is not IDLE, no bus transaction changes anything but DATA, ERR_BUS, the
values read and the word held. -/
def Obligations.NoTransactionDisturbsABlockInProgress : Prop :=
  ∀ (s t : State) (a : BitVec 7) (d : Word), s.phase ≠ 0x00#7 →
    exec (decodeBus a d) s = .next t →
    { t with data := s.data, errBus := s.errBus, reads := s.reads, held := s.held } = s

/-- R21: only INIT and the ADD step write H. R22: only SCHEDULE and ROUND write V. R23: W is written by
SCHEDULE and by the block loads of ABSORB, FINAL and ADD. R31: only WR_DATA writes DATA. -/
def Obligations.OnlyTheNamedInstructionsWriteTheDatapath : Prop :=
  ∀ (i : Instr) (s t : State), exec i s = .next t →
    (t.h ≠ s.h → i.performed = .init ∨ i = .engAdd) ∧
    (t.v ≠ s.v → i = .engSchedule ∨ ∃ k, i = .engRound k) ∧
    (t.w ≠ s.w → i = .engSchedule ∨ i = .engAdd ∨ i.performed = .final ∨
      ∃ n, i.performed = .absorb n) ∧
    (t.data ≠ s.data → ∃ d, i = .wrData d)

/-- R26, R27, R28, R29, R30: the writers of BUF, BUFCNT, L, BITLEN and PEND_LEN. -/
def Obligations.OnlyTheNamedInstructionsWriteThePaddingUnit : Prop :=
  ∀ (i : Instr) (s t : State), exec i s = .next t →
    (t.buf ≠ s.buf → ∃ n, i.performed = .absorb n) ∧
    (t.bufCnt ≠ s.bufCnt → i.performed = .init ∨ i.performed = .final ∨
      ∃ n, i.performed = .absorb n) ∧
    (t.len ≠ s.len → i.performed = .init ∨ ∃ n, i.performed = .absorb n) ∧
    (t.bitLen ≠ s.bitLen → i.performed = .final) ∧
    (t.pendLen ≠ s.pendLen → i.performed = .init ∨ i.performed = .final ∨ i = .engAdd)

/-- R32: the transitions of MODE; nothing else changes it. -/
def Obligations.ModeChangesOnlyByItsTransitions : Prop :=
  ∀ (i : Instr) (s t : State), exec i s = .next t → t.mode ≠ s.mode →
    (i.performed = .init ∧ t.mode = .accepting) ∨
    (i.performed = .final ∧ s.mode = .accepting ∧ t.mode = .finalized) ∨
    (∃ n : BitVec 2, i.performed = .absorb n ∧ s.mode = .accepting ∧ t.mode = .failed ∧
      t.errLen = true ∧ s.len.toNat + (n.toNat + 1) > 2 ^ 61 - 1)

/-- R241, R242: which transactions set which flag; no read and no engine step sets one. -/
def Obligations.OnlyTheListedTransactionsSetFlags : Prop :=
  ∀ (i : Instr) (s t : State), exec i s = .next t →
    (s.errCmd = false → t.errCmd = true → ∃ w, i.performed = .cmdIllegal w) ∧
    (s.errSeq = false → t.errSeq = true →
      s.mode ≠ .accepting ∧ (i.performed = .final ∨ ∃ n, i.performed = .absorb n)) ∧
    (s.errLen = false → t.errLen = true →
      ∃ n : BitVec 2, i.performed = .absorb n ∧ s.mode = .accepting ∧
        s.len.toNat + (n.toNat + 1) > 2 ^ 61 - 1) ∧
    (s.errBus = false → t.errBus = true → i.isBusError = true)

/-- R33, R243, R247: a flag that is set stays set but for INIT, and one transaction sets at most one. -/
def Obligations.FlagsAreStickyAndSetOneAtATime : Prop :=
  ∀ (i : Instr) (s t : State), exec i s = .next t →
    (∀ e : ErrFlag, s.err e = true → t.err e = true ∨ i.performed = .init) ∧
    ∀ e e' : ErrFlag, s.err e = false → t.err e = true → s.err e' = false → t.err e' = true → e = e'

/-- R176: once DVALID is 1, a step leaves H, MODE and PHASE as they are, unless the host's next command is
INIT, held or at the head of its program, or the platform resets the engine. -/
def Obligations.DigestStaysReadable : Prop :=
  ∀ s t : State, s.dvalid = true → step s = .next t →
    (t.h = s.h ∧ t.mode = s.mode ∧ t.phase = s.phase ∧ t.dvalid = true) ∨
    (s.hostPerforms .init = true ∧ t.mode = .accepting ∧ t.h = iv ∧ t.len = 0#64) ∨
    (t.mode = .uninit ∧ ∃ rest, s.plan = .reset :: rest)

/-- R177, R248: in a failed session FINAL is refused with ERR_SEQ and no DIGEST register shows anything;
a step leaves MODE FAILED unless the host's next command is INIT, held or at the head of its program, or
the platform resets the engine. -/
def Obligations.FailedSessionShowsNoDigest : Prop :=
  ∀ s t : State, s.mode = .failed →
    (∀ i, exec (.rdDigest i) s = .next { s with reads := 0#32 :: s.reads }) ∧
    (s.phase = 0x00#7 → exec .final s = .next { s with errSeq := true, held := none }) ∧
    (step s = .next t →
      t.mode = .failed ∨
      (s.hostPerforms .init = true ∧ s.phase = 0x00#7 ∧ t.mode = .accepting ∧ t.len = 0#64) ∨
      (t.mode = .uninit ∧ ∃ rest, s.plan = .reset :: rest))

/-! ### The algorithm -/

/-- R269: from SCHEDULE the engine is back in IDLE after exactly 66 of its steps, or 132 with PEND_LEN =
1, and not before. -/
def Obligations.EngineReturnsToIdleAfter66Or132Steps : Prop :=
  ∀ s : State, s.phase = 0x01#7 →
    ∃ t : State, engineRun (if s.pendLen then 132 else 66) s = some t ∧ t.phase = 0x00#7 ∧
      ∀ k, k < (if s.pendLen then 132 else 66) →
        ∃ u : State, engineRun k s = some u ∧ u.phase ≠ 0x00#7

/-- R152: 66 engine steps on a loaded block compute COMPRESS of the chaining state and the block, and
change nothing else but V, W, PHASE and, where a length block follows, PEND_LEN. -/
def Obligations.BlockStepsComputeCompress : Prop :=
  ∀ (s : State) (blk : List Byte), s.phase = 0x01#7 → blk.length = 64 →
    (∀ k, k < 16 → wordAt s.w k = blockWord blk k) →
    ∃ t : State, engineRun 66 s = some t ∧ t.h = compress s.h blk ∧
      t.phase = (if s.pendLen then 0x01#7 else 0x00#7) ∧ t.pendLen = false ∧
      (s.pendLen = true → ∀ k, k < 16 →
        wordAt t.w k = blockWord (List.replicate 56 0#8 ++ be64 s.bitLen) k) ∧
      { t with h := s.h, v := s.v, w := s.w, phase := s.phase, pendLen := s.pendLen } = s

/-- R120, R122, R125 to R127: the block FINAL loads, followed by the length block where PEND_LEN is set,
are the blocks of PAD(M) after the ones already loaded, for every message M whose tail BUF holds. -/
def Obligations.FinalBlocksAgreeWithPad : Prop :=
  ∀ (s : State) (m : List Byte), m.length ≤ 2 ^ 61 - 1 → s.len.toNat = m.length →
    s.bufCnt.toNat = m.length % 64 →
    (∀ j, j < m.length % 64 → s.buf[j]? = m[64 * (m.length / 64) + j]?) →
    (blocks (pad m)).drop (m.length / 64) =
      s.tailBlock :: (if 56 ≤ s.bufCnt.toNat
        then [List.replicate 56 0#8 ++ be64 (8#64 * s.len)] else [])

/-- R175: a session INIT, any transactions but INIT and FINAL, FINAL, run from any state with the engine
idle, under any interleaving of the two agents that has no reset in it, ends (R271) with DVALID = 1 and
the DIGEST registers holding SHA256 of the bytes absorbed, and LEN their number. Reads, NOPs, bad writes
and illegal words in between change nothing of that. -/
def Obligations.SessionComputesSha256 : Prop :=
  ∀ (ts : Transactions) (s : State), ts.inSession = true → s.phase = 0x00#7 → s.held = none →
    s.program = ts.session → Turn.reset ∉ s.plan →
    (ts.absorbed s.data).length ≤ 2 ^ 61 - 1 →
    ∃ (k : Nat) (t : State), RunEndsAt s k t ∧ t.dvalid = true ∧
      ser (Vector.ofFn fun i : Fin 8 => t.digestWord (BitVec.ofNat 3 i.val)) =
        sha256 (ts.absorbed s.data) ∧
      t.len.toNat = (ts.absorbed s.data).length

/-- R175, R270: a session that has ended (R271) has taken 66 engine steps for each block of PAD(M). -/
def Obligations.SessionTakes66StepsPerBlock : Prop :=
  ∀ (ts : Transactions) (s t : State) (k : Nat), ts.inSession = true → s.phase = 0x00#7 →
    s.held = none → s.program = ts.session → Turn.reset ∉ s.plan →
    (ts.absorbed s.data).length ≤ 2 ^ 61 - 1 →
    RunEndsAt s k t →
    engineSteps k s = 66 * (((ts.absorbed s.data).length + 8) / 64 + 1)

/-- R103 to R106: σ0, σ1, Σ0 and Σ1 are linear over XOR. -/
def Obligations.SigmasAreLinearOverXor : Prop :=
  ∀ x y : Word,
    smallSigma0 (x ^^^ y) = smallSigma0 x ^^^ smallSigma0 y ∧
    smallSigma1 (x ^^^ y) = smallSigma1 x ^^^ smallSigma1 y ∧
    bigSigma0 (x ^^^ y) = bigSigma0 x ^^^ bigSigma0 y ∧
    bigSigma1 (x ^^^ y) = bigSigma1 x ^^^ bigSigma1 y

/-- R101, R107, R108: the rotation, choose and majority, bit by bit. -/
def Obligations.RotrChAndMajBitByBit : Prop :=
  ∀ (x y z : Word) (n i : Nat), 0 < n → n < 32 → i < 32 →
    (rotr x n).getLsbD i = x.getLsbD ((i + n) % 32) ∧
    (ch x y z).getLsbD i = (if x.getLsbD i = true then y.getLsbD i else z.getLsbD i) ∧
    ((maj x y z).getLsbD i = true ↔
      2 ≤ (x.getLsbD i).toNat + (y.getLsbD i).toNat + (z.getLsbD i).toNat)

/-! ### The host's lines, progress and the end of a run (R88, R51, R269, R271) -/

/-- The host's step is the run of its next line, whatever the line is (a transaction, a `poll`, an access
by platform address), with the line taken off: when the plan gives the host the turn, and, with PHASE
IDLE, whatever turn the plan gives that is not a reset. Where the plan names no agent and both may move,
the step is that run or the engine's. -/
def Obligations.HostStepRunsTheNextLine : Prop :=
  ∀ (s : State) (l : HostLine) (rest : List HostLine), s.held = none → s.program = l :: rest →
    (∀ ps, s.plan = .host :: ps → step s = l.run { s with program := rest, plan := ps }) ∧
    (∀ ps, s.phase = 0x00#7 → s.plan = .engine :: ps →
      step s = l.run { s with program := rest, plan := ps }) ∧
    (s.phase = 0x00#7 → s.plan = [] → step s = l.run { s with program := rest }) ∧
    (s.phase ≠ 0x00#7 → s.plan = [] →
      step s = l.run { s with program := rest, draws := s.draws + 1 } ∨
      step s = exec (decodePhase s.phase) { s with draws := s.draws + 1 })

/-- R269: from every legal PHASE that is not IDLE, whatever the host does meanwhile and however the two
agents interleave, the engine is back in IDLE after exactly the engine steps its PHASE leaves, 66 or 132
of them from SCHEDULE, and not before; a held write is still held then, so its hold lifts. Only an access
the model refuses (R53, R253) can stop the run before that, and a held host makes none. It rests on the
engine's weak fairness, in the model's form (assumption log 16). -/
def Obligations.BlockEndsWhateverTheHostDoes : Prop :=
  ∀ s : State, s.PhaseLegal → s.phase ≠ 0x00#7 → Turn.reset ∉ s.plan →
    ∃ k : Nat,
      (∀ j, j < k → ∃ u : State, Sys2Proof.core.run j s = .next u ∧ u.phase ≠ 0x00#7 ∧
        ∀ d, s.held = some d → u.held = some d) ∧
      ((s.held = none ∧ ∃ r, Sys2Proof.core.run k s = .refused r) ∨
        ∃ t : State, Sys2Proof.core.run k s = .next t ∧ t.phase = 0x00#7 ∧
          engineSteps k s = s.engineStepsLeft ∧
          (s.phase = 0x01#7 → engineSteps k s = if s.pendLen then 132 else 66) ∧
          ∀ d, s.held = some d → t.held = some d)

/-- R269, R88, R89: after FINAL, `wait.digest` ends, under the weak fairness of the engine (in the model's
form, assumption log 16), with DVALID = 1. -/
def Obligations.WaitForDigestEnds : Prop :=
  ∀ (s : State) (rest : List HostLine), s.PhaseLegal → s.mode = .finalized → s.held = none →
    s.program = Asm.waitDigest ++ rest → Turn.reset ∉ s.plan →
    ∃ (k : Nat) (t : State), Sys2Proof.core.run k s = .next t ∧ t.program = rest ∧ t.dvalid = true

/-- R271, R255, R16: nothing happens after the end of a run but a reset. From a state with what R271 asks,
and so from the state a run ends in, any number of further steps are made and leave every item as it is,
the values read among them, whatever turns the plan (the model's own, assumption log 1) gives but resets. -/
def Obligations.EndedRunChangesNoMore : Prop :=
  (∀ (s : State) (issuedFinal : Bool) (n : Nat), s.RunEnded issuedFinal → Turn.reset ∉ s.plan →
    Sys2Proof.core.run n s = .next { s with plan := s.plan.drop n }) ∧
  ∀ (s t : State) (k n : Nat), RunEndsAt s k t → Turn.reset ∉ t.plan →
    Sys2Proof.core.run (k + n) s = .next { t with plan := t.plan.drop n }
end

