-- ==== Sys2Proof/Laws/Decode.lean ====
section
/-! SUPPORT. Which format the decoders' answers belong to. -/

namespace Sys2Proof

/-- The rows of the BUS format (R71). -/
def Instr.isTransaction : Instr → Bool
  | .rdId | .rdStatus | .rdCmd | .rdData | .rdLenLo | .rdLenHi => true
  | .rdRsvd _ | .rdDigest _ | .rdMisalignedOdd _ | .rdMisalignedHalf _ => true
  | .wrId _ | .wrStatus _ | .wrCmd _ | .wrData _ => true
  | .wrLen _ _ | .wrRsvd _ _ | .wrDigest _ _ => true
  | .wrMisalignedOdd _ _ | .wrMisalignedHalf _ _ => true
  | .nop | .init | .absorb _ | .final | .cmdIllegal _ => false
  | .engIdle | .engSchedule | .engAdd | .engRound _ => false
  | .engUnreachable03 | .engUnreachable04 _ | .engUnreachable08 _ => false
  | .engUnreachable10 _ | .engUnreachable20 _ => false

/-- A descriptor decodes to a transaction (R71). -/
theorem isTransaction_decodeBus (a : BitVec 7) (d : Word) :
    (decodeBus a d).isTransaction = true := by
  simp only [decodeBus, apply_ite Instr.isTransaction]
  simp only [Instr.isTransaction, ite_self]

end Sys2Proof
end

