-- ==== Sys2Proof/Laws/Primitives.lean ====
section
/-! SUPPORT. What the shared functions of Machine/Primitives.lean and Machine/Reference.lean compute,
one spec lemma each. -/

namespace Sys2Proof.Machine

@[simp] theorem feedForward_getElem (h v : Vector Word 8) (i : Nat) (hi : i < 8) :
    (feedForward h v)[i] = h[i] + v[i] := by
  simp [feedForward]

theorem wordAt_eq_getElem (w : Vector Word 64) (t : Nat) (ht : t < 64) : wordAt w t = w[t] := by
  simp [wordAt, ht]

@[simp] theorem wordAt_setIfInBounds (w : Vector Word 64) (i j : Nat) (x : Word) :
    wordAt (w.setIfInBounds i x) j = if i = j ∧ i < 64 then x else wordAt w j := by
  simp only [wordAt, Vector.getElem?_setIfInBounds]
  by_cases hij : i = j
  · subst hij; by_cases hi : i < 64 <;> simp [hi]
  · simp [hij]

/-- A block load replaces words 0 to 15 and keeps the others (R124). -/
theorem wordAt_loadWords (blk : List Byte) (w : Vector Word 64) (t : Nat) :
    wordAt (loadWords blk w) t = if t < 16 then blockWord blk t else wordAt w t := by
  by_cases ht : t < 64
  · simp only [wordAt_eq_getElem _ _ ht, loadWords, Vector.getElem_ofFn]
    split <;> rfl
  · have h16 : ¬ t < 16 := by omega
    simp [wordAt, ht, h16]

/-- The schedule computed up to `n` words beyond the sixteenth. -/
theorem wordAt_scheduleFold (w : Vector Word 64) (n : Nat) (hn : n ≤ 48) :
    let w' := (List.range' 16 n).foldl (fun w t => w.setIfInBounds t (scheduleWord w t)) w
    (∀ t, t < 16 ∨ 16 + n ≤ t → wordAt w' t = wordAt w t) ∧
      ∀ t, 16 ≤ t → t < 16 + n → wordAt w' t = scheduleWord w' t := by
  induction n with
  | zero => exact ⟨fun _ _ => rfl, fun t h1 h2 => absurd h2 (by omega)⟩
  | succ n ih =>
    obtain ⟨keep, grow⟩ := ih (by omega)
    simp only [List.range'_1_concat, List.foldl_append, List.foldl_cons, List.foldl_nil]
    generalize (List.range' 16 n).foldl (fun w t => w.setIfInBounds t (scheduleWord w t)) w = w'
      at keep grow ⊢
    refine ⟨fun t ht => ?_, fun t h1 h2 => ?_⟩
    · rw [wordAt_setIfInBounds, if_neg (by omega), keep t (by omega)]
    · have below : ∀ u, u < 16 + n →
          wordAt (w'.setIfInBounds (16 + n) (scheduleWord w' (16 + n))) u = wordAt w' u := by
        intro u hu
        rw [wordAt_setIfInBounds, if_neg (by omega)]
      have same : scheduleWord (w'.setIfInBounds (16 + n) (scheduleWord w' (16 + n))) t =
          scheduleWord w' t := by
        rw [scheduleWord, below (t - 2) (by omega), below (t - 7) (by omega),
          below (t - 15) (by omega), below (t - 16) (by omega), scheduleWord]
      rw [same]
      by_cases ht : t = 16 + n
      · subst ht
        rw [wordAt_setIfInBounds, if_pos (by omega)]
      · rw [below t (by omega), grow t h1 (by omega)]

/-- SCHEDULE's recurrence keeps the loaded words. -/
theorem wordAt_extendSchedule_loaded (w : Vector Word 64) (t : Nat) (ht : t < 16) :
    wordAt (extendSchedule w) t = wordAt w t :=
  (wordAt_scheduleFold w 48 (by omega)).1 t (Or.inl ht)

/-- SCHEDULE's words meet the recurrence of R140. -/
theorem wordAt_extendSchedule_derived (w : Vector Word 64) (t : Nat) (h1 : 16 ≤ t) (h2 : t < 64) :
    wordAt (extendSchedule w) t = scheduleWord (extendSchedule w) t :=
  (wordAt_scheduleFold w 48 (by omega)).2 t h1 (by omega)

@[simp] theorem be64_length (x : BitVec 64) : (be64 x).length = 8 := rfl

@[simp] theorem wordBytes_length (x : Word) : (wordBytes x).length = 4 := rfl

/-- BE32 undoes `bytes(w)` (R111). -/
theorem be32_wordBytes (x : Word) :
    be32 (x.extractLsb' 24 8) (x.extractLsb' 16 8) (x.extractLsb' 8 8) (x.extractLsb' 0 8) = x := by
  apply BitVec.eq_of_getLsbD_eq
  intro i hi
  simp only [be32, BitVec.getLsbD_append, BitVec.getLsbD_extractLsb']
  by_cases h1 : i < 8
  · simp [h1]
  · by_cases h2 : i - 8 < 8
    · simp [h1, h2]; congr 1; omega
    · by_cases h3 : i - 8 - 8 < 8
      · simp [h1, h2, h3]; congr 1; omega
      · have h4 : i - 8 - 8 - 8 < 8 := by omega
        simp [h1, h2, h3, h4]; congr 1; omega

/-- The padded length is a multiple of 64 (R120). -/
theorem pad_length (m : List Byte) : (pad m).length = 64 * ((m.length + 8) / 64 + 1) := by
  simp only [pad, List.length_append, List.length_replicate, be64_length, List.length_cons,
    List.length_nil, padZeros]
  omega

@[simp] theorem growSchedule_length (n : Nat) (ws : List Word) :
    (growSchedule n ws).length = ws.length + n := by
  induction n generalizing ws with
  | zero => rfl
  | succ n ih => simp [growSchedule, ih]; omega

@[simp] theorem sched_length (blk : List Byte) : (sched blk).length = 64 := by
  simp [sched]

end Sys2Proof.Machine
end

