-- ==== Sys2Proof/Laws/State.lean ====
section
/-! SUPPORT. One lemma per field for each named update of the state: `answer`, `hold`, `release`,
`flag`, `clearErrors`, `loadBlock`. -/

namespace Sys2Proof.Machine

@[simp] theorem State.answer_h (s : State) (x : Word) : (s.answer x).h = s.h := rfl
@[simp] theorem State.answer_v (s : State) (x : Word) : (s.answer x).v = s.v := rfl
@[simp] theorem State.answer_w (s : State) (x : Word) : (s.answer x).w = s.w := rfl
@[simp] theorem State.answer_buf (s : State) (x : Word) : (s.answer x).buf = s.buf := rfl
@[simp] theorem State.answer_bufCnt (s : State) (x : Word) : (s.answer x).bufCnt = s.bufCnt := rfl
@[simp] theorem State.answer_len (s : State) (x : Word) : (s.answer x).len = s.len := rfl
@[simp] theorem State.answer_bitLen (s : State) (x : Word) : (s.answer x).bitLen = s.bitLen := rfl
@[simp] theorem State.answer_pendLen (s : State) (x : Word) : (s.answer x).pendLen = s.pendLen := rfl
@[simp] theorem State.answer_data (s : State) (x : Word) : (s.answer x).data = s.data := rfl
@[simp] theorem State.answer_mode (s : State) (x : Word) : (s.answer x).mode = s.mode := rfl
@[simp] theorem State.answer_errCmd (s : State) (x : Word) : (s.answer x).errCmd = s.errCmd := rfl
@[simp] theorem State.answer_errSeq (s : State) (x : Word) : (s.answer x).errSeq = s.errSeq := rfl
@[simp] theorem State.answer_errLen (s : State) (x : Word) : (s.answer x).errLen = s.errLen := rfl
@[simp] theorem State.answer_errBus (s : State) (x : Word) : (s.answer x).errBus = s.errBus := rfl
@[simp] theorem State.answer_phase (s : State) (x : Word) : (s.answer x).phase = s.phase := rfl
@[simp] theorem State.answer_held (s : State) (x : Word) : (s.answer x).held = s.held := rfl
@[simp] theorem State.answer_program (s : State) (x : Word) : (s.answer x).program = s.program := rfl
@[simp] theorem State.answer_reads (s : State) (x : Word) : (s.answer x).reads = x :: s.reads := rfl
@[simp] theorem State.answer_plan (s : State) (x : Word) : (s.answer x).plan = s.plan := rfl
@[simp] theorem State.answer_draws (s : State) (x : Word) : (s.answer x).draws = s.draws := rfl

@[simp] theorem State.hold_h (s : State) (d : Word) : (s.hold d).h = s.h := rfl
@[simp] theorem State.hold_v (s : State) (d : Word) : (s.hold d).v = s.v := rfl
@[simp] theorem State.hold_w (s : State) (d : Word) : (s.hold d).w = s.w := rfl
@[simp] theorem State.hold_buf (s : State) (d : Word) : (s.hold d).buf = s.buf := rfl
@[simp] theorem State.hold_bufCnt (s : State) (d : Word) : (s.hold d).bufCnt = s.bufCnt := rfl
@[simp] theorem State.hold_len (s : State) (d : Word) : (s.hold d).len = s.len := rfl
@[simp] theorem State.hold_bitLen (s : State) (d : Word) : (s.hold d).bitLen = s.bitLen := rfl
@[simp] theorem State.hold_pendLen (s : State) (d : Word) : (s.hold d).pendLen = s.pendLen := rfl
@[simp] theorem State.hold_data (s : State) (d : Word) : (s.hold d).data = s.data := rfl
@[simp] theorem State.hold_mode (s : State) (d : Word) : (s.hold d).mode = s.mode := rfl
@[simp] theorem State.hold_errCmd (s : State) (d : Word) : (s.hold d).errCmd = s.errCmd := rfl
@[simp] theorem State.hold_errSeq (s : State) (d : Word) : (s.hold d).errSeq = s.errSeq := rfl
@[simp] theorem State.hold_errLen (s : State) (d : Word) : (s.hold d).errLen = s.errLen := rfl
@[simp] theorem State.hold_errBus (s : State) (d : Word) : (s.hold d).errBus = s.errBus := rfl
@[simp] theorem State.hold_phase (s : State) (d : Word) : (s.hold d).phase = s.phase := rfl
@[simp] theorem State.hold_held (s : State) (d : Word) : (s.hold d).held = some d := rfl
@[simp] theorem State.hold_program (s : State) (d : Word) : (s.hold d).program = s.program := rfl
@[simp] theorem State.hold_reads (s : State) (d : Word) : (s.hold d).reads = s.reads := rfl
@[simp] theorem State.hold_plan (s : State) (d : Word) : (s.hold d).plan = s.plan := rfl
@[simp] theorem State.hold_draws (s : State) (d : Word) : (s.hold d).draws = s.draws := rfl

@[simp] theorem State.release_h (s : State) : (s.release).h = s.h := rfl
@[simp] theorem State.release_v (s : State) : (s.release).v = s.v := rfl
@[simp] theorem State.release_w (s : State) : (s.release).w = s.w := rfl
@[simp] theorem State.release_buf (s : State) : (s.release).buf = s.buf := rfl
@[simp] theorem State.release_bufCnt (s : State) : (s.release).bufCnt = s.bufCnt := rfl
@[simp] theorem State.release_len (s : State) : (s.release).len = s.len := rfl
@[simp] theorem State.release_bitLen (s : State) : (s.release).bitLen = s.bitLen := rfl
@[simp] theorem State.release_pendLen (s : State) : (s.release).pendLen = s.pendLen := rfl
@[simp] theorem State.release_data (s : State) : (s.release).data = s.data := rfl
@[simp] theorem State.release_mode (s : State) : (s.release).mode = s.mode := rfl
@[simp] theorem State.release_errCmd (s : State) : (s.release).errCmd = s.errCmd := rfl
@[simp] theorem State.release_errSeq (s : State) : (s.release).errSeq = s.errSeq := rfl
@[simp] theorem State.release_errLen (s : State) : (s.release).errLen = s.errLen := rfl
@[simp] theorem State.release_errBus (s : State) : (s.release).errBus = s.errBus := rfl
@[simp] theorem State.release_phase (s : State) : (s.release).phase = s.phase := rfl
@[simp] theorem State.release_held (s : State) : (s.release).held = none := rfl
@[simp] theorem State.release_program (s : State) : (s.release).program = s.program := rfl
@[simp] theorem State.release_reads (s : State) : (s.release).reads = s.reads := rfl
@[simp] theorem State.release_plan (s : State) : (s.release).plan = s.plan := rfl
@[simp] theorem State.release_draws (s : State) : (s.release).draws = s.draws := rfl

@[simp] theorem State.flag_h (s : State) (e : ErrFlag) : (s.flag e).h = s.h := by cases e <;> rfl
@[simp] theorem State.flag_v (s : State) (e : ErrFlag) : (s.flag e).v = s.v := by cases e <;> rfl
@[simp] theorem State.flag_w (s : State) (e : ErrFlag) : (s.flag e).w = s.w := by cases e <;> rfl
@[simp] theorem State.flag_buf (s : State) (e : ErrFlag) : (s.flag e).buf = s.buf := by cases e <;> rfl
@[simp] theorem State.flag_bufCnt (s : State) (e : ErrFlag) : (s.flag e).bufCnt = s.bufCnt := by cases e <;> rfl
@[simp] theorem State.flag_len (s : State) (e : ErrFlag) : (s.flag e).len = s.len := by cases e <;> rfl
@[simp] theorem State.flag_bitLen (s : State) (e : ErrFlag) : (s.flag e).bitLen = s.bitLen := by cases e <;> rfl
@[simp] theorem State.flag_pendLen (s : State) (e : ErrFlag) : (s.flag e).pendLen = s.pendLen := by cases e <;> rfl
@[simp] theorem State.flag_data (s : State) (e : ErrFlag) : (s.flag e).data = s.data := by cases e <;> rfl
@[simp] theorem State.flag_mode (s : State) (e : ErrFlag) : (s.flag e).mode = s.mode := by cases e <;> rfl
@[simp] theorem State.flag_phase (s : State) (e : ErrFlag) : (s.flag e).phase = s.phase := by cases e <;> rfl
@[simp] theorem State.flag_held (s : State) (e : ErrFlag) : (s.flag e).held = s.held := by cases e <;> rfl
@[simp] theorem State.flag_program (s : State) (e : ErrFlag) : (s.flag e).program = s.program := by cases e <;> rfl
@[simp] theorem State.flag_reads (s : State) (e : ErrFlag) : (s.flag e).reads = s.reads := by cases e <;> rfl
@[simp] theorem State.flag_plan (s : State) (e : ErrFlag) : (s.flag e).plan = s.plan := by cases e <;> rfl
@[simp] theorem State.flag_draws (s : State) (e : ErrFlag) : (s.flag e).draws = s.draws := by cases e <;> rfl

/-- A flag set by `flag e` is 1; every other keeps its value. -/
@[simp] theorem State.flag_err (s : State) (e e' : ErrFlag) :
    (s.flag e).err e' = (decide (e' = e) || s.err e') := by
  cases e <;> cases e' <;> rfl

@[simp] theorem State.clearErrors_h (s : State) : (s.clearErrors).h = s.h := rfl
@[simp] theorem State.clearErrors_v (s : State) : (s.clearErrors).v = s.v := rfl
@[simp] theorem State.clearErrors_w (s : State) : (s.clearErrors).w = s.w := rfl
@[simp] theorem State.clearErrors_buf (s : State) : (s.clearErrors).buf = s.buf := rfl
@[simp] theorem State.clearErrors_bufCnt (s : State) : (s.clearErrors).bufCnt = s.bufCnt := rfl
@[simp] theorem State.clearErrors_len (s : State) : (s.clearErrors).len = s.len := rfl
@[simp] theorem State.clearErrors_bitLen (s : State) : (s.clearErrors).bitLen = s.bitLen := rfl
@[simp] theorem State.clearErrors_pendLen (s : State) : (s.clearErrors).pendLen = s.pendLen := rfl
@[simp] theorem State.clearErrors_data (s : State) : (s.clearErrors).data = s.data := rfl
@[simp] theorem State.clearErrors_mode (s : State) : (s.clearErrors).mode = s.mode := rfl
@[simp] theorem State.clearErrors_errCmd (s : State) : (s.clearErrors).errCmd = false := rfl
@[simp] theorem State.clearErrors_errSeq (s : State) : (s.clearErrors).errSeq = false := rfl
@[simp] theorem State.clearErrors_errLen (s : State) : (s.clearErrors).errLen = false := rfl
@[simp] theorem State.clearErrors_errBus (s : State) : (s.clearErrors).errBus = false := rfl
@[simp] theorem State.clearErrors_phase (s : State) : (s.clearErrors).phase = s.phase := rfl
@[simp] theorem State.clearErrors_held (s : State) : (s.clearErrors).held = s.held := rfl
@[simp] theorem State.clearErrors_program (s : State) : (s.clearErrors).program = s.program := rfl
@[simp] theorem State.clearErrors_reads (s : State) : (s.clearErrors).reads = s.reads := rfl
@[simp] theorem State.clearErrors_plan (s : State) : (s.clearErrors).plan = s.plan := rfl
@[simp] theorem State.clearErrors_draws (s : State) : (s.clearErrors).draws = s.draws := rfl

@[simp] theorem State.clearErrors_err (s : State) (e : ErrFlag) : s.clearErrors.err e = false := by
  cases e <;> rfl

@[simp] theorem State.loadBlock_h (s : State) (blk : List Byte) : (s.loadBlock blk).h = s.h := by
  simp only [State.loadBlock]
@[simp] theorem State.loadBlock_v (s : State) (blk : List Byte) : (s.loadBlock blk).v = s.v := by
  simp only [State.loadBlock]
@[simp] theorem State.loadBlock_w (s : State) (blk : List Byte) : (s.loadBlock blk).w = loadWords blk s.w := by
  simp only [State.loadBlock]
@[simp] theorem State.loadBlock_buf (s : State) (blk : List Byte) : (s.loadBlock blk).buf = s.buf := by
  simp only [State.loadBlock]
@[simp] theorem State.loadBlock_bufCnt (s : State) (blk : List Byte) : (s.loadBlock blk).bufCnt = s.bufCnt := by
  simp only [State.loadBlock]
@[simp] theorem State.loadBlock_len (s : State) (blk : List Byte) : (s.loadBlock blk).len = s.len := by
  simp only [State.loadBlock]
@[simp] theorem State.loadBlock_bitLen (s : State) (blk : List Byte) : (s.loadBlock blk).bitLen = s.bitLen := by
  simp only [State.loadBlock]
@[simp] theorem State.loadBlock_pendLen (s : State) (blk : List Byte) : (s.loadBlock blk).pendLen = s.pendLen := by
  simp only [State.loadBlock]
@[simp] theorem State.loadBlock_data (s : State) (blk : List Byte) : (s.loadBlock blk).data = s.data := by
  simp only [State.loadBlock]
@[simp] theorem State.loadBlock_mode (s : State) (blk : List Byte) : (s.loadBlock blk).mode = s.mode := by
  simp only [State.loadBlock]
@[simp] theorem State.loadBlock_errCmd (s : State) (blk : List Byte) : (s.loadBlock blk).errCmd = s.errCmd := by
  simp only [State.loadBlock]
@[simp] theorem State.loadBlock_errSeq (s : State) (blk : List Byte) : (s.loadBlock blk).errSeq = s.errSeq := by
  simp only [State.loadBlock]
@[simp] theorem State.loadBlock_errLen (s : State) (blk : List Byte) : (s.loadBlock blk).errLen = s.errLen := by
  simp only [State.loadBlock]
@[simp] theorem State.loadBlock_errBus (s : State) (blk : List Byte) : (s.loadBlock blk).errBus = s.errBus := by
  simp only [State.loadBlock]
@[simp] theorem State.loadBlock_phase (s : State) (blk : List Byte) : (s.loadBlock blk).phase = phaseSchedule := by
  simp only [State.loadBlock]
@[simp] theorem State.loadBlock_held (s : State) (blk : List Byte) : (s.loadBlock blk).held = s.held := by
  simp only [State.loadBlock]
@[simp] theorem State.loadBlock_program (s : State) (blk : List Byte) : (s.loadBlock blk).program = s.program := by
  simp only [State.loadBlock]
@[simp] theorem State.loadBlock_reads (s : State) (blk : List Byte) : (s.loadBlock blk).reads = s.reads := by
  simp only [State.loadBlock]
@[simp] theorem State.loadBlock_plan (s : State) (blk : List Byte) : (s.loadBlock blk).plan = s.plan := by
  simp only [State.loadBlock]
@[simp] theorem State.loadBlock_draws (s : State) (blk : List Byte) : (s.loadBlock blk).draws = s.draws := by
  simp only [State.loadBlock]

@[simp] theorem State.loadBlock_busy (s : State) (blk : List Byte) : (s.loadBlock blk).busy = true := by
  simp [State.busy]

/-- BUSY depends on PHASE alone (R34). -/
theorem State.busy_eq_false_iff (s : State) : s.busy = false ↔ s.phase = phaseIdle := by
  simp [State.busy]

/-- BUSY depends on PHASE alone (R34). -/
theorem State.busy_eq_true_iff (s : State) : s.busy = true ↔ s.phase ≠ phaseIdle := by
  simp [State.busy]

/-- DVALID (R34). -/
theorem State.dvalid_iff (s : State) :
    s.dvalid = true ↔ s.mode = .finalized ∧ s.phase = phaseIdle := by
  simp [State.dvalid]

end Sys2Proof.Machine
end

