-- ==== Sys2Proof/Laws/Ops.lean ====
section
/-! SUPPORT. One lemma per shared operation that says everything it can do. -/

namespace Sys2Proof.Machine

/-- A command is held while PHASE is not IDLE and has its effect otherwise (R201). -/
theorem acceptWhenIdle_cases {d : Word} {effect : State → State} {s t : State}
    (h : acceptWhenIdle d effect s = .next t) :
    (s.busy = true ∧ t = s.hold d) ∨ (s.busy = false ∧ t = effect s.release) := by
  cases hb : s.busy <;> simp only [acceptWhenIdle, hb] at h <;> injection h with h <;> simp [h]

theorem acceptWhenIdle_idle {d : Word} {effect : State → State} {s : State}
    (h : s.phase = phaseIdle) : acceptWhenIdle d effect s = .next (effect s.release) := by
  simp [acceptWhenIdle, (State.busy_eq_false_iff s).2 h]

theorem acceptWhenIdle_busy {d : Word} {effect : State → State} {s : State}
    (h : s.busy = true) : acceptWhenIdle d effect s = .next (s.hold d) := by
  simp [acceptWhenIdle, h]

/-- APPEND_BYTE below the last place: the byte is stored, both counts advance (R123). -/
theorem State.appendByte_below (s : State) (x : Byte) (h : s.bufCnt ≠ 63#6) :
    s.appendByte x =
      { s with buf := s.buf.set s.bufCnt.toNat x s.bufCnt.isLt, len := s.len + 1#64,
               bufCnt := s.bufCnt + 1#6 } := by
  simp [State.appendByte, h]

/-- APPEND_BYTE at the last place: the filled buffer is loaded and BUFCNT is 0 (R123, R124). -/
theorem State.appendByte_fills (s : State) (x : Byte) (h : s.bufCnt = 63#6) :
    s.appendByte x =
      { s with buf := s.buf.set s.bufCnt.toNat x s.bufCnt.isLt, len := s.len + 1#64,
               bufCnt := 0#6,
               w := loadWords (s.buf.set s.bufCnt.toNat x s.bufCnt.isLt).toList s.w,
               phase := phaseSchedule } := by
  simp [State.appendByte, State.loadBlock, h]

/-- What APPEND_BYTE leaves alone, in both cases (R123). -/
theorem State.appendByte_frame (s : State) (x : Byte) :
    { s.appendByte x with
      buf := s.buf, len := s.len, bufCnt := s.bufCnt, w := s.w, phase := s.phase } = s := by
  by_cases h : s.bufCnt = 63#6
  · rw [State.appendByte_fills s x h]
  · rw [State.appendByte_below s x h]

theorem State.appendByte_len (s : State) (x : Byte) : (s.appendByte x).len = s.len + 1#64 := by
  by_cases h : s.bufCnt = 63#6
  · rw [State.appendByte_fills s x h]
  · rw [State.appendByte_below s x h]

theorem State.appendByte_bufCnt (s : State) (x : Byte) :
    (s.appendByte x).bufCnt = s.bufCnt + 1#6 := by
  by_cases h : s.bufCnt = 63#6
  · rw [State.appendByte_fills s x h, h]; rfl
  · rw [State.appendByte_below s x h]

/-- What a run of APPEND_BYTEs leaves alone. -/
theorem State.appendBytes_frame (bs : List Byte) (s : State) :
    { bs.foldl State.appendByte s with
      buf := s.buf, len := s.len, bufCnt := s.bufCnt, w := s.w, phase := s.phase } = s := by
  induction bs generalizing s with
  | nil => rfl
  | cons x bs ih =>
    have h1 := State.appendByte_frame s x
    have h2 := ih (s.appendByte x)
    simp only [List.foldl_cons]
    generalize bs.foldl State.appendByte (s.appendByte x) = u at h2 ⊢
    generalize s.appendByte x = t at h1 h2
    cases s; cases t; cases u
    simp_all

@[simp] theorem State.tailBlock_length (s : State) : s.tailBlock.length = 64 := by
  have hr : s.bufCnt.toNat < 64 := s.bufCnt.isLt
  simp only [State.tailBlock]
  split <;> simp <;> omega

/-- What ABSORB can do once accepted (R205): one of three cases. -/
theorem State.absorb_cases (n : BitVec 2) (s : State) :
    (s.mode ≠ .accepting ∧ s.absorb n = s.flag .seq) ∨
    (s.mode = .accepting ∧ s.len.toNat + absorbCount n > maxMsgBytes ∧
      s.absorb n = { s.flag .len with mode := .failed }) ∨
    (s.mode = .accepting ∧ s.len.toNat + absorbCount n ≤ maxMsgBytes ∧
      s.absorb n = (absorbBytes n s.data).foldl State.appendByte s) := by
  by_cases hm : s.mode = .accepting
  · by_cases hl : s.len.toNat + absorbCount n > maxMsgBytes
    · exact Or.inr (Or.inl ⟨hm, hl, by simp only [State.absorb, hm, hl]; simp⟩)
    · exact Or.inr (Or.inr ⟨hm, by omega, by simp only [State.absorb, hm, hl]; simp⟩)
  · exact Or.inl ⟨hm, by simp [State.absorb, hm]⟩

/-- What FINAL can do once accepted (R206): refused, or PAD_TAIL and MODE <- FINALIZED. -/
theorem State.finish_cases (s : State) :
    (s.mode ≠ .accepting ∧ s.finish = s.flag .seq) ∨
    (s.mode = .accepting ∧ s.finish =
      { s with bitLen := s.messageBits, pendLen := decide (55 < s.bufCnt.toNat), bufCnt := 0#6,
               w := loadWords s.tailBlock s.w, phase := phaseSchedule, mode := .finalized }) := by
  by_cases hm : s.mode = .accepting
  · exact Or.inr ⟨hm, by simp [State.finish, hm, State.padTail, State.loadBlock]⟩
  · exact Or.inl ⟨hm, by simp [State.finish, hm]⟩

/-- LENGTH_BLOCK (R126). -/
theorem State.lengthBlock_eq (s : State) :
    s.lengthBlock =
      { s with w := loadWords (List.replicate 56 0x00#8 ++ be64 s.bitLen) s.w,
               phase := phaseSchedule, pendLen := false } := by
  simp only [State.lengthBlock, State.loadBlock]

end Sys2Proof.Machine
end

