-- ==== Sys2Proof/Laws/Step.lean ====
section
/-! SUPPORT. What a step can do, said once: the platform's reset, a move of the host or a move of the
engine, in a state that differs from the one before only in the model's own plan and draw counter. -/

namespace Sys2Proof.Machine

/-- The state as the moving agent finds it: `plan` and `draws` are the model's own, no agent reads
them. -/
def State.withSchedule (s : State) (plan : List Turn) (draws : Nat) : State :=
  { s with plan := plan, draws := draws }

@[simp] theorem State.withSchedule_h (s : State) (p : List Turn) (n : Nat) :
    (s.withSchedule p n).h = s.h := rfl
@[simp] theorem State.withSchedule_v (s : State) (p : List Turn) (n : Nat) :
    (s.withSchedule p n).v = s.v := rfl
@[simp] theorem State.withSchedule_w (s : State) (p : List Turn) (n : Nat) :
    (s.withSchedule p n).w = s.w := rfl
@[simp] theorem State.withSchedule_buf (s : State) (p : List Turn) (n : Nat) :
    (s.withSchedule p n).buf = s.buf := rfl
@[simp] theorem State.withSchedule_bufCnt (s : State) (p : List Turn) (n : Nat) :
    (s.withSchedule p n).bufCnt = s.bufCnt := rfl
@[simp] theorem State.withSchedule_len (s : State) (p : List Turn) (n : Nat) :
    (s.withSchedule p n).len = s.len := rfl
@[simp] theorem State.withSchedule_bitLen (s : State) (p : List Turn) (n : Nat) :
    (s.withSchedule p n).bitLen = s.bitLen := rfl
@[simp] theorem State.withSchedule_pendLen (s : State) (p : List Turn) (n : Nat) :
    (s.withSchedule p n).pendLen = s.pendLen := rfl
@[simp] theorem State.withSchedule_data (s : State) (p : List Turn) (n : Nat) :
    (s.withSchedule p n).data = s.data := rfl
@[simp] theorem State.withSchedule_mode (s : State) (p : List Turn) (n : Nat) :
    (s.withSchedule p n).mode = s.mode := rfl
@[simp] theorem State.withSchedule_errCmd (s : State) (p : List Turn) (n : Nat) :
    (s.withSchedule p n).errCmd = s.errCmd := rfl
@[simp] theorem State.withSchedule_errSeq (s : State) (p : List Turn) (n : Nat) :
    (s.withSchedule p n).errSeq = s.errSeq := rfl
@[simp] theorem State.withSchedule_errLen (s : State) (p : List Turn) (n : Nat) :
    (s.withSchedule p n).errLen = s.errLen := rfl
@[simp] theorem State.withSchedule_errBus (s : State) (p : List Turn) (n : Nat) :
    (s.withSchedule p n).errBus = s.errBus := rfl
@[simp] theorem State.withSchedule_phase (s : State) (p : List Turn) (n : Nat) :
    (s.withSchedule p n).phase = s.phase := rfl
@[simp] theorem State.withSchedule_held (s : State) (p : List Turn) (n : Nat) :
    (s.withSchedule p n).held = s.held := rfl
@[simp] theorem State.withSchedule_program (s : State) (p : List Turn) (n : Nat) :
    (s.withSchedule p n).program = s.program := rfl
@[simp] theorem State.withSchedule_reads (s : State) (p : List Turn) (n : Nat) :
    (s.withSchedule p n).reads = s.reads := rfl
@[simp] theorem State.withSchedule_plan (s : State) (p : List Turn) (n : Nat) :
    (s.withSchedule p n).plan = p := rfl
@[simp] theorem State.withSchedule_draws (s : State) (p : List Turn) (n : Nat) :
    (s.withSchedule p n).draws = n := rfl
@[simp] theorem State.withSchedule_busy (s : State) (p : List Turn) (n : Nat) :
    (s.withSchedule p n).busy = s.busy := rfl
@[simp] theorem State.withSchedule_dvalid (s : State) (p : List Turn) (n : Nat) :
    (s.withSchedule p n).dvalid = s.dvalid := rfl
@[simp] theorem State.withSchedule_hostEnabled (s : State) (p : List Turn) (n : Nat) :
    (s.withSchedule p n).hostEnabled = s.hostEnabled := rfl
@[simp] theorem State.withSchedule_self (s : State) : s.withSchedule s.plan s.draws = s := rfl

/-! ### Which agent a turn moves -/

theorem turnOf_host {s : State} (h : s.hostEnabled = true) : turnOf .host s = hostMove s := by
  unfold turnOf State.mover State.engineEnabled
  rw [h]; cases s.busy <;> rfl

theorem turnOf_engine {s : State} (h : s.busy = true) : turnOf .engine s = engineMove s := by
  unfold turnOf State.mover State.engineEnabled
  rw [h]; cases s.hostEnabled <;> rfl

/-- With the engine idle an enabled host moves, whoever is preferred. -/
theorem turnOf_idle {s : State} (a : Agent) (h : s.hostEnabled = true) (hb : s.busy = false) :
    turnOf a s = hostMove s := by
  unfold turnOf State.mover State.engineEnabled
  rw [h, hb]; rfl

/-- With the host blocked or done the engine moves, whoever is preferred. -/
theorem turnOf_blocked {s : State} (a : Agent) (h : s.hostEnabled = false) :
    turnOf a s = engineMove s := by
  unfold turnOf State.mover State.engineEnabled
  rw [h]; rfl

theorem State.hostEnabled_of_program {s : State} (hh : s.held = none) (hp : s.program ≠ []) :
    s.hostEnabled = true := by
  unfold State.hostEnabled
  rw [hh]
  cases hq : s.program <;> simp_all

theorem State.hostEnabled_of_held {s : State} {d : Word} (hh : s.held = some d) :
    s.hostEnabled = !s.busy := by
  unfold State.hostEnabled
  rw [hh]

theorem State.hostEnabled_done {s : State} (hh : s.held = none) (hp : s.program = []) :
    s.hostEnabled = false := by
  unfold State.hostEnabled
  rw [hh, hp]; rfl

/-! ### A step under each form of the plan -/

theorem step_plan_reset {s : State} {ps : List Turn} (h : s.plan = .reset :: ps) :
    step s = .next (platformReset { s with plan := ps }) := by
  simp only [step, systemStep, h]

theorem step_plan_host {s : State} {ps : List Turn} (h : s.plan = .host :: ps) :
    step s = turnOf .host (s.withSchedule ps s.draws) := by
  simp only [step, systemStep, h, State.withSchedule]

theorem step_plan_engine {s : State} {ps : List Turn} (h : s.plan = .engine :: ps) :
    step s = turnOf .engine (s.withSchedule ps s.draws) := by
  simp only [step, systemStep, h, State.withSchedule]

theorem step_plan_nil_contested {s : State} (h : s.plan = []) (hh : s.hostEnabled = true)
    (hb : s.busy = true) :
    step s = turnOf (if hostMoves s.draws then .host else .engine)
      (s.withSchedule [] (s.draws + 1)) := by
  unfold step systemStep State.withSchedule State.engineEnabled
  rw [h, hh, hb]; rfl

theorem step_plan_nil {s : State} (h : s.plan = [])
    (hs : s.hostEnabled = false ∨ s.busy = false) : step s = turnOf .engine s := by
  unfold step systemStep State.engineEnabled
  rw [h]
  rcases hs with hs | hs <;> rw [hs] <;> simp

/-- The free choice is weakly fair: after every draw there is one at which the engine moves (R269). -/
theorem exists_engine_draw (n : Nat) : ∃ m, n ≤ m ∧ hostMoves m = false := by
  have key : ∀ (left n : Nat), hostTurnsLeft Config.hostLead n = left →
      ∃ m, n ≤ m ∧ hostTurnsLeft Config.hostLead m = 0 := by
    intro left
    induction left with
    | zero => exact fun n h => ⟨n, Nat.le_refl n, h⟩
    | succ left ih =>
      intro n h
      obtain ⟨m, hm, h0⟩ := ih (n + 1) (by simp only [hostTurnsLeft, h])
      exact ⟨m, by omega, h0⟩
  obtain ⟨m, hm, h0⟩ := key _ n rfl
  exact ⟨m, hm, by simp [hostMoves, h0]⟩

/-- No fair choice is left out: every sequence of choices in which the engine moves again and again is
the one some counts give (assumption log 16). -/
theorem exists_hostTurnsLeft (f : Nat → Bool) (fair : ∀ n, ∃ m, n ≤ m ∧ f m = false) :
    ∃ lead : Nat → Nat, ∀ n, f n = (hostTurnsLeft lead n != 0) := by
  have gap : ∀ n, ∃ d, f (n + d) = false := by
    intro n
    obtain ⟨m, hm, hf⟩ := fair n
    exact ⟨m - n, by rwa [Nat.add_sub_cancel' hm]⟩
  have left : ∀ n, hostTurnsLeft (fun n => Nat.find (gap n)) n = Nat.find (gap n) := by
    intro n
    induction n with
    | zero => rfl
    | succ n ih =>
      simp only [hostTurnsLeft, ih]
      cases hd : Nat.find (gap n) with
      | zero => rfl
      | succ d =>
        refine ((Nat.find_eq_iff (gap (n + 1))).2 ⟨?_, fun e he hf => ?_⟩).symm
        · have := Nat.find_spec (gap n)
          rwa [hd, ← Nat.add_assoc, Nat.add_right_comm] at this
        · change e < d at he
          refine Nat.find_min (gap n) (m := e + 1) (by rw [hd]; omega) ?_
          rwa [← Nat.add_assoc, Nat.add_right_comm]
  refine ⟨fun n => Nat.find (gap n), fun n => ?_⟩
  rw [left n]
  cases hf : f n with
  | false =>
    have : Nat.find (gap n) = 0 := (Nat.find_eq_zero (gap n)).2 hf
    simp [this]
  | true =>
    have : Nat.find (gap n) ≠ 0 := fun h0 => by
      have := (Nat.find_eq_zero (gap n)).1 h0
      simp [hf] at this
    simp [this]

/-- A turn is a move of an enabled host or of the engine, which moves when the host cannot or PHASE is
not IDLE. -/
theorem turnOf_cases (a : Agent) (s : State) :
    (s.hostEnabled = true ∧ turnOf a s = hostMove s) ∨
    ((s.hostEnabled = false ∨ s.busy = true) ∧ turnOf a s = engineMove s) := by
  cases hh : s.hostEnabled
  · exact Or.inr ⟨Or.inl rfl, turnOf_blocked a hh⟩
  · cases hb : s.busy
    · exact Or.inl ⟨rfl, turnOf_idle a hh hb⟩
    · cases a
      · exact Or.inl ⟨rfl, turnOf_host hh⟩
      · exact Or.inr ⟨Or.inr rfl, turnOf_engine hb⟩

/-- Every step is the platform's reset, a move of an enabled host or a move of the engine. -/
theorem step_cases (s : State) :
    (∃ ps, s.plan = .reset :: ps ∧ step s = .next (platformReset { s with plan := ps })) ∨
    (∃ ps n, s.hostEnabled = true ∧ step s = hostMove (s.withSchedule ps n)) ∨
    (∃ ps n, (s.hostEnabled = false ∨ s.busy = true) ∧
      step s = engineMove (s.withSchedule ps n)) := by
  have lift : ∀ (a : Agent) (ps : List Turn) (n : Nat),
      step s = turnOf a (s.withSchedule ps n) →
      (∃ ps n, s.hostEnabled = true ∧ step s = hostMove (s.withSchedule ps n)) ∨
      (∃ ps n, (s.hostEnabled = false ∨ s.busy = true) ∧
        step s = engineMove (s.withSchedule ps n)) := by
    intro a ps n h
    rcases turnOf_cases a (s.withSchedule ps n) with ⟨he, ht⟩ | ⟨he, ht⟩
    · exact Or.inl ⟨ps, n, he, h.trans ht⟩
    · exact Or.inr ⟨ps, n, he, h.trans ht⟩
  match hp : s.plan with
  | .reset :: ps => exact Or.inl ⟨ps, rfl, step_plan_reset hp⟩
  | .host :: ps => exact Or.inr (lift .host ps s.draws (step_plan_host hp))
  | .engine :: ps => exact Or.inr (lift .engine ps s.draws (step_plan_engine hp))
  | [] =>
    by_cases hh : s.hostEnabled = true
    · by_cases hb : s.busy = true
      · exact Or.inr (lift _ [] (s.draws + 1) (step_plan_nil_contested hp hh hb))
      · exact Or.inr (lift .engine s.plan s.draws
          (step_plan_nil hp (Or.inr (Bool.eq_false_iff.2 hb))))
    · exact Or.inr (lift .engine s.plan s.draws
        (step_plan_nil hp (Or.inl (Bool.eq_false_iff.2 hh))))

/-- What the host's step can do: complete the held write, or run the next line of the program. -/
theorem hostMove_cases (s : State) :
    (∃ d, s.held = some d ∧ hostMove s = exec (.wrCmd d) s) ∨
    (s.held = none ∧ s.program = [] ∧ hostMove s = .next s) ∨
    (∃ l rest, s.held = none ∧ s.program = l :: rest ∧
      hostMove s = l.run { s with program := rest }) := by
  unfold hostMove
  match hh : s.held with
  | some d => exact Or.inl ⟨d, rfl, rfl⟩
  | none =>
    match hp : s.program with
    | [] => exact Or.inr (Or.inl ⟨rfl, rfl, rfl⟩)
    | l :: rest => exact Or.inr (Or.inr ⟨l, rest, rfl, rfl, rfl⟩)

/-- A line of the program that answers a next state has run one bus transaction, but for an access
outside the window, which changes nothing; a `poll` may stay at the head of the program. -/
theorem HostLine.run_cases {l : HostLine} {s t : State} (h : l.run s = .next t) :
    (∃ a d u, exec (decodeBus a d) s = .next u ∧
      (t = u ∨ t = { u with program := l :: u.program })) ∨ t = s := by
  cases l with
  | bus a d => exact Or.inl ⟨a, d, t, h, Or.inl rfl⟩
  | poll off mask value =>
    simp only [HostLine.run, pollMove] at h
    split at h
    · rename_i u hu
      refine Or.inl ⟨_, _, u, hu, ?_⟩
      split at h <;> injection h with h
      · exact Or.inl h.symm
      · exact Or.inr h.symm
    · cases h
    · cases h
  | mem acc =>
    simp only [HostLine.run, memMove] at h
    split at h
    · injection h with h; exact Or.inr h.symm
    · cases h
    · cases h
    · rename_i a d _; exact Or.inl ⟨a, d, t, h, Or.inl rfl⟩

end Sys2Proof.Machine
end

