-- ==== Sys2Proof/Laws/Exec.lean ====
section
/-! SUPPORT. What an instruction can do, said once: if `exec` answers a next state, that state is one
of fourteen updates of the state before, each under the condition it happens in. -/

namespace Sys2Proof.Machine

/-- The updates an instruction `i` can make of `s`. -/
inductive Effect (i : Instr) (s : State) : State → Prop
  /-- A read completes (R191 to R199). -/
  | answer (x : Word) : Effect i s (s.answer x)
  /-- A bad write records ERR_BUS (R202). -/
  | busError (bad : i.isBusError = true) : Effect i s (s.flag .bus)
  /-- A CMD write, or the command it delivers, is held (R201). -/
  | hold (d : Word) (busy : s.busy = true) : Effect i s (s.hold d)
  /-- WR_DATA (R200). -/
  | data (d : Word) (isData : i = .wrData d) : Effect i s { s with data := d }
  /-- NOP (R203). -/
  | nop (idle : s.busy = false) (does : i.performed = .nop) : Effect i s s.release
  /-- INIT (R204). -/
  | init (idle : s.busy = false) (does : i.performed = .init) : Effect i s s.release.startSession
  /-- ABSORB (R205). -/
  | absorb (idle : s.busy = false) (n : BitVec 2) (does : i.performed = .absorb n) :
      Effect i s (s.release.absorb n)
  /-- FINAL (R206). -/
  | final (idle : s.busy = false) (does : i.performed = .final) : Effect i s s.release.finish
  /-- CMD_ILLEGAL (R207). -/
  | illegal (idle : s.busy = false) (w : Word) (does : i.performed = .cmdIllegal w) :
      Effect i s (s.release.flag .cmd)
  /-- ENG_IDLE (R255). -/
  | idle (isIdle : i = .engIdle) : Effect i s s
  /-- SCHEDULE (R141). -/
  | schedule (isSchedule : i = .engSchedule) :
      Effect i s { s with w := extendSchedule s.w, v := s.h, phase := phaseRound 0#6 }
  /-- ROUND(t) (R153). -/
  | round (k : BitVec 6) (isRound : i = .engRound k) :
      Effect i s { s with
        v := roundF s.v (kAt k) (wordAt s.w k.toNat)
        phase := if k = 63#6 then phaseAdd else phaseRound (k + 1#6) }
  /-- ADD, with the length block to follow (R171, R126). -/
  | addPending (isAdd : i = .engAdd) (pending : s.pendLen = true) :
      Effect i s (State.lengthBlock { s with h := feedForward s.h s.v })
  /-- ADD, at the end (R171). -/
  | addLast (isAdd : i = .engAdd) (last : s.pendLen = false) :
      Effect i s { s with h := feedForward s.h s.v, phase := phaseIdle }

/-- An accepted or held command as an effect, from the effect it has once the hold lifts. -/
theorem Effect.ofAccept {i : Instr} {s t : State} {d : Word} {effect : State → State}
    (h : acceptWhenIdle d effect s = .next t)
    (done : s.busy = false → Effect i s (effect s.release)) : Effect i s t := by
  rcases acceptWhenIdle_cases h with ⟨hb, rfl⟩ | ⟨hb, rfl⟩
  · exact .hold d hb
  · exact done hb

/-- Every next state that `exec` answers is one of the effects. -/
theorem exec_effect {i : Instr} {s t : State} (h : exec i s = .next t) : Effect i s t := by
  have next : ∀ u, (Host.Outcome.next u : Host.Outcome State Fault Refusal) = .next t →
      Effect i s u → Effect i s t := by
    intro u hu he
    injection hu with hu
    exact hu ▸ he
  cases i with
  | rdId => exact next _ h (.answer _)
  | rdStatus => exact next _ h (.answer _)
  | rdCmd => exact next _ h (.answer _)
  | rdData => exact next _ h (.answer _)
  | rdLenLo => exact next _ h (.answer _)
  | rdLenHi => exact next _ h (.answer _)
  | rdRsvd _ => exact next _ h (.answer _)
  | rdDigest _ => exact next _ h (.answer _)
  | rdMisalignedOdd _ => exact next _ h (.answer _)
  | rdMisalignedHalf _ => exact next _ h (.answer _)
  | wrId _ => exact next _ h (.busError rfl)
  | wrStatus _ => exact next _ h (.busError rfl)
  | wrLen _ _ => exact next _ h (.busError rfl)
  | wrRsvd _ _ => exact next _ h (.busError rfl)
  | wrDigest _ _ => exact next _ h (.busError rfl)
  | wrMisalignedOdd _ _ => exact next _ h (.busError rfl)
  | wrMisalignedHalf _ _ => exact next _ h (.busError rfl)
  | wrData d => exact next _ h (.data d rfl)
  | nop => exact .ofAccept (effect := fun s => s) h fun hb => .nop hb rfl
  | init => exact .ofAccept h fun hb => .init hb rfl
  | absorb n => exact .ofAccept h fun hb => .absorb hb n rfl
  | final => exact .ofAccept h fun hb => .final hb rfl
  | cmdIllegal w => exact .ofAccept (effect := fun s => s.flag .cmd) h fun hb => .illegal hb w rfl
  | wrCmd d =>
    simp only [exec, execWrCmd] at h
    split at h
    · next hb => exact next _ h (.hold d hb)
    · have does : ∀ c, decodeCommand d = c → (Instr.wrCmd d).performed = c.toInstr := by
        intro c hc
        rw [← hc]; rfl
      split at h
      · next hc => exact .ofAccept h fun hb => .nop hb (does _ hc)
      · next hc => exact .ofAccept h fun hb => .init hb (does _ hc)
      · next n hc => exact .ofAccept h fun hb => .absorb hb n (does _ hc)
      · next hc => exact .ofAccept h fun hb => .final hb (does _ hc)
      · next w hc => exact .ofAccept h fun hb => .illegal hb w (does _ hc)
  | engIdle => exact next _ h (.idle rfl)
  | engSchedule => exact next _ h (.schedule rfl)
  | engRound k => exact next _ h (.round k rfl)
  | engAdd =>
    simp only [exec, execEngAdd] at h
    split at h
    · next hp => exact next _ h (.addPending rfl hp)
    · next hp => exact next _ h (.addLast rfl (Bool.eq_false_iff.2 hp))
  | engUnreachable03 => cases h
  | engUnreachable04 _ => cases h
  | engUnreachable08 _ => cases h
  | engUnreachable10 _ => cases h
  | engUnreachable20 _ => cases h

/-- What ABSORB can do once accepted, with everything it leaves alone (R205). -/
theorem State.absorb_inversion (n : BitVec 2) (s : State) :
    (s.mode ≠ .accepting ∧ s.absorb n = s.flag .seq) ∨
    (s.mode = .accepting ∧ s.len.toNat + absorbCount n > maxMsgBytes ∧
      s.absorb n = { s.flag .len with mode := .failed }) ∨
    (s.mode = .accepting ∧ s.len.toNat + absorbCount n ≤ maxMsgBytes ∧
      ∃ buf len bufCnt w phase,
        s.absorb n =
          { s with buf := buf, len := len, bufCnt := bufCnt, w := w, phase := phase }) := by
  rcases State.absorb_cases n s with h | h | ⟨hm, hl, he⟩
  · exact Or.inl h
  · exact Or.inr (Or.inl h)
  · refine Or.inr (Or.inr ⟨hm, hl, ?_⟩)
    rw [he]
    have hf := State.appendBytes_frame (absorbBytes n s.data) s
    generalize (absorbBytes n s.data).foldl State.appendByte s = u at hf
    exact ⟨u.buf, u.len, u.bufCnt, u.w, u.phase, by rw [← hf]⟩

/-- The only instructions that fault are the five ENG_UNREACHABLE rows (R86, R256). -/
theorem exec_fault {i : Instr} {s : State} {f : Fault} (h : exec i s = .fault f) :
    i.mnemonic = "ENG_UNREACHABLE" := by
  have accept : ∀ (d : Word) (g : State → State), acceptWhenIdle d g s ≠ .fault f := by
    intro d g h
    unfold acceptWhenIdle at h
    split at h <;> cases h
  cases i with
  | engUnreachable03 => rfl
  | engUnreachable04 _ => rfl
  | engUnreachable08 _ => rfl
  | engUnreachable10 _ => rfl
  | engUnreachable20 _ => rfl
  | nop => exact absurd h (accept _ fun s => s)
  | init => exact absurd h (accept _ _)
  | absorb _ => exact absurd h (accept _ _)
  | final => exact absurd h (accept _ _)
  | cmdIllegal _ => exact absurd h (accept _ fun s => s.flag .cmd)
  | wrCmd d =>
    simp only [exec, execWrCmd] at h
    split at h
    · cases h
    · split at h <;> exact absurd h (accept _ _)
  | engAdd =>
    simp only [exec, execEngAdd] at h
    split at h <;> cases h
  | _ => cases h

/-- What a step can do to the engine: the platform's reset; one effect, of a transaction or of the
instruction PHASE selects; or nothing. The host's program position and the model's own plan and draw
counter are existentially hidden. -/
theorem step_effect {s t : State} (h : step s = .next t) :
    (∃ ps, s.plan = .reset :: ps ∧ t = platformReset { s with plan := ps }) ∨
    (∃ (i : Instr) (program program' : List HostLine) (plan : List Turn) (draws : Nat) (u : State),
      (i.isTransaction = true ∨ i = decodePhase s.phase) ∧
      Effect i { s with program := program, plan := plan, draws := draws } u ∧
      t = { u with program := program' }) ∨
    (∃ (program : List HostLine) (plan : List Turn) (draws : Nat),
      t = { s with program := program, plan := plan, draws := draws }) := by
  rcases step_cases s with ⟨ps, hp, he⟩ | ⟨ps, n, _, he⟩ | ⟨ps, n, _, he⟩
  · rw [he] at h
    injection h with h
    exact Or.inl ⟨ps, hp, h.symm⟩
  · rw [he] at h
    rcases hostMove_cases (s.withSchedule ps n) with ⟨d, _, hm⟩ | ⟨_, _, hm⟩ | ⟨l, rest, _, _, hm⟩
    · rw [hm] at h
      exact Or.inr (Or.inl
        ⟨.wrCmd d, s.program, t.program, ps, n, t, Or.inl rfl, exec_effect h, rfl⟩)
    · rw [hm] at h
      injection h with h
      exact Or.inr (Or.inr ⟨s.program, ps, n, h.symm⟩)
    · rw [hm] at h
      rcases HostLine.run_cases h with ⟨a, d, u, hu, ht⟩ | rfl
      · refine Or.inr (Or.inl
          ⟨decodeBus a d, rest, t.program, ps, n, u, Or.inl (isTransaction_decodeBus a d),
            exec_effect hu, ?_⟩)
        rcases ht with rfl | rfl <;> rfl
      · exact Or.inr (Or.inr ⟨rest, ps, n, rfl⟩)
  · rw [he] at h
    exact Or.inr (Or.inl
      ⟨decodePhase s.phase, s.program, t.program, ps, n, t, Or.inr rfl, exec_effect h, rfl⟩)

/-- A run has at most one end (R271). -/
theorem RunEndsAt.unique {s t u : State} {k j : Nat} (ht : RunEndsAt s k t) (hu : RunEndsAt s j u) :
    k = j ∧ t = u := by
  rcases Nat.lt_trichotomy k j with h | rfl | h
  · exact absurd ht.2.1 (hu.2.2 k t h ht.1)
  · cases ht.1.symm.trans hu.1; exact ⟨rfl, rfl⟩
  · exact absurd hu.2.1 (ht.2.2 j u h hu.1)

end Sys2Proof.Machine
end

