-- ==== Sys2Proof/Laws/PerInstr.lean ====
section
/-! SUPPORT. Statements made once per constructor of Instr. -/

/-- The code word lies in the table row of the mnemonic: the row's fixed bits are as R71, R81 or R85
gives them; a CMD_ILLEGAL word lies in no row of R81 (R83). -/
def Sys2Proof.Laws.TableRow.inRow (name : String) : Sys2Proof.CodeWord → Bool
  | .bus a _ => Sys2Proof.busTable.any fun r => r.mnemonic == name && r.takes a
  | .cmd d =>
    Sys2Proof.cmdTable.any (fun r => r.mnemonic == name && r.takes d) ||
      (name == "CMD_ILLEGAL" && Sys2Proof.cmdTable.all fun r => !r.takes d)
  | .phase p => Sys2Proof.phaseTable.any fun r => r.mnemonic == name && r.takes p

/-- The encoding of a well-formed instruction lies in its own row of the opcode table, whatever its
operands. -/
def Sys2Proof.Laws.TableRow.Statement (i : Sys2Proof.Instr) : Prop :=
  i.wellFormed = true →
    Sys2Proof.Laws.TableRow.inRow i.mnemonic (Sys2Proof.encode i) = true

theorem Sys2Proof.Laws.TableRow.rdId : Sys2Proof.Laws.TableRow.Statement .rdId := by
  intro _; decide

theorem Sys2Proof.Laws.TableRow.rdStatus : Sys2Proof.Laws.TableRow.Statement .rdStatus := by
  intro _; decide

theorem Sys2Proof.Laws.TableRow.rdCmd : Sys2Proof.Laws.TableRow.Statement .rdCmd := by
  intro _; decide

theorem Sys2Proof.Laws.TableRow.rdData : Sys2Proof.Laws.TableRow.Statement .rdData := by
  intro _; decide

theorem Sys2Proof.Laws.TableRow.rdLenLo : Sys2Proof.Laws.TableRow.Statement .rdLenLo := by
  intro _; decide

theorem Sys2Proof.Laws.TableRow.rdLenHi : Sys2Proof.Laws.TableRow.Statement .rdLenHi := by
  intro _; decide

theorem Sys2Proof.Laws.TableRow.rdRsvd (sel : BitVec 1) : Sys2Proof.Laws.TableRow.Statement (.rdRsvd sel) := by
  have all : ∀ x : BitVec 1, Sys2Proof.Laws.TableRow.inRow (Sys2Proof.Instr.rdRsvd x).mnemonic
      (Sys2Proof.encode (.rdRsvd x)) = true := by decide
  intro _
  exact all sel

theorem Sys2Proof.Laws.TableRow.rdDigest (i : BitVec 3) : Sys2Proof.Laws.TableRow.Statement (.rdDigest i) := by
  have all : ∀ x : BitVec 3, Sys2Proof.Laws.TableRow.inRow (Sys2Proof.Instr.rdDigest x).mnemonic
      (Sys2Proof.encode (.rdDigest x)) = true := by decide
  intro _
  exact all i

theorem Sys2Proof.Laws.TableRow.rdMisalignedOdd (hi : BitVec 5) : Sys2Proof.Laws.TableRow.Statement (.rdMisalignedOdd hi) := by
  have all : ∀ x : BitVec 5, Sys2Proof.Laws.TableRow.inRow (Sys2Proof.Instr.rdMisalignedOdd x).mnemonic
      (Sys2Proof.encode (.rdMisalignedOdd x)) = true := by decide
  intro _
  exact all hi

theorem Sys2Proof.Laws.TableRow.rdMisalignedHalf (reg : BitVec 4) : Sys2Proof.Laws.TableRow.Statement (.rdMisalignedHalf reg) := by
  have all : ∀ x : BitVec 4, Sys2Proof.Laws.TableRow.inRow (Sys2Proof.Instr.rdMisalignedHalf x).mnemonic
      (Sys2Proof.encode (.rdMisalignedHalf x)) = true := by decide
  intro _
  exact all reg

theorem Sys2Proof.Laws.TableRow.wrId (d : Sys2Proof.Word) :
    Sys2Proof.Laws.TableRow.Statement (.wrId d) := by
  intro _; rfl

theorem Sys2Proof.Laws.TableRow.wrStatus (d : Sys2Proof.Word) :
    Sys2Proof.Laws.TableRow.Statement (.wrStatus d) := by
  intro _; rfl

theorem Sys2Proof.Laws.TableRow.wrCmd (d : Sys2Proof.Word) :
    Sys2Proof.Laws.TableRow.Statement (.wrCmd d) := by
  intro _; rfl

theorem Sys2Proof.Laws.TableRow.wrData (d : Sys2Proof.Word) :
    Sys2Proof.Laws.TableRow.Statement (.wrData d) := by
  intro _; rfl

theorem Sys2Proof.Laws.TableRow.wrLen (sel : BitVec 1) (d : Sys2Proof.Word) :
    Sys2Proof.Laws.TableRow.Statement (.wrLen sel d) := by
  have all : ∀ x : BitVec 1, Sys2Proof.Laws.TableRow.inRow (Sys2Proof.Instr.wrLen x 0#32).mnemonic
      (Sys2Proof.encode (.wrLen x 0#32)) = true := by decide
  intro _
  exact all sel

theorem Sys2Proof.Laws.TableRow.wrRsvd (sel : BitVec 1) (d : Sys2Proof.Word) :
    Sys2Proof.Laws.TableRow.Statement (.wrRsvd sel d) := by
  have all : ∀ x : BitVec 1, Sys2Proof.Laws.TableRow.inRow (Sys2Proof.Instr.wrRsvd x 0#32).mnemonic
      (Sys2Proof.encode (.wrRsvd x 0#32)) = true := by decide
  intro _
  exact all sel

theorem Sys2Proof.Laws.TableRow.wrDigest (i : BitVec 3) (d : Sys2Proof.Word) :
    Sys2Proof.Laws.TableRow.Statement (.wrDigest i d) := by
  have all : ∀ x : BitVec 3, Sys2Proof.Laws.TableRow.inRow (Sys2Proof.Instr.wrDigest x 0#32).mnemonic
      (Sys2Proof.encode (.wrDigest x 0#32)) = true := by decide
  intro _
  exact all i

theorem Sys2Proof.Laws.TableRow.wrMisalignedOdd (hi : BitVec 5) (d : Sys2Proof.Word) :
    Sys2Proof.Laws.TableRow.Statement (.wrMisalignedOdd hi d) := by
  have all : ∀ x : BitVec 5, Sys2Proof.Laws.TableRow.inRow (Sys2Proof.Instr.wrMisalignedOdd x 0#32).mnemonic
      (Sys2Proof.encode (.wrMisalignedOdd x 0#32)) = true := by decide
  intro _
  exact all hi

theorem Sys2Proof.Laws.TableRow.wrMisalignedHalf (reg : BitVec 4) (d : Sys2Proof.Word) :
    Sys2Proof.Laws.TableRow.Statement (.wrMisalignedHalf reg d) := by
  have all : ∀ x : BitVec 4, Sys2Proof.Laws.TableRow.inRow (Sys2Proof.Instr.wrMisalignedHalf x 0#32).mnemonic
      (Sys2Proof.encode (.wrMisalignedHalf x 0#32)) = true := by decide
  intro _
  exact all reg

theorem Sys2Proof.Laws.TableRow.nop : Sys2Proof.Laws.TableRow.Statement .nop := by
  intro _; decide

theorem Sys2Proof.Laws.TableRow.init : Sys2Proof.Laws.TableRow.Statement .init := by
  intro _; decide

theorem Sys2Proof.Laws.TableRow.absorb (n : BitVec 2) : Sys2Proof.Laws.TableRow.Statement (.absorb n) := by
  have all : ∀ x : BitVec 2, Sys2Proof.Laws.TableRow.inRow (Sys2Proof.Instr.absorb x).mnemonic
      (Sys2Proof.encode (.absorb x)) = true := by decide
  intro _
  exact all n

theorem Sys2Proof.Laws.TableRow.final : Sys2Proof.Laws.TableRow.Statement .final := by
  intro _; decide

theorem Sys2Proof.Laws.TableRow.cmdIllegal (w : Sys2Proof.Word) :
    Sys2Proof.Laws.TableRow.Statement (.cmdIllegal w) := by
  intro h
  have h' : Sys2Proof.legalCommandWord w = false := by simpa [Sys2Proof.Instr.wellFormed] using h
  have full : w &&& 0xFFFFFFFF#32 = w := BitVec.and_allOnes
  simp only [Sys2Proof.legalCommandWord, Bool.or_eq_false_iff] at h'
  simp only [Sys2Proof.Laws.TableRow.inRow, Sys2Proof.Instr.mnemonic, Sys2Proof.encode,
    Sys2Proof.encodeCommand, Sys2Proof.cmdTable, Sys2Proof.Row.takes, List.all_cons, List.all_nil,
    full, h'.1.1.1, h'.1.1.2, h'.1.2, h'.2]
  simp

theorem Sys2Proof.Laws.TableRow.engIdle : Sys2Proof.Laws.TableRow.Statement .engIdle := by
  intro _; decide

theorem Sys2Proof.Laws.TableRow.engSchedule : Sys2Proof.Laws.TableRow.Statement .engSchedule := by
  intro _; decide

theorem Sys2Proof.Laws.TableRow.engAdd : Sys2Proof.Laws.TableRow.Statement .engAdd := by
  intro _; decide

theorem Sys2Proof.Laws.TableRow.engRound (t : BitVec 6) : Sys2Proof.Laws.TableRow.Statement (.engRound t) := by
  have all : ∀ x : BitVec 6, Sys2Proof.Laws.TableRow.inRow (Sys2Proof.Instr.engRound x).mnemonic
      (Sys2Proof.encode (.engRound x)) = true := by decide
  intro _
  exact all t

theorem Sys2Proof.Laws.TableRow.engUnreachable03 : Sys2Proof.Laws.TableRow.Statement .engUnreachable03 := by
  intro _; decide

theorem Sys2Proof.Laws.TableRow.engUnreachable04 (lo : BitVec 2) : Sys2Proof.Laws.TableRow.Statement (.engUnreachable04 lo) := by
  have all : ∀ x : BitVec 2, Sys2Proof.Laws.TableRow.inRow (Sys2Proof.Instr.engUnreachable04 x).mnemonic
      (Sys2Proof.encode (.engUnreachable04 x)) = true := by decide
  intro _
  exact all lo

theorem Sys2Proof.Laws.TableRow.engUnreachable08 (lo : BitVec 3) : Sys2Proof.Laws.TableRow.Statement (.engUnreachable08 lo) := by
  have all : ∀ x : BitVec 3, Sys2Proof.Laws.TableRow.inRow (Sys2Proof.Instr.engUnreachable08 x).mnemonic
      (Sys2Proof.encode (.engUnreachable08 x)) = true := by decide
  intro _
  exact all lo

theorem Sys2Proof.Laws.TableRow.engUnreachable10 (lo : BitVec 4) : Sys2Proof.Laws.TableRow.Statement (.engUnreachable10 lo) := by
  have all : ∀ x : BitVec 4, Sys2Proof.Laws.TableRow.inRow (Sys2Proof.Instr.engUnreachable10 x).mnemonic
      (Sys2Proof.encode (.engUnreachable10 x)) = true := by decide
  intro _
  exact all lo

theorem Sys2Proof.Laws.TableRow.engUnreachable20 (lo : BitVec 5) : Sys2Proof.Laws.TableRow.Statement (.engUnreachable20 lo) := by
  have all : ∀ x : BitVec 5, Sys2Proof.Laws.TableRow.inRow (Sys2Proof.Instr.engUnreachable20 x).mnemonic
      (Sys2Proof.encode (.engUnreachable20 x)) = true := by decide
  intro _
  exact all lo
end

