-- ==== Sys2Proof/Tests/Slice0.lean ====
section
/-! SUPPORT. The model's own tests, and one witness for every obligation that has hypotheses. Expected
values are the spec's: the worked examples of its rules and the vectors of spec/95_test_vectors.md. -/

namespace Sys2Proof.Machine.Test

/-! ### Helpers -/

/-- The next state of an outcome, if it is one. -/
def nextState (o : Host.Outcome State Fault Refusal) : Option State :=
  match o with
  | .next t => some t
  | .fault _ => none
  | .refused _ => none

/-- The outcome is a next state with the property. -/
def endsIn (o : Host.Outcome State Fault Refusal) (p : State → Bool) : Bool := (nextState o).any p

/-- The state an outcome that passes `endsIn` stands for. -/
theorem exists_of_endsIn {o : Host.Outcome State Fault Refusal} {p : State → Bool}
    (h : endsIn o p = true) : ∃ t, o = .next t ∧ p t = true := by
  cases o with
  | next t => exact ⟨t, rfl, h⟩
  | fault f => cases h
  | refused r => cases h

/-- The first state with all that R271 asks is the one after `k` steps. -/
def endsFirstAt (issuedFinal : Bool) : Nat → State → Bool
  | 0, s => decide (s.RunEnded issuedFinal)
  | k + 1, s => !decide (s.RunEnded issuedFinal) && endsIn (step s) (endsFirstAt issuedFinal k)

theorem run_of_endsFirstAt {b : Bool} (k : Nat) {s : State} (h : endsFirstAt b k s = true) :
    ∃ t, Sys2Proof.core.run k s = .next t ∧ t.RunEnded b ∧
      ∀ j u, j < k → Sys2Proof.core.run j s = .next u → ¬ u.RunEnded b := by
  induction k generalizing s with
  | zero => exact ⟨s, rfl, of_decide_eq_true h, fun j _ hj => absurd hj (Nat.not_lt_zero j)⟩
  | succ k ih =>
    simp only [endsFirstAt, Bool.and_eq_true, Bool.not_eq_true', decide_eq_false_iff_not] at h
    obtain ⟨s', hs, hs'⟩ := exists_of_endsIn h.2
    obtain ⟨t, ht, he, hf⟩ := ih hs'
    have run (j : Nat) : Sys2Proof.core.run (j + 1) s = Sys2Proof.core.run j s' := by
      have hc : Sys2Proof.core.step s = .next s' := hs
      simp only [Host.Core.run, hc]
    refine ⟨t, (run k).trans ht, he, fun j u hj hu => ?_⟩
    cases j with
    | zero => cases hu; exact h.1
    | succ j => exact hf j u (by omega) ((run j).symm.trans hu)

theorem exists_runEndsAt (k : Nat) {s : State} (h : endsFirstAt s.issuesFinal k s = true) :
    ∃ t, RunEndsAt s k t := run_of_endsFirstAt k h

/-- The value a read returns. -/
def valueOf (i : Instr) (s : State) : Option Word := (nextState (exec i s)).map State.lastRead

/-- STATUS after an instruction. -/
def statusAfter (i : Instr) (s : State) : Option Word := (nextState (exec i s)).map State.statusWord

/-- ACCEPTING, idle, with so many bytes buffered and accepted. -/
def accepting (bufCnt : BitVec 6) (len : BitVec 64) : State :=
  { State.reset with h := iv, mode := .accepting, bufCnt := bufCnt, len := len }

/-- After `init` and `absorb.s "abc"`. -/
def accepting3 : State :=
  { accepting 3#6 3#64 with
    buf := (((Vector.replicate 64 0#8).set 0 0x61#8).set 1 0x62#8).set 2 0x63#8 }

/-- FINALIZED and idle, with the digest of "abc" (R171). -/
def finalized : State :=
  { State.reset with
    mode := .finalized
    len := 3#64
    h := #v[0xBA7816BF#32, 0x8F01CFEA#32, 0x414140DE#32, 0x5DAE2223#32,
            0xB00361A3#32, 0x96177A9C#32, 0xB410FF61#32, 0xF20015AD#32] }

/-- FAILED, as an ABSORB of 2 bytes leaves it at L = 2^61 - 2 (spec/95_test_vectors.md 2.8). -/
def failed : State :=
  { accepting 62#6 0x1FFFFFFFFFFFFFFE#64 with mode := .failed, errLen := true }

/-- A block in progress, PHASE = SCHEDULE, the padded "abc" in W and IV in H. -/
def scheduling : State :=
  { State.reset with
    mode := .finalized
    len := 3#64
    bitLen := 24#64
    h := iv
    w := ((Vector.replicate 64 0#32).set 0 0x61626380#32).set 15 0x18#32
    phase := phaseSchedule }

theorem scheduling_busy : scheduling.phase ≠ 0x00#7 := by decide

/-! ### Primitives and constants (40_primitives.md, spec/95_test_vectors.md 2.1) -/

theorem test_add32_wraps : add32 0xFFFFFFFF#32 0x00000001#32 = 0x00000000#32 := by decide

theorem test_rotr : rotr 0x12345678#32 1 = 0x091A2B3C#32 ∧ rotr 0x00000001#32 31 = 0x00000002#32 := by
  decide

theorem test_shr : shr 0xFFFFFFFF#32 31 = 0x00000001#32 ∧ shr 0x80000000#32 3 = 0x10000000#32 := by
  decide

theorem test_small_sigmas :
    smallSigma0 0x12345678#32 = 0xE7FCE6EE#32 ∧ smallSigma1 0x12345678#32 = 0xA1F78649#32 := by decide

theorem test_big_sigmas :
    bigSigma0 0x12345678#32 = 0x66146474#32 ∧ bigSigma1 0x12345678#32 = 0x3561ABDA#32 := by decide

theorem test_ch : ch 0xF0F0F0F0#32 0xFF00FF00#32 0x0F0F0F0F#32 = 0xFF0FFF0F#32 := by decide

theorem test_maj : maj 0xFFFFFFFF#32 0x12345678#32 0x9ABCDEF0#32 = 0x9ABCDEF8#32 := by decide

theorem test_be32 : be32 0x61#8 0x62#8 0x63#8 0x80#8 = 0x61626380#32 := by decide

theorem test_wordBytes : wordBytes 0x00000018#32 = [0x00#8, 0x00#8, 0x00#8, 0x18#8] := by decide

theorem test_be64 :
    be64 0xFFFFFFFFFFFFFFF8#64 =
      [0xFF#8, 0xFF#8, 0xFF#8, 0xFF#8, 0xFF#8, 0xFF#8, 0xFF#8, 0xF8#8] := by decide

theorem test_constants :
    kAt 0#6 = 0x428A2F98#32 ∧ kAt 15#6 = 0xC19BF174#32 ∧ kAt 16#6 = 0xE49B69C1#32 ∧
    kAt 63#6 = 0xC67178F2#32 ∧ kTable.length = 64 ∧ iv[7] = 0x5BE0CD19#32 := by decide

/-! ### The algorithm (R179, spec/95_test_vectors.md 1) -/

theorem test_pad_abc :
    pad [0x61#8, 0x62#8, 0x63#8] =
      [0x61#8, 0x62#8, 0x63#8, 0x80#8] ++ List.replicate 52 0x00#8 ++ List.replicate 7 0x00#8 ++
        [0x18#8] := by decide +kernel

theorem test_pad_block_counts :
    (blocks (pad (List.replicate 55 0x61#8))).length = 1 ∧
    (blocks (pad (List.replicate 56 0x61#8))).length = 2 ∧
    (blocks (pad (List.replicate 120 0x61#8))).length = 3 := by decide +kernel

theorem test_digest_of_abc :
    digestState [0x61#8, 0x62#8, 0x63#8] =
      #v[0xBA7816BF#32, 0x8F01CFEA#32, 0x414140DE#32, 0x5DAE2223#32,
         0xB00361A3#32, 0x96177A9C#32, 0xB410FF61#32, 0xF20015AD#32] := by decide +kernel

theorem test_digest_of_the_empty_message :
    digestState [] =
      #v[0xE3B0C442#32, 0x98FC1C14#32, 0x9AFBF4C8#32, 0x996FB924#32,
         0x27AE41E4#32, 0x649B934C#32, 0xA495991B#32, 0x7852B855#32] := by decide +kernel

theorem test_hex : hex [0xBA#8, 0x78#8] = ['b', 'a', '7', '8'] := by decide

/-! ### Well-formedness: ill-formed terms are refused -/

theorem test_ill_formed_terms_are_refused :
    (Instr.cmdIllegal 0x00000000#32).wellFormed = false ∧
    (Instr.cmdIllegal 0x10000000#32).wellFormed = false ∧
    (Instr.cmdIllegal 0x20000003#32).wellFormed = false ∧
    (Instr.cmdIllegal 0x30000000#32).wellFormed = false ∧
    (Instr.cmdIllegal 0x20000004#32).wellFormed = true := by decide

/-! ### Decode: words written out from the tables of R71, R81 and R85 -/

theorem test_decode_reads :
    decode (.bus 0b0000000#7 0#32) = .rdId ∧ decode (.bus 0b0000100#7 0#32) = .rdStatus ∧
    decode (.bus 0b0001000#7 0#32) = .rdCmd ∧ decode (.bus 0b0001100#7 0#32) = .rdData ∧
    decode (.bus 0b0010000#7 0#32) = .rdLenLo ∧ decode (.bus 0b0010100#7 0#32) = .rdLenHi ∧
    decode (.bus 0b0011000#7 0#32) = .rdRsvd 0#1 ∧ decode (.bus 0b0011100#7 0#32) = .rdRsvd 1#1 ∧
    decode (.bus 0b0100000#7 0#32) = .rdDigest 0#3 ∧
    decode (.bus 0b0101000#7 0#32) = .rdDigest 2#3 ∧
    decode (.bus 0b0111100#7 0#32) = .rdDigest 7#3 := by decide

theorem test_decode_misaligned_reads :
    decode (.bus 0b0000001#7 0#32) = .rdMisalignedOdd 0#5 ∧
    decode (.bus 0b0000011#7 0#32) = .rdMisalignedOdd 1#5 ∧
    decode (.bus 0b0111111#7 0#32) = .rdMisalignedOdd 31#5 ∧
    decode (.bus 0b0000010#7 0#32) = .rdMisalignedHalf 0#4 ∧
    decode (.bus 0b0111110#7 0#32) = .rdMisalignedHalf 15#4 := by decide

theorem test_decode_writes :
    decode (.bus 0b1000000#7 1#32) = .wrId 1#32 ∧ decode (.bus 0b1000100#7 2#32) = .wrStatus 2#32 ∧
    decode (.bus 0b1001000#7 3#32) = .wrCmd 3#32 ∧ decode (.bus 0b1001100#7 4#32) = .wrData 4#32 ∧
    decode (.bus 0b1010000#7 5#32) = .wrLen 0#1 5#32 ∧
    decode (.bus 0b1010100#7 6#32) = .wrLen 1#1 6#32 ∧
    decode (.bus 0b1011000#7 7#32) = .wrRsvd 0#1 7#32 ∧
    decode (.bus 0b1011100#7 8#32) = .wrRsvd 1#1 8#32 ∧
    decode (.bus 0b1100000#7 9#32) = .wrDigest 0#3 9#32 ∧
    decode (.bus 0b1111100#7 9#32) = .wrDigest 7#3 9#32 := by decide

theorem test_decode_misaligned_writes :
    decode (.bus 0b1001101#7 1#32) = .wrMisalignedOdd 6#5 1#32 ∧
    decode (.bus 0b1111111#7 1#32) = .wrMisalignedOdd 31#5 1#32 ∧
    decode (.bus 0b1001110#7 1#32) = .wrMisalignedHalf 3#4 1#32 ∧
    decode (.bus 0b1111110#7 1#32) = .wrMisalignedHalf 15#4 1#32 := by decide

theorem test_decode_commands :
    decode (.cmd 0x00000000#32) = .nop ∧ decode (.cmd 0x10000000#32) = .init ∧
    decode (.cmd 0x20000000#32) = .absorb 0#2 ∧ decode (.cmd 0x20000003#32) = .absorb 3#2 ∧
    decode (.cmd 0x30000000#32) = .final := by decide

theorem test_decode_illegal_words :
    ([0x00000001#32, 0x10000001#32, 0x10000004#32, 0x20000004#32, 0x28000000#32, 0x30000100#32,
      0x40000000#32, 0xF0000000#32, 0xFFFFFFFF#32] : List Word).all
      (fun w => decode (.cmd w) == .cmdIllegal w) = true := by decide

theorem test_decode_phases :
    decode (.phase 0b0000000#7) = .engIdle ∧ decode (.phase 0b0000001#7) = .engSchedule ∧
    decode (.phase 0b0000010#7) = .engAdd ∧ decode (.phase 0b1000000#7) = .engRound 0#6 ∧
    decode (.phase 0b1010101#7) = .engRound 21#6 ∧ decode (.phase 0b1111111#7) = .engRound 63#6 := by
  decide

theorem test_decode_unreachable_phases :
    decode (.phase 0b0000011#7) = .engUnreachable03 ∧
    decode (.phase 0b0000100#7) = .engUnreachable04 0#2 ∧
    decode (.phase 0b0000111#7) = .engUnreachable04 3#2 ∧
    decode (.phase 0b0001000#7) = .engUnreachable08 0#3 ∧
    decode (.phase 0b0001111#7) = .engUnreachable08 7#3 ∧
    decode (.phase 0b0010000#7) = .engUnreachable10 0#4 ∧
    decode (.phase 0b0011111#7) = .engUnreachable10 15#4 ∧
    decode (.phase 0b0100000#7) = .engUnreachable20 0#5 ∧
    decode (.phase 0b0111111#7) = .engUnreachable20 31#5 := by decide

theorem test_raw_words :
    decodeTableWord 8 0x3C = some (.rdDigest 7#3) ∧
    decodeTableWord 40 0x616263004C = some (.wrData 0x61626300#32) ∧
    decodeTableWord 32 0x20000003 = some (.absorb 3#2) ∧
    decodeTableWord 8 0x80 = none ∧ decodeTableWord 32 0x100000000 = none := by decide

/-! ### Reads (R191 to R199, spec/95_test_vectors.md 2.7) -/

theorem test_rdId : valueOf .rdId State.reset = some 0x53323536#32 := by decide

theorem test_rdStatus_accepting : valueOf .rdStatus accepting3 = some 0x00030004#32 := by decide

theorem test_rdStatus_busy_and_done :
    valueOf .rdStatus { finalized with phase := phaseAdd } = some 0x00000009#32 ∧
    valueOf .rdStatus finalized = some 0x0000000A#32 := by decide

theorem test_rdCmd : valueOf .rdCmd finalized = some 0x00000000#32 := by decide

theorem test_rdData :
    valueOf .rdData { State.reset with data := 0x61626300#32 } = some 0x61626300#32 := by decide

theorem test_rdLen_halves :
    valueOf .rdLenLo (accepting 5#6 0x100000005#64) = some 0x00000005#32 ∧
    valueOf .rdLenHi (accepting 5#6 0x100000005#64) = some 0x00000001#32 := by decide

theorem test_rdRsvd : valueOf (.rdRsvd 1#1) finalized = some 0x00000000#32 := by decide

theorem test_rdDigest_done :
    valueOf (.rdDigest 0#3) finalized = some 0xBA7816BF#32 ∧
    valueOf (.rdDigest 7#3) finalized = some 0xF20015AD#32 := by decide

theorem test_rdDigest_early :
    valueOf (.rdDigest 0#3) { finalized with phase := phaseAdd } = some 0x00000000#32 ∧
    valueOf (.rdDigest 0#3) accepting3 = some 0x00000000#32 := by decide

theorem test_rdMisaligned :
    valueOf (.rdMisalignedOdd 2#5) finalized = some 0x00000000#32 ∧
    valueOf (.rdMisalignedHalf 8#4) finalized = some 0x00000000#32 := by decide

/-! ### Writes (R200 to R202, spec/95_test_vectors.md 2.7) -/

theorem test_wrData :
    endsIn (exec (.wrData 0x61626300#32) State.reset)
      (fun t => t.data == 0x61626300#32 && t.statusWord == 0x00000000#32) = true := by decide

theorem test_bad_writes :
    ([.wrId 0xFFFFFFFF#32, .wrStatus 0xFFFFFFFF#32, .wrLen 0#1 5#32, .wrLen 1#1 1#32,
      .wrRsvd 0#1 0x12345678#32, .wrDigest 0#3 0xDEADBEEF#32, .wrMisalignedOdd 6#5 0x11111111#32,
      .wrMisalignedHalf 3#4 0x11111111#32] : List Instr).all
      (fun i => statusAfter i State.reset == some 0x00000800#32) = true := by decide

theorem test_wrMisaligned_leaves_DATA :
    endsIn (exec (.wrMisalignedOdd 6#5 0x11111111#32) State.reset) (fun t => t.data == 0#32) = true :=
  by decide

theorem test_wrCmd_init : statusAfter (.wrCmd 0x10000000#32) State.reset = some 0x00000004#32 := by
  decide

theorem test_wrCmd_held_while_busy :
    endsIn (exec (.wrCmd 0x10000000#32) scheduling)
      (fun t => t.held == some 0x10000000#32 && t.mode == .finalized) = true := by decide

/-! ### Commands (R203 to R207, spec/95_test_vectors.md 2.2, 2.8, 2.9) -/

theorem test_nop_in_FAILED : statusAfter .nop failed = some 0x003E040C#32 := by decide

theorem test_init_from_FAILED :
    endsIn (exec .init failed)
      (fun t => t.statusWord == 0x00000004#32 && t.len == 0#64 && t.h == iv) = true := by decide

theorem test_absorb_fills_in_the_middle :
    endsIn (exec (.absorb 3#2) { accepting 62#6 62#64 with data := 0x61626364#32 })
      (fun t => t.statusWord == 0x00020005#32 && t.len == 66#64 && t.buf[0] == 0x63#8 &&
        t.buf[1] == 0x64#8 && t.buf[63] == 0x62#8 && t.w[15] == 0x00006162#32) = true := by
  decide +kernel

theorem test_absorb_at_the_length_limit :
    statusAfter (.absorb 1#2) (accepting 62#6 0x1FFFFFFFFFFFFFFE#64) = some 0x003E040C#32 ∧
    statusAfter (.absorb 0#2) (accepting 62#6 0x1FFFFFFFFFFFFFFE#64) = some 0x003F0004#32 := by
  decide +kernel

theorem test_final_abc :
    endsIn (exec .final accepting3)
      (fun t => t.statusWord == 0x00000009#32 && t.bitLen == 24#64 && t.w[0] == 0x61626380#32 &&
        t.w[15] == 0x00000018#32 && !t.pendLen) = true := by decide +kernel

theorem test_final_of_the_largest_message :
    endsIn (exec .final (accepting 63#6 0x1FFFFFFFFFFFFFFF#64))
      (fun t => t.statusWord == 0x00000009#32 && t.bitLen == 0xFFFFFFFFFFFFFFF8#64 && t.pendLen) =
      true := by decide +kernel

theorem test_illegal_in_ACCEPTING :
    statusAfter (.cmdIllegal 0x40000000#32) accepting3 = some 0x00030104#32 := by decide

theorem test_illegal_before_the_MODE_check :
    statusAfter (.wrCmd 0x20000004#32) State.reset = some 0x00000100#32 := by decide

/-! ### Engine steps (R141, R153, R171, R86, spec/95_test_vectors.md 2.3 to 2.5) -/

theorem test_engIdle : endsIn (exec .engIdle finalized) (fun t => t == finalized) = true := by decide

theorem test_schedule_abc :
    endsIn (exec .engSchedule scheduling)
      (fun t => t.w[16] == 0x61626380#32 && t.w[17] == 0x000F0000#32 && t.w[18] == 0x7DA86405#32 &&
        t.w[63] == 0x12B1EDEB#32 && t.v == iv && t.phase == 0x40#7) = true := by decide +kernel

theorem test_schedule_all_ones :
    endsIn (exec .engSchedule { scheduling with w := Vector.replicate 64 0xFFFFFFFF#32 })
      (fun t => t.w[17] == 0x203FFFFC#32 && t.w[18] == 0x20099BE4#32 && t.w[63] == 0x4BCEAF09#32) =
      true := by decide +kernel

theorem test_round_0_of_abc :
    endsIn (exec (.engRound 0#6) { scheduling with v := iv })
      (fun t => t.phase == 0x41#7 &&
        t.v == #v[0x5D6AEBCD#32, 0x6A09E667#32, 0xBB67AE85#32, 0x3C6EF372#32,
                  0xFA2A4622#32, 0x510E527F#32, 0x9B05688C#32, 0x1F83D9AB#32]) = true := by
  decide +kernel

theorem test_round_63_of_all_ones :
    endsIn
      (exec (.engRound 63#6)
        { scheduling with v := Vector.replicate 8 0xFFFFFFFF#32,
                          w := Vector.replicate 64 0xFFFFFFFF#32 })
      (fun t => t.phase == 0x02#7 && t.v[0] == 0xC67178EC#32 && t.v[4] == 0xC67178ED#32 &&
        t.v[7] == 0xFFFFFFFF#32) = true := by decide +kernel

theorem test_add_of_abc :
    endsIn
      (exec .engAdd
        { scheduling with
          v := #v[0x506E3058#32, 0xD39A2165#32, 0x04D24D6C#32, 0xB85E2CE9#32,
                  0x5EF50F24#32, 0xFB121210#32, 0x948D25B6#32, 0x961F4894#32] })
      (fun t => t.h == finalized.h && t.phase == 0x00#7 && t.dvalid) = true := by decide +kernel

theorem test_add_loads_the_length_block :
    endsIn (exec .engAdd { scheduling with bitLen := 0x100000000#64, pendLen := true })
      (fun t => t.phase == 0x01#7 && !t.pendLen && t.w[0] == 0#32 && t.w[14] == 1#32 &&
        t.w[15] == 0#32) = true := by decide +kernel

theorem test_unreachable_phase_faults :
    exec .engUnreachable03 scheduling = .fault .unreachableSequencerState ∧
    exec (.engUnreachable20 31#5) scheduling = .fault .unreachableSequencerState := ⟨rfl, rfl⟩

/-! ### Steps and host programs (R16, R88, R89, R260) -/

/-- `absorb.s "Hello, World!"` (spec/95_test_vectors.md V3). -/
theorem test_absorbS :
    Asm.absorbS [0x48#8, 0x65#8, 0x6C#8, 0x6C#8, 0x6F#8, 0x2C#8, 0x20#8, 0x57#8, 0x6F#8, 0x72#8,
      0x6C#8, 0x64#8, 0x21#8] =
    [.bus 0x4C#7 0x48656C6C#32, .bus 0x48#7 0x20000003#32, .bus 0x4C#7 0x6F2C2057#32,
     .bus 0x48#7 0x20000003#32, .bus 0x4C#7 0x6F726C64#32, .bus 0x48#7 0x20000003#32,
     .bus 0x4C#7 0x21000000#32, .bus 0x48#7 0x20000000#32] := by decide

theorem test_pseudo_instructions :
    Asm.nop = [.bus 0x48#7 0x00000000#32] ∧ Asm.init = [.bus 0x48#7 0x10000000#32] ∧
    Asm.final = [.bus 0x48#7 0x30000000#32] ∧
    Asm.absorbB 0x61#8 = [.bus 0x4C#7 0x61000000#32, .bus 0x48#7 0x20000000#32] ∧
    Asm.waitIdle = [.poll 0x04#6 0x00000001#32 0x00000000#32] ∧
    Asm.waitDigest = [.poll 0x04#6 0x00000002#32 0x00000002#32] ∧
    Asm.readDigest = [.bus 0x20#7 0#32, .bus 0x24#7 0#32, .bus 0x28#7 0#32, .bus 0x2C#7 0#32,
      .bus 0x30#7 0#32, .bus 0x34#7 0#32, .bus 0x38#7 0#32, .bus 0x3C#7 0#32] := by decide

theorem test_step_runs_a_placed_transaction :
    endsIn (step (State.reset.withFetchWord 8 0x44)) (fun t => t.statusWord == 0x00000800#32) =
      true := by decide +kernel

theorem test_step_runs_a_placed_command :
    endsIn (step (State.reset.withFetchWord 32 0x10000000)) (fun t => t.statusWord == 0x00000004#32) =
      true := by decide +kernel

/-- Reset in mid-block (spec/95_test_vectors.md 2.10), with a write held. -/
theorem test_reset_in_mid_block :
    endsIn (step { scheduling with phase := 0x49#7, held := some 0#32, plan := [.reset] })
      (fun t => t.statusWord == 0x00000000#32 && t.len == 0#64 && t.data == 0#32 &&
        t.held == none) = true := by rfl

/-! ### Witnesses: states and operands that meet the hypotheses of the obligations -/

theorem witness_EncodeThenDecodeIsIdentity :
    (Instr.cmdIllegal 0x40000000#32).wellFormed = true ∧ (Instr.absorb 3#2).wellFormed = true := by
  decide

theorem witness_DecodeThenEncodeIsIdentity :
    ((0x7F#7).getLsbD 6 = true) ∧ encode (decode (.bus 0x7F#7 5#32)) = .bus 0x7F#7 5#32 ∧
    encode (decode (.bus 0x3F#7 0#32)) = .bus 0x3F#7 0#32 := by decide

theorem witness_CommandWordsDecodeExactly :
    (0x20000004#32 ≠ 0x00000000#32 ∧ 0x20000004#32 ≠ 0x10000000#32 ∧
      0x20000004#32 ≠ 0x30000000#32 ∧
      ∀ n : BitVec 2, 0x20000004#32 ≠ 0x20000000#32 + n.setWidth 32) ∧
    decodeCmd 0x20000003#32 = .absorb 3#2 := by decide

theorem witness_EveryPhaseCodeSelectsExactlyOneRow :
    0x7F#7 = 0x40#7 ||| (63#6).setWidth 7 ∧ 3 ≤ (0x03#7).toNat ∧ (0x3F#7).toNat ≤ 0x3F := by decide

/-- The host at its next line, PHASE IDLE, under the three forms of the plan. -/
theorem witness_HostStepRunsDecodedTransaction :
    ∃ s1 s2 s3 : State,
      (s1.held = none ∧ s1.program = [.bus 0x04#7 0#32] ∧ s1.plan = [.host] ∧
        s1.phase = phaseSchedule) ∧
      (s2.held = none ∧ s2.program = [.bus 0x04#7 0#32] ∧ s2.phase = 0x00#7 ∧
        s2.plan = [.engine]) ∧
      (s3.held = none ∧ s3.program = [.bus 0x04#7 0#32] ∧ s3.phase = 0x00#7 ∧ s3.plan = []) :=
  ⟨{ scheduling with program := [.bus 0x04#7 0#32], plan := [.host] },
   { finalized with program := [.bus 0x04#7 0#32], plan := [.engine] },
   { finalized with program := [.bus 0x04#7 0#32] },
   ⟨rfl, rfl, rfl, rfl⟩, ⟨rfl, rfl, rfl, rfl⟩, ⟨rfl, rfl, rfl, rfl⟩⟩

theorem witness_NextStepRunsPlacedWord :
    decodeTableWord 8 0x3C = some (.rdDigest 7#3) ∧
    decodeTableWord 32 0x20000003 = some (.absorb 3#2) := by decide

/-- The engine with PHASE not IDLE, under the three forms of the plan. -/
theorem witness_EngineStepRunsPhaseInstruction :
    ∃ s1 s2 s3 : State,
      (s1.phase ≠ 0x00#7 ∧ s1.plan = [.engine] ∧ s1.program ≠ []) ∧
      (s2.phase ≠ 0x00#7 ∧ s2.held ≠ none ∧ s2.plan = [.host]) ∧
      (s3.phase ≠ 0x00#7 ∧ s3.program = [] ∧ s3.held = none ∧ s3.plan = []) :=
  ⟨{ scheduling with program := [.bus 0x04#7 0#32], plan := [.engine] },
   { scheduling with held := some 0#32, plan := [.host] },
   scheduling, ⟨by decide, rfl, by decide⟩, ⟨by decide, by decide, rfl⟩,
   ⟨by decide, rfl, rfl, rfl⟩⟩

theorem witness_EitherEnabledAgentMayTakeTheStep :
    ∃ s : State, s.held = none ∧ s.program = [.bus 0x04#7 0#32] ∧ s.phase ≠ 0x00#7 ∧ s.plan = [] :=
  ⟨{ scheduling with program := [.bus 0x04#7 0#32] }, rfl, rfl, by decide, rfl⟩

/-- A held write with PHASE not IDLE and with PHASE IDLE, under the three forms of the plan. -/
theorem witness_HeldWriteCompletesOnlyWhenIdle :
    ∀ plan ∈ [[], [Turn.host], [Turn.engine]],
      ∃ s1 s2 : State, (s1.held = some 0#32 ∧ s1.plan = plan ∧ s1.phase ≠ 0x00#7) ∧
        (s2.held = some 0#32 ∧ s2.plan = plan ∧ s2.phase = 0x00#7) := fun plan _ =>
  ⟨{ scheduling with held := some 0#32, plan := plan },
   { finalized with held := some 0#32, plan := plan }, ⟨rfl, rfl, scheduling_busy⟩, rfl, rfl, rfl⟩

theorem witness_IdleKeepsEveryItem :
    finalized.phase = 0x00#7 ∧ finalized.program = [] ∧ finalized.held = none ∧
      finalized.plan = [] := by decide

/-- A poll whose condition holds, and one whose condition does not (`wait.digest`, R89). -/
theorem witness_PollReadsUntilTheMaskedValueMatches :
    endsIn (step { finalized with program := Asm.waitDigest, plan := [.host] })
      (fun t => t.program == [] && t.reads == [0x0000000A#32]) = true ∧
    endsIn (step { scheduling with program := Asm.waitDigest, plan := [.host] })
      (fun t => t.program == Asm.waitDigest && t.reads == [0x00000009#32]) = true := by
  decide +kernel

/-- The window's first and last byte address, and the first one above it. -/
theorem witness_WindowAccessReachesItsOffset :
    ∃ first last above : Nat,
      (Config.base ≤ first ∧ first < Config.base + 64 ∧ first - Config.base = 0) ∧
      (Config.base ≤ last ∧ last < Config.base + 64 ∧ last - Config.base = 63) ∧
      (above < Config.base ∨ Config.base + 64 ≤ above) :=
  ⟨Config.base, Config.base + 63, Config.base + 64, by omega, by omega, by omega⟩

theorem witness_OtherWidthsAndSecondHostAreRefused :
    Config.base ≤ Config.base ∧ Config.base < Config.base + 64 ∧ 1 ≠ 0 ∧ 8 ≠ 32 := by omega

theorem witness_ConstantReadsReturnTheirConstant :
    ((0x3F#7).getLsbD 6 = false ∧ (0x3F#7).getLsbD 0 = true) ∧
    ((0x3E#7).getLsbD 6 = false ∧ (0x3E#7).getLsbD 0 = false ∧ (0x3E#7).getLsbD 1 = true) := by
  decide

theorem witness_DataAndLengthReadsReturnTheRegister :
    (accepting 63#6 0x1FFFFFFFFFFFFFFF#64).len.toNat = 2 ^ 61 - 1 := by decide

theorem witness_StatusReadReturnsEveryField :
    State.reset.mode = .uninit ∧ accepting3.mode = .accepting ∧ finalized.mode = .finalized ∧
      failed.mode = .failed := by decide

theorem witness_DigestReadIsGatedByDvalid :
    (finalized.mode = .finalized ∧ finalized.phase = 0x00#7) ∧ accepting3.mode ≠ .finalized ∧
      scheduling.phase ≠ 0x00#7 := by decide

theorem witness_DigestRegistersSerializeToTheDigest :
    finalized.mode = .finalized ∧ finalized.phase = 0x00#7 ∧
      (ser finalized.h)[0]? = some 0xBA#8 ∧ (ser finalized.h)[31]? = some 0xAD#8 := by
  decide +kernel

theorem witness_BadWritesOnlySetErrBus :
    (0x7F#7).getLsbD 6 = true ∧ 0x7F#7 ≠ 0x48#7 ∧ 0x7F#7 ≠ 0x4C#7 := by decide

theorem witness_CommandIsHeldWhileBusy : scheduling.phase ≠ 0x00#7 := by decide

theorem witness_CommandWritePerformsItsCommandWhenIdle : accepting3.phase = 0x00#7 := by decide

theorem witness_NopChangesNothing : failed.phase = 0x00#7 := by decide

theorem witness_InitStartsASession : finalized.phase = 0x00#7 := by decide

theorem witness_AbsorbRefusals :
    (finalized.phase = 0x00#7 ∧ finalized.mode ≠ .accepting) ∧
    ∃ s : State, s.phase = 0x00#7 ∧ s.mode = .accepting ∧ s.len.toNat = 2 ^ 61 - 1 ∧
      s.len.toNat + ((0#2).toNat + 1) > 2 ^ 61 - 1 :=
  ⟨by decide, accepting 63#6 0x1FFFFFFFFFFFFFFF#64, rfl, rfl, by decide, by decide⟩

theorem witness_AbsorbAppendsItsBytes :
    ∃ s : State, s.phase = 0x00#7 ∧ s.mode = .accepting ∧
      s.len.toNat + ((3#2).toNat + 1) = 2 ^ 61 - 1 ∧ s.bufCnt.toNat + ((3#2).toNat + 1) = 63 :=
  ⟨accepting 59#6 0x1FFFFFFFFFFFFFFB#64, rfl, rfl, by decide, by decide⟩

theorem witness_AbsorbThatFillsTheBufferLoadsTheBlock :
    ∃ s : State, s.phase = 0x00#7 ∧ s.mode = .accepting ∧
      s.len.toNat + ((3#2).toNat + 1) ≤ 2 ^ 61 - 1 ∧ s.bufCnt.toNat + ((3#2).toNat + 1) = 64 :=
  ⟨accepting 60#6 60#64, rfl, rfl, by decide, by decide⟩

theorem witness_FinalPadsTheTail :
    (State.reset.phase = 0x00#7 ∧ State.reset.mode ≠ .accepting) ∧ accepting3.phase = 0x00#7 ∧
      accepting3.mode = .accepting := by decide

theorem witness_IllegalCommandOnlySetsErrCmd :
    accepting3.phase = 0x00#7 ∧ 0x30000100#32 ≠ 0x00000000#32 ∧ 0x30000100#32 ≠ 0x10000000#32 ∧
      0x30000100#32 ≠ 0x30000000#32 ∧
      ∀ n : BitVec 2, 0x30000100#32 ≠ 0x20000000#32 + n.setWidth 32 := by decide

theorem witness_RoundStepUpdatesTheWorkingVariables :
    ∃ s : State, s.v = #v[0x6A09E667#32, 0xBB67AE85#32, 0x3C6EF372#32, 0xA54FF53A#32,
      0x510E527F#32, 0x9B05688C#32, 0x1F83D9AB#32, 0x5BE0CD19#32] :=
  ⟨{ scheduling with v := iv }, rfl⟩

theorem witness_AddStepFeedsForward :
    scheduling.pendLen = false ∧ { scheduling with pendLen := true }.pendLen = true := by decide

theorem witness_UnreachablePhaseCodesFault :
    (3 ≤ (0x03#7).toNat ∧ (0x3F#7).toNat ≤ 0x3F) ∧ scheduling.PhaseLegal ∧
      ∃ t, step scheduling = .next t :=
  ⟨by decide, by decide, by
    obtain ⟨t, ht, _⟩ := exists_of_endsIn (o := step scheduling) (p := fun _ => true)
      (by decide +kernel)
    exact ⟨t, ht⟩⟩

theorem witness_ResetGivesTheSpecifiedItems :
    ∃ s : State, s.plan = [.reset] ∧ s.held = some 0#32 ∧ s.phase ≠ 0x00#7 :=
  ⟨{ scheduling with held := some 0#32, plan := [.reset] }, rfl, rfl, by decide⟩

/-- Two reset states that differ in H and W, and a program that runs a session and reads. -/
theorem witness_UnspecifiedResetItemsAreUnobservable :
    ∃ s t : State, s.mode = .uninit ∧ s.phase = 0x00#7 ∧ s.h ≠ t.h ∧
      { t with h := s.h, v := s.v, w := s.w, buf := s.buf, bitLen := s.bitLen } = s ∧
      ∃ s', Sys2Proof.core.run 2 s = .next s' ∧ s'.mode = .accepting := by
  refine ⟨{ State.reset with program := Asm.init ++ Asm.rd 0x20#6 },
    { State.reset with program := Asm.init ++ Asm.rd 0x20#6, h := Vector.replicate 8 1#32 },
    rfl, rfl, by decide, rfl, ?_⟩
  obtain ⟨t, ht, hp⟩ := exists_of_endsIn
    (o := Sys2Proof.core.run 2 { State.reset with program := Asm.init ++ Asm.rd 0x20#6 })
    (p := fun t => t.mode == .accepting) (by decide +kernel)
  exact ⟨t, ht, by simpa using hp⟩

theorem witness_EveryStepKeepsTheInvariants :
    scheduling.Inv ∧ ∃ t, step scheduling = .next t :=
  ⟨by decide, witness_UnreachablePhaseCodesFault.2.2⟩

theorem witness_EveryReachableStateMeetsTheInvariants :
    ∃ s, Sys2Proof.core.run 2 { State.reset with program := Asm.init ++ Asm.final } = .next s ∧
      s.phase ≠ 0x00#7 := by
  obtain ⟨t, ht, hp⟩ := exists_of_endsIn
    (o := Sys2Proof.core.run 2 { State.reset with program := Asm.init ++ Asm.final })
    (p := fun t => t.phase != 0x00#7) (by decide +kernel)
  exact ⟨t, ht, by simpa using hp⟩

theorem witness_NoStepFaultsUnderTheInvariants : accepting3.Inv ∧ failed.Inv := by decide

theorem witness_NoTransactionDisturbsABlockInProgress :
    scheduling.phase ≠ 0x00#7 ∧
      ∃ t, exec (decodeBus 0x4C#7 7#32) scheduling = .next t ∧ t.data ≠ scheduling.data :=
  ⟨by decide, _, rfl, by decide⟩

/-- One writer of each of H, V, W and DATA. -/
theorem witness_OnlyTheNamedInstructionsWriteTheDatapath :
    endsIn (exec .init finalized) (fun t => t.h != finalized.h) = true ∧
    endsIn (exec .engSchedule scheduling) (fun t => t.v != scheduling.v) = true ∧
    endsIn (exec .final accepting3) (fun t => t.w != accepting3.w) = true ∧
    endsIn (exec (.wrData 1#32) scheduling) (fun t => t.data != scheduling.data) = true := by
  decide +kernel

/-- One writer of each of BUF, BUFCNT, L, BITLEN and PEND_LEN. -/
theorem witness_OnlyTheNamedInstructionsWriteThePaddingUnit :
    endsIn (exec (.absorb 0#2) { accepting3 with data := 0x64000000#32 })
      (fun t => t.buf != accepting3.buf && t.bufCnt != accepting3.bufCnt && t.len != accepting3.len) =
      true ∧
    endsIn (exec .final accepting3) (fun t => t.bitLen != accepting3.bitLen) = true ∧
    endsIn (exec .engAdd { scheduling with pendLen := true }) (fun t => !t.pendLen) = true := by
  decide +kernel

/-- The three transitions of MODE. -/
theorem witness_ModeChangesOnlyByItsTransitions :
    endsIn (exec .init failed) (fun t => t.mode == .accepting) = true ∧
    endsIn (exec (.wrCmd 0x30000000#32) accepting3) (fun t => t.mode == .finalized) = true ∧
    endsIn (exec (.absorb 0#2) (accepting 63#6 0x1FFFFFFFFFFFFFFF#64))
      (fun t => t.mode == .failed) = true := by decide +kernel

/-- One setter of each flag, from a state with no flag set. -/
theorem witness_OnlyTheListedTransactionsSetFlags :
    endsIn (exec (.wrCmd 0x40000000#32) accepting3) (fun t => t.errCmd) = true ∧
    endsIn (exec .final finalized) (fun t => t.errSeq) = true ∧
    endsIn (exec (.absorb 0#2) (accepting 63#6 0x1FFFFFFFFFFFFFFF#64)) (fun t => t.errLen) = true ∧
    endsIn (exec (.wrId 0#32) scheduling) (fun t => t.errBus) = true := by decide +kernel

/-- A flag that stays, a flag that INIT clears, and a flag that is set. -/
theorem witness_FlagsAreStickyAndSetOneAtATime :
    failed.err .len = true ∧
    endsIn (exec .final failed) (fun t => t.err .len && t.err .seq && !failed.err .seq) = true ∧
    endsIn (exec .init failed) (fun t => !t.err .len) = true := by decide +kernel

/-- A refused FINAL, an INIT at the head of the program, an INIT held, and a reset. -/
theorem witness_DigestStaysReadable :
    finalized.dvalid = true ∧
    endsIn (step { finalized with program := Asm.final })
      (fun t => t.errSeq && t.h == finalized.h && t.dvalid) = true ∧
    ({ finalized with program := Asm.final }.hostPerforms .init = false ∧
      { finalized with program := Asm.init }.hostPerforms .init = true ∧
      { finalized with held := some 0x10000000#32 }.hostPerforms .init = true) ∧
    endsIn (step { finalized with program := Asm.init }) (fun t => t.mode == .accepting) = true ∧
    endsIn (step { finalized with held := some 0x10000000#32 }) (fun t => t.mode == .accepting) =
      true ∧
    endsIn (step { finalized with plan := [.reset] }) (fun t => t.mode == .uninit) = true := by
  decide +kernel

/-- A step that leaves MODE FAILED, an INIT, and a reset. -/
theorem witness_FailedSessionShowsNoDigest :
    failed.mode = .failed ∧ failed.phase = 0x00#7 ∧
    endsIn (step { failed with program := Asm.final }) (fun t => t.mode == .failed && t.errSeq) =
      true ∧
    { failed with program := Asm.init }.hostPerforms .init = true ∧
    endsIn (step { failed with program := Asm.init })
      (fun t => t.mode == .accepting && t.len == 0#64) = true ∧
    endsIn (step { failed with plan := [.reset] }) (fun t => t.mode == .uninit) = true := by
  decide +kernel

theorem witness_EngineReturnsToIdleAfter66Or132Steps :
    scheduling.phase = 0x01#7 ∧ scheduling.pendLen = false ∧
      { scheduling with pendLen := true }.phase = 0x01#7 := by decide

theorem witness_BlockStepsComputeCompress :
    scheduling.phase = 0x01#7 ∧ ∃ blk : List Byte, blk.length = 64 ∧
      ∀ k, k < 16 → wordAt scheduling.w k = blockWord blk k :=
  ⟨rfl, [0x61#8, 0x62#8, 0x63#8, 0x80#8] ++ List.replicate 59 0x00#8 ++ [0x18#8], by decide,
    by decide +kernel⟩

/-- The empty message and "abc" (R122). -/
theorem witness_FinalBlocksAgreeWithPad :
    ∃ m : List Byte, m.length = 3 ∧ m.length ≤ 2 ^ 61 - 1 ∧ accepting3.len.toNat = m.length ∧
      accepting3.bufCnt.toNat = m.length % 64 ∧
      ∀ j, j < m.length % 64 → accepting3.buf[j]? = m[64 * (m.length / 64) + j]? :=
  ⟨[0x61#8, 0x62#8, 0x63#8], rfl, by decide, by decide, by decide, by decide +kernel⟩

/-- `absorb.s "abc"` with a read, a bad write and an illegal word in between (R175). -/
def abcBody : Transactions :=
  [(0x4C#7, 0x61626300#32), (0x04#7, 0#32), (0x40#7, 1#32), (0x48#7, 0x40000000#32),
   (0x48#7, 0x20000002#32)]

theorem witness_SessionComputesSha256 :
    ∃ s : State, abcBody.inSession = true ∧ s.phase = 0x00#7 ∧ s.held = none ∧
      s.program = abcBody.session ∧ Turn.reset ∉ s.plan ∧
      abcBody.absorbed s.data = [0x61#8, 0x62#8, 0x63#8] :=
  ⟨{ State.reset with program := abcBody.session, plan := [.host, .engine] },
   by decide, rfl, rfl, rfl, by decide, by decide⟩

/-- A session that has ended: the 7 host steps, then the 66 of the block (spec/95_test_vectors.md P1). -/
theorem witness_SessionTakes66StepsPerBlock :
    ∃ s t : State, s.phase = 0x00#7 ∧ s.held = none ∧ s.program = abcBody.session ∧
      Turn.reset ∉ s.plan ∧ (abcBody.absorbed s.data).length ≤ 2 ^ 61 - 1 ∧ RunEndsAt s 73 t := by
  obtain ⟨t, ht⟩ := exists_runEndsAt 73
    (s := { State.reset with program := abcBody.session, plan := List.replicate 7 .host })
    (by decide +kernel)
  exact ⟨_, t, rfl, rfl, rfl, by decide, by decide, ht⟩

theorem witness_RotrChAndMajBitByBit : 0 < 1 ∧ 31 < 32 ∧ (rotr 0x00000001#32 1).getLsbD 31 = true := by
  decide

/-- The host at a platform access, under the forms of the plan, PHASE IDLE and not. -/
theorem witness_HostStepRunsTheNextLine :
    ∀ acc : PlatformAccess, ∃ s1 s2 s3 s4 : State,
      (s1.held = none ∧ s1.program = [.mem acc] ∧ s1.plan = [.host] ∧ s1.phase ≠ 0x00#7) ∧
      (s2.held = none ∧ s2.program = [.mem acc] ∧ s2.phase = 0x00#7 ∧ s2.plan = [.engine]) ∧
      (s3.held = none ∧ s3.program = [.mem acc] ∧ s3.phase = 0x00#7 ∧ s3.plan = []) ∧
      (s4.held = none ∧ s4.program = [.mem acc] ∧ s4.phase ≠ 0x00#7 ∧ s4.plan = []) := fun acc =>
  ⟨{ scheduling with program := [.mem acc], plan := [.host] },
   { finalized with program := [.mem acc], plan := [.engine] },
   { finalized with program := [.mem acc] }, { scheduling with program := [.mem acc] },
   ⟨rfl, rfl, rfl, scheduling_busy⟩, ⟨rfl, rfl, rfl, rfl⟩, ⟨rfl, rfl, rfl, rfl⟩, rfl, rfl,
   scheduling_busy, rfl⟩

/-- The first PHASE code of a block and the last, with and without a length block to come and a held
write. -/
theorem witness_BlockEndsWhateverTheHostDoes :
    (scheduling.PhaseLegal ∧ scheduling.phase ≠ 0x00#7 ∧ Turn.reset ∉ scheduling.plan ∧
      scheduling.engineStepsLeft = 66) ∧
    ∃ s : State, s.PhaseLegal ∧ s.phase = 0x02#7 ∧ s.pendLen = true ∧ s.held = some 0#32 ∧
      s.plan = [.host, .engine] ∧ s.engineStepsLeft = 67 :=
  ⟨by decide, { scheduling with
    phase := 0x02#7, pendLen := true, held := some 0#32, plan := [.host, .engine] },
   by decide, rfl, rfl, rfl, rfl, by decide⟩

theorem witness_WaitForDigestEnds :
    ∃ s : State, s.PhaseLegal ∧ s.phase ≠ 0x00#7 ∧ s.mode = .finalized ∧ s.held = none ∧
      s.program = Asm.waitDigest ++ Asm.readDigest ∧ Turn.reset ∉ s.plan :=
  ⟨{ scheduling with program := Asm.waitDigest ++ Asm.readDigest, plan := [.host, .engine] },
   by decide, by decide, rfl, rfl, rfl, by decide⟩

/-- A state with what R271 asks and turns of both agents to come; and the ends of two runs, one of a program
that issues FINAL, after the FINAL's 66 engine steps, and one of a program that does not. -/
theorem witness_EndedRunChangesNoMore :
    (∃ s : State, s.RunEnded true ∧ s.plan = [.host, .engine] ∧ Turn.reset ∉ s.plan) ∧
    (∃ s t : State, s.issuesFinal = true ∧ RunEndsAt s 67 t ∧ Turn.reset ∉ t.plan) ∧
    ∃ s t : State, s.issuesFinal = false ∧ RunEndsAt s 1 t ∧ Turn.reset ∉ t.plan := by
  have ends (k : Nat) (s : State) (h : endsFirstAt s.issuesFinal k s = true)
      (hp : endsIn (Sys2Proof.core.run k s) (fun t => t.plan == []) = true) :
      ∃ t, RunEndsAt s k t ∧ Turn.reset ∉ t.plan := by
    obtain ⟨t, ht⟩ := exists_runEndsAt k h
    obtain ⟨u, hu, hn⟩ := exists_of_endsIn hp
    cases ht.1.symm.trans hu
    simp only [beq_iff_eq] at hn
    exact ⟨t, ht, by rw [hn]; exact List.not_mem_nil⟩
  obtain ⟨t, ht⟩ := ends 67 { accepting3 with program := Asm.final } (by decide +kernel)
    (by decide +kernel)
  obtain ⟨u, hu⟩ := ends 1 { accepting3 with program := Asm.nop } (by decide +kernel)
    (by decide +kernel)
  exact ⟨⟨{ finalized with plan := [.host, .engine] }, by decide, rfl, by decide⟩,
    ⟨_, t, by decide, ht⟩, _, u, by decide, hu⟩

end Sys2Proof.Machine.Test
end

/-! ## Which instruction a step runs (00_scope.md R14, R16; 45_host_interface.md R190)

Where the plan gives a turn to an agent, or names none, the step is a move of the host or of the
engine, on the state with that turn taken off. `turnOf` settles who moves (Laws/Step.lean); here the
move is named for every form of the plan but a reset. -/

namespace Sys2Proof.Machine

/-! ### What the host's move is -/

theorem hostMove_held {s : State} {d : Word} (hh : s.held = some d) :
    hostMove s = exec (.wrCmd d) s := by
  simp only [hostMove, hh]

theorem hostMove_next_line {s : State} {l : HostLine} {rest : List HostLine}
    (hh : s.held = none) (hp : s.program = l :: rest) :
    hostMove s = l.run { s with program := rest } := by
  simp only [hostMove, hh, hp]

/-- While PHASE is not IDLE, a host that is done or has a write held cannot move (R14). -/
theorem State.hostEnabled_false_of_busy {s : State} (hb : s.busy = true)
    (h : s.program = [] ∨ s.held ≠ none) : s.hostEnabled = false := by
  cases hh : s.held with
  | none => exact s.hostEnabled_done hh (h.resolve_right (absurd hh))
  | some d => rw [State.hostEnabled_of_held hh, hb]; rfl

/-- Once PHASE is IDLE a host with a write held can move (R14, R201). -/
theorem State.hostEnabled_of_held_idle {s : State} {d : Word} (hh : s.held = some d)
    (hb : s.busy = false) : s.hostEnabled = true := by
  rw [State.hostEnabled_of_held hh, hb]; rfl

/-! ### Who moves, under each form of the plan -/

/-- A turn the plan gives to an agent is a turn of some preferred agent. -/
theorem step_agent_turn {s : State} {ps : List Turn}
    (h : s.plan = .host :: ps ∨ s.plan = .engine :: ps) :
    ∃ a, step s = turnOf a { s with plan := ps } :=
  h.elim (fun h => ⟨.host, step_plan_host h⟩) (fun h => ⟨.engine, step_plan_engine h⟩)

theorem step_host_turn {s : State} {ps : List Turn} (h : s.plan = .host :: ps)
    (he : s.hostEnabled = true) : step s = hostMove { s with plan := ps } :=
  (step_plan_host h).trans (turnOf_host he)

theorem step_engine_turn {s : State} {ps : List Turn} (h : s.plan = .engine :: ps)
    (hb : s.busy = true) : step s = engineMove { s with plan := ps } :=
  (step_plan_engine h).trans (turnOf_engine hb)

/-- With PHASE IDLE an enabled host moves, whichever agent the plan names. -/
theorem step_agent_turn_idle {s : State} {ps : List Turn}
    (h : s.plan = .host :: ps ∨ s.plan = .engine :: ps) (he : s.hostEnabled = true)
    (hb : s.busy = false) : step s = hostMove { s with plan := ps } := by
  obtain ⟨a, ha⟩ := step_agent_turn h
  exact ha.trans (turnOf_idle a he hb)

/-- With the host unable to move the engine does, whichever agent the plan names. -/
theorem step_agent_turn_blocked {s : State} {ps : List Turn}
    (h : s.plan = .host :: ps ∨ s.plan = .engine :: ps) (he : s.hostEnabled = false) :
    step s = engineMove { s with plan := ps } := by
  obtain ⟨a, ha⟩ := step_agent_turn h
  exact ha.trans (turnOf_blocked a he)

theorem step_no_turn_idle {s : State} (h : s.plan = []) (he : s.hostEnabled = true)
    (hb : s.busy = false) : step s = hostMove s :=
  (step_plan_nil h (.inr hb)).trans (turnOf_idle .engine he hb)

theorem step_no_turn_blocked {s : State} (h : s.plan = []) (he : s.hostEnabled = false) :
    step s = engineMove s :=
  (step_plan_nil h (.inl he)).trans (turnOf_blocked .engine he)

/-- Where both agents may move and the plan names neither, the opaque choice is one of the two moves,
with one draw taken (R16). -/
theorem step_no_turn_contested {s : State} (h : s.plan = []) (he : s.hostEnabled = true)
    (hb : s.busy = true) :
    step s = hostMove { s with draws := s.draws + 1 } ∨
    step s = engineMove { s with draws := s.draws + 1 } := by
  have hs := step_plan_nil_contested h he hb
  have drawn : s.withSchedule [] (s.draws + 1) = { s with draws := s.draws + 1 } := by
    rw [← h]; rfl
  rw [drawn] at hs
  cases hc : hostMoves s.draws <;> rw [hc] at hs
  · exact .inr (hs.trans (turnOf_engine hb))
  · exact .inl (hs.trans (turnOf_host he))

/-! ### The obligations -/

/-- Settles O57: a host with a line next is enabled, so each form of the plan names its move. -/
theorem hostStepRunsTheNextLine : Obligations.HostStepRunsTheNextLine := by
  intro s l rest hh hp
  have he : s.hostEnabled = true := State.hostEnabled_of_program hh (by simp [hp])
  have idle (hi : s.phase = phaseIdle) : s.busy = false := s.busy_eq_false_iff.2 hi
  refine ⟨fun ps h => ?hostTurn, fun ps hi h => ?engineTurn, fun hi h => ?noTurn,
    fun hi h => ?contested⟩
  case hostTurn => exact (step_host_turn h he).trans (hostMove_next_line hh hp)
  case engineTurn =>
    exact (step_agent_turn_idle (.inr h) he (idle hi)).trans (hostMove_next_line hh hp)
  case noTurn => exact (step_no_turn_idle h he (idle hi)).trans (hostMove_next_line hh hp)
  case contested =>
    exact (step_no_turn_contested h he (s.busy_eq_true_iff.2 hi)).imp_left
      fun hm => hm.trans (hostMove_next_line hh hp)

/-- Settles O7: O57 for a line that is a transaction, whose run is `exec` of what it decodes to. -/
theorem hostStepRunsDecodedTransaction : Obligations.HostStepRunsDecodedTransaction := by
  intro s a d rest hh hp
  obtain ⟨hostTurn, engineTurn, noTurn, -⟩ := hostStepRunsTheNextLine s (.bus a d) rest hh hp
  exact ⟨hostTurn, engineTurn, noTurn⟩

/-- Settles O10: the contested clause of O57 for a line that is a transaction. -/
theorem eitherEnabledAgentMayTakeTheStep : Obligations.EitherEnabledAgentMayTakeTheStep := by
  intro s a d rest hh hp
  obtain ⟨-, -, -, contested⟩ := hostStepRunsTheNextLine s (.bus a d) rest hh hp
  exact contested

/-- Settles O9: the engine moves on its own turn, and on any turn in which the host cannot. -/
theorem engineStepRunsPhaseInstruction : Obligations.EngineStepRunsPhaseInstruction := by
  intro s hi
  have hb : s.busy = true := s.busy_eq_true_iff.2 hi
  refine ⟨fun ps h => step_engine_turn h hb, fun ps hn h => ?_, fun hn h => ?_⟩
  · exact step_agent_turn_blocked (.inl h) (State.hostEnabled_false_of_busy hb hn)
  · exact step_no_turn_blocked h (State.hostEnabled_false_of_busy hb (hn.imp_left And.left))

/-- Settles O11: a held write blocks the host until PHASE is IDLE, and is then the host's move. -/
theorem heldWriteCompletesOnlyWhenIdle : Obligations.HeldWriteCompletesOnlyWhenIdle := by
  intro s d hh
  have blocked (hi : s.phase ≠ phaseIdle) : s.hostEnabled = false :=
    State.hostEnabled_false_of_busy (s.busy_eq_true_iff.2 hi) (.inr (by simp [hh]))
  have idle (hi : s.phase = phaseIdle) : s.busy = false := s.busy_eq_false_iff.2 hi
  have enabled (hi : s.phase = phaseIdle) : s.hostEnabled = true :=
    State.hostEnabled_of_held_idle hh (idle hi)
  refine ⟨fun h => ⟨fun hi => ?_, fun hi => ?_⟩, fun ps h => ⟨fun hi => ?_, fun hi => ?_⟩⟩
  · exact step_no_turn_blocked h (blocked hi)
  · exact (step_no_turn_idle h (enabled hi) (idle hi)).trans (hostMove_held hh)
  · exact step_agent_turn_blocked h (blocked hi)
  · exact (step_agent_turn_idle h (enabled hi) (idle hi)).trans (hostMove_held hh)

end Sys2Proof.Machine

/-! ## Who writes which item (10_state.md R21 to R33, R46) -/

namespace Sys2Proof.Machine

/-! ### What ABSORB and FINAL leave alone -/

/-- ABSORB writes the buffer, its counts, W and PHASE, or else MODE and a flag (R205). -/
theorem State.absorb_frame (n : BitVec 2) (s : State) :
    { s.absorb n with
      buf := s.buf, len := s.len, bufCnt := s.bufCnt, w := s.w, phase := s.phase, mode := s.mode,
      errSeq := s.errSeq, errLen := s.errLen } = s := by
  rcases State.absorb_inversion n s with ⟨-, h⟩ | ⟨-, -, h⟩ | ⟨-, -, _, _, _, _, _, h⟩
  · rw [h]; rfl
  · rw [h]; rfl
  · rw [h]

/-- FINAL writes what PAD_TAIL does and MODE, or else a flag (R206, R125). -/
theorem State.finish_frame (s : State) :
    { s.finish with
      bitLen := s.bitLen, pendLen := s.pendLen, bufCnt := s.bufCnt, w := s.w, phase := s.phase,
      mode := s.mode, errSeq := s.errSeq } = s := by
  rcases State.finish_cases s with ⟨-, h⟩ | ⟨-, h⟩
  · rw [h]; rfl
  · rw [h]

@[simp] theorem State.absorb_h (n : BitVec 2) (s : State) : (s.absorb n).h = s.h :=
  (congrArg State.h (s.absorb_frame n) :)
@[simp] theorem State.absorb_v (n : BitVec 2) (s : State) : (s.absorb n).v = s.v :=
  (congrArg State.v (s.absorb_frame n) :)
@[simp] theorem State.absorb_data (n : BitVec 2) (s : State) : (s.absorb n).data = s.data :=
  (congrArg State.data (s.absorb_frame n) :)
@[simp] theorem State.absorb_bitLen (n : BitVec 2) (s : State) : (s.absorb n).bitLen = s.bitLen :=
  (congrArg State.bitLen (s.absorb_frame n) :)
@[simp] theorem State.absorb_pendLen (n : BitVec 2) (s : State) :
    (s.absorb n).pendLen = s.pendLen :=
  (congrArg State.pendLen (s.absorb_frame n) :)

@[simp] theorem State.finish_h (s : State) : s.finish.h = s.h :=
  (congrArg State.h s.finish_frame :)
@[simp] theorem State.finish_v (s : State) : s.finish.v = s.v :=
  (congrArg State.v s.finish_frame :)
@[simp] theorem State.finish_data (s : State) : s.finish.data = s.data :=
  (congrArg State.data s.finish_frame :)
@[simp] theorem State.finish_buf (s : State) : s.finish.buf = s.buf :=
  (congrArg State.buf s.finish_frame :)
@[simp] theorem State.finish_len (s : State) : s.finish.len = s.len :=
  (congrArg State.len s.finish_frame :)

/-! ### The writers of each item

One lemma per item: the effects that write it say which instruction they are of, ABSORB and FINAL
have their frames, and every other effect is an update that does not name the item. -/

section
variable {i : Instr} {s t : State}

theorem Effect.writer_of_h (e : Effect i s t) (ne : t.h ≠ s.h) :
    i.performed = .init ∨ i = .engAdd := by
  cases e with
  | init _ does => exact .inl does
  | addPending isAdd => exact .inr isAdd
  | addLast isAdd => exact .inr isAdd
  | absorb _ n => exact absurd (State.absorb_h n _) ne
  | final => exact absurd (State.finish_h _) ne
  | _ => exact absurd rfl ne

theorem Effect.writer_of_v (e : Effect i s t) (ne : t.v ≠ s.v) :
    i = .engSchedule ∨ ∃ k, i = .engRound k := by
  cases e with
  | schedule isSchedule => exact .inl isSchedule
  | round k isRound => exact .inr ⟨k, isRound⟩
  | absorb _ n => exact absurd (State.absorb_v n _) ne
  | final => exact absurd (State.finish_v _) ne
  | _ => exact absurd rfl ne

theorem Effect.writer_of_w (e : Effect i s t) (ne : t.w ≠ s.w) :
    i = .engSchedule ∨ i = .engAdd ∨ i.performed = .final ∨ ∃ n, i.performed = .absorb n := by
  cases e with
  | schedule isSchedule => exact .inl isSchedule
  | addPending isAdd => exact .inr (.inl isAdd)
  | final _ does => exact .inr (.inr (.inl does))
  | absorb _ n does => exact .inr (.inr (.inr ⟨n, does⟩))
  | _ => exact absurd rfl ne

theorem Effect.writer_of_data (e : Effect i s t) (ne : t.data ≠ s.data) : ∃ d, i = .wrData d := by
  cases e with
  | data d isData => exact ⟨d, isData⟩
  | absorb _ n => exact absurd (State.absorb_data n _) ne
  | final => exact absurd (State.finish_data _) ne
  | _ => exact absurd rfl ne

theorem Effect.writer_of_buf (e : Effect i s t) (ne : t.buf ≠ s.buf) :
    ∃ n, i.performed = .absorb n := by
  cases e with
  | absorb _ n does => exact ⟨n, does⟩
  | final => exact absurd (State.finish_buf _) ne
  | _ => exact absurd rfl ne

theorem Effect.writer_of_bufCnt (e : Effect i s t) (ne : t.bufCnt ≠ s.bufCnt) :
    i.performed = .init ∨ i.performed = .final ∨ ∃ n, i.performed = .absorb n := by
  cases e with
  | init _ does => exact .inl does
  | final _ does => exact .inr (.inl does)
  | absorb _ n does => exact .inr (.inr ⟨n, does⟩)
  | _ => exact absurd rfl ne

theorem Effect.writer_of_len (e : Effect i s t) (ne : t.len ≠ s.len) :
    i.performed = .init ∨ ∃ n, i.performed = .absorb n := by
  cases e with
  | init _ does => exact .inl does
  | absorb _ n does => exact .inr ⟨n, does⟩
  | final => exact absurd (State.finish_len _) ne
  | _ => exact absurd rfl ne

theorem Effect.writer_of_bitLen (e : Effect i s t) (ne : t.bitLen ≠ s.bitLen) :
    i.performed = .final := by
  cases e with
  | final _ does => exact does
  | absorb _ n => exact absurd (State.absorb_bitLen n _) ne
  | _ => exact absurd rfl ne

theorem Effect.writer_of_pendLen (e : Effect i s t) (ne : t.pendLen ≠ s.pendLen) :
    i.performed = .init ∨ i.performed = .final ∨ i = .engAdd := by
  cases e with
  | init _ does => exact .inl does
  | final _ does => exact .inr (.inl does)
  | addPending isAdd => exact .inr (.inr isAdd)
  | absorb _ n => exact absurd (State.absorb_pendLen n _) ne
  | _ => exact absurd rfl ne

/-- The transitions of MODE (R32): INIT's, the accepted FINAL's and the one of an ABSORB refused for
length. -/
theorem Effect.writer_of_mode (e : Effect i s t) (ne : t.mode ≠ s.mode) :
    (i.performed = .init ∧ t.mode = .accepting) ∨
    (i.performed = .final ∧ s.mode = .accepting ∧ t.mode = .finalized) ∨
    (∃ n : BitVec 2, i.performed = .absorb n ∧ s.mode = .accepting ∧ t.mode = .failed ∧
      t.errLen = true ∧ s.len.toNat + absorbCount n > maxMsgBytes) := by
  cases e with
  | init _ does => exact .inl ⟨does, rfl⟩
  | final _ does =>
    rcases State.finish_cases s.release with ⟨-, h⟩ | ⟨hm, h⟩ <;> rw [h] at ne ⊢
    · exact absurd rfl ne
    · exact .inr (.inl ⟨does, hm, rfl⟩)
  | absorb _ n does =>
    rcases State.absorb_inversion n s.release with ⟨-, h⟩ | ⟨hm, hl, h⟩ |
      ⟨-, -, _, _, _, _, _, h⟩ <;> rw [h] at ne ⊢
    · exact absurd rfl ne
    · exact .inr (.inr ⟨n, does, hm, rfl, rfl, hl⟩)
    · exact absurd rfl ne
  | _ => exact absurd rfl ne

theorem State.err_congr (hcmd : t.errCmd = s.errCmd) (hseq : t.errSeq = s.errSeq)
    (hlen : t.errLen = s.errLen) (hbus : t.errBus = s.errBus) (f : ErrFlag) :
    t.err f = s.err f := by
  cases f with
  | cmd => exact hcmd
  | seq => exact hseq
  | len => exact hlen
  | bus => exact hbus

/-- What an instruction can do to the flags (R33, R241): INIT clears them all; any other sets one,
or leaves them as they are. -/
theorem Effect.err_cases (e : Effect i s t) :
    (i.performed = .init ∧ ∀ f, t.err f = false) ∨
    (∃ f₀, ∀ f, t.err f = (decide (f = f₀) || s.err f)) ∨
    ∀ f, t.err f = s.err f := by
  cases e with
  | init _ does => exact .inl ⟨does, s.release.clearErrors_err⟩
  | busError => exact .inr (.inl ⟨.bus, s.flag_err .bus⟩)
  | illegal => exact .inr (.inl ⟨.cmd, s.release.flag_err .cmd⟩)
  | final =>
    rcases State.finish_cases s.release with ⟨-, h⟩ | ⟨-, h⟩ <;> rw [h]
    · exact .inr (.inl ⟨.seq, s.release.flag_err .seq⟩)
    · exact .inr (.inr (State.err_congr rfl rfl rfl rfl))
  | absorb _ n =>
    rcases State.absorb_inversion n s.release with ⟨-, h⟩ | ⟨-, -, h⟩ | ⟨-, -, _, _, _, _, _, h⟩ <;>
      rw [h]
    · exact .inr (.inl ⟨.seq, s.release.flag_err .seq⟩)
    · exact .inr (.inl ⟨.len, s.release.flag_err .len⟩)
    · exact .inr (.inr (State.err_congr rfl rfl rfl rfl))
  | _ => exact .inr (.inr (State.err_congr rfl rfl rfl rfl))

end

/-! ### The obligations -/

/-- Settles O43, from the effects that write H, V, W and DATA. -/
theorem onlyTheNamedInstructionsWriteTheDatapath :
    Obligations.OnlyTheNamedInstructionsWriteTheDatapath := by
  intro i s t h
  have e := exec_effect h
  exact ⟨e.writer_of_h, e.writer_of_v, e.writer_of_w, e.writer_of_data⟩

/-- Settles O44, from the effects that write BUF, BUFCNT, L, BITLEN and PEND_LEN. -/
theorem onlyTheNamedInstructionsWriteThePaddingUnit :
    Obligations.OnlyTheNamedInstructionsWriteThePaddingUnit := by
  intro i s t h
  have e := exec_effect h
  exact ⟨e.writer_of_buf, e.writer_of_bufCnt, e.writer_of_len, e.writer_of_bitLen,
    e.writer_of_pendLen⟩

/-- Settles O45, from the effects that write MODE. -/
theorem modeChangesOnlyByItsTransitions : Obligations.ModeChangesOnlyByItsTransitions := by
  intro i s t h ne
  simpa only [absorbCount, maxMsgBytes] using (exec_effect h).writer_of_mode ne

/-- Settles O47: but for INIT, the flags after an instruction are those before it and at most one
more, so two flags that both became 1 are that one. -/
theorem flagsAreStickyAndSetOneAtATime : Obligations.FlagsAreStickyAndSetOneAtATime := by
  intro i s t h
  rcases (exec_effect h).err_cases with ⟨does, hf⟩ | ⟨f₀, hf⟩ | hf
  case inl =>
    exact ⟨fun _ _ => .inr does, fun f _ _ ht => by simp [hf f] at ht⟩
  case inr.inl =>
    have only (f : ErrFlag) (hs : s.err f = false) (ht : t.err f = true) : f = f₀ := by
      simpa [hf f, hs] using ht
    exact ⟨fun f hs => .inl (by simp [hf f, hs]),
      fun f f' hs ht hs' ht' => (only f hs ht).trans (only f' hs' ht').symm⟩
  case inr.inr =>
    exact ⟨fun f hs => .inl ((hf f).trans hs), fun f _ hs ht => by simp [hf f, hs] at ht⟩

end Sys2Proof.Machine

/-! ## Reset and the invariants (10_state.md R37, R48; 70_reset_and_hazards.md R260) -/

namespace Sys2Proof.Machine

/-- Settles O36: the platform's reset gives the specified items the values of `State.reset`. -/
theorem resetGivesTheSpecifiedItems : Obligations.ResetGivesTheSpecifiedItems := by
  refine ⟨by decide, fun s ps h => ⟨_, step_plan_reset h, ?_, rfl, rfl, rfl⟩⟩
  exact ⟨rfl, rfl, rfl, rfl, rfl, rfl, rfl, rfl, rfl, rfl, rfl⟩

/-- Settles O37, by evaluating each invariant in the one state. -/
theorem resetStateMeetsTheInvariants : Obligations.ResetStateMeetsTheInvariants := by
  unfold Obligations.ResetStateMeetsTheInvariants
  decide

/-! ### PHASE codes and the instructions they select -/

/-- The PHASE decoder loses nothing (R85, R86). -/
theorem encode_decodePhase : ∀ p : BitVec 7, encode (decodePhase p) = .phase p := by decide

/-- The code that selects an instruction is the one its row gives (R85). -/
theorem eq_of_decodePhase {p q : BitVec 7} {i : Instr} (hi : i = decodePhase p)
    (row : encode i = .phase q) : p = q := by
  subst hi
  exact CodeWord.phase.inj ((encode_decodePhase p).symm.trans row)

theorem phaseRound_ne_idle : ∀ t : BitVec 6, phaseRound t ≠ phaseIdle := by decide

theorem phaseRound_ne_schedule : ∀ t : BitVec 6, phaseRound t ≠ phaseSchedule := by decide

theorem phaseRound_toNat_ge : ∀ t : BitVec 6, 64 ≤ (phaseRound t).toNat := by decide

theorem phaseIdle_toNat_le : phaseIdle.toNat ≤ 2 := by decide

theorem phaseSchedule_toNat_le : phaseSchedule.toNat ≤ 2 := by decide

/-! ### What a run of APPEND_BYTEs does to the counts and to PHASE (R123) -/

theorem absorbBytes_length (n : BitVec 2) (data : Word) :
    (absorbBytes n data).length = absorbCount n := by
  have := n.isLt
  simp only [absorbBytes, List.length_take, wordBytes_length, absorbCount]
  omega

theorem State.appendBytes_len (bs : List Byte) (s : State) :
    (bs.foldl State.appendByte s).len.toNat = (s.len.toNat + bs.length) % 2 ^ 64 := by
  induction bs generalizing s with
  | nil => exact (Nat.mod_eq_of_lt s.len.isLt).symm
  | cons x bs ih =>
    rw [List.foldl_cons, ih, State.appendByte_len, BitVec.toNat_add, List.length_cons]
    simp only [BitVec.toNat_ofNat]
    omega

theorem State.appendBytes_bufCnt (bs : List Byte) (s : State) :
    (bs.foldl State.appendByte s).bufCnt.toNat = (s.bufCnt.toNat + bs.length) % 64 := by
  induction bs generalizing s with
  | nil => exact (Nat.mod_eq_of_lt s.bufCnt.isLt).symm
  | cons x bs ih =>
    rw [List.foldl_cons, ih, State.appendByte_bufCnt, BitVec.toNat_add, List.length_cons]
    simp only [BitVec.toNat_ofNat]
    omega

/-- PHASE leaves its value only for SCHEDULE, when the bytes fill the buffer. -/
theorem State.appendBytes_phase (bs : List Byte) (s : State) :
    (bs.foldl State.appendByte s).phase = s.phase ∨
      64 ≤ s.bufCnt.toNat + bs.length ∧
        (bs.foldl State.appendByte s).phase = phaseSchedule := by
  induction bs generalizing s with
  | nil => exact .inl rfl
  | cons x bs ih =>
    simp only [List.foldl_cons, List.length_cons]
    have later := ih (s.appendByte x)
    by_cases full : s.bufCnt = 63#6
    · have at63 : s.bufCnt.toNat = 63 := by rw [full]; rfl
      have loaded : (s.appendByte x).phase = phaseSchedule := by rw [s.appendByte_fills x full]
      exact .inr ⟨by omega, later.elim (·.trans loaded) (·.2)⟩
    · have kept : (s.appendByte x).phase = s.phase := by rw [s.appendByte_below x full]
      have below : s.bufCnt.toNat ≠ 63 := fun h => full (BitVec.eq_of_toNat_eq h)
      have cnt : (s.appendByte x).bufCnt.toNat = s.bufCnt.toNat + 1 := by
        rw [s.appendByte_bufCnt, BitVec.toNat_add]
        simp only [BitVec.toNat_ofNat]
        omega
      exact later.imp (·.trans kept) fun ⟨hc, hp⟩ => ⟨by omega, hp⟩

theorem State.appendBytes_mode (bs : List Byte) (s : State) :
    (bs.foldl State.appendByte s).mode = s.mode :=
  (congrArg State.mode (s.appendBytes_frame bs) :)

theorem State.appendBytes_pendLen (bs : List Byte) (s : State) :
    (bs.foldl State.appendByte s).pendLen = s.pendLen :=
  (congrArg State.pendLen (s.appendBytes_frame bs) :)

/-! ### What each command and each engine step does to the invariants -/

/-- With PHASE IDLE no length block is pending (R37 (1)). -/
theorem State.Inv.pendLen_idle {s : State} (hs : s.Inv) (idle : s.busy = false) :
    s.pendLen = false := by
  obtain ⟨-, pend, -⟩ := hs
  cases hp : s.pendLen
  · rfl
  · exact absurd (pend hp).1 (by simp [idle])

theorem State.Inv.startSession {s : State} (hs : s.Inv) : s.startSession.Inv := by
  obtain ⟨legal, -⟩ := hs
  exact ⟨legal, nofun, fun _ => rfl, nofun, fun _ _ => Nat.zero_le _, Nat.zero_le _,
    fun _ => .inl rfl⟩

theorem State.Inv.finish {s : State} (hs : s.Inv) : s.finish.Inv := by
  rcases State.finish_cases s with ⟨-, h⟩ | ⟨-, h⟩ <;> rw [h]
  · exact hs
  · obtain ⟨-, -, -, -, -, bound, -⟩ := hs
    exact ⟨.inl phaseSchedule_toNat_le, fun _ => ⟨rfl, rfl⟩, by simp, fun _ => rfl, by simp, bound,
      fun _ => .inr rfl⟩

/-- An ABSORB takes at most four bytes, so if they fill the buffer at most three are left over
(R37 (4), R205). -/
theorem State.Inv.absorb {s : State} (hs : s.Inv) (idle : s.busy = false) (n : BitVec 2) :
    (s.absorb n).Inv := by
  have pend := hs.pendLen_idle idle
  rcases State.absorb_cases n s with ⟨-, h⟩ | ⟨hm, -, h⟩ | ⟨hm, hl, h⟩ <;> rw [h]
  · exact hs
  · obtain ⟨legal, -, count, -, -, bound, -⟩ := hs
    exact ⟨legal, by simp [pend], fun _ => count (by simp [hm]), nofun, nofun, bound,
      fun hb => nomatch idle.symm.trans hb⟩
  · obtain ⟨-, -, count, -, -, -, -⟩ := hs
    have cnt := count (by simp [hm])
    have atIdle : s.phase = phaseIdle := s.busy_eq_false_iff.1 idle
    have size := absorbBytes_length n s.data
    have few : absorbCount n ≤ 4 := n.isLt
    have len' := State.appendBytes_len (absorbBytes n s.data) s
    have cnt' := State.appendBytes_bufCnt (absorbBytes n s.data) s
    have phase' := State.appendBytes_phase (absorbBytes n s.data) s
    have mode' := (State.appendBytes_mode (absorbBytes n s.data) s).trans hm
    have pend' := (State.appendBytes_pendLen (absorbBytes n s.data) s).trans pend
    generalize (absorbBytes n s.data).foldl State.appendByte s = u at *
    rw [size] at len' cnt' phase'
    simp only [maxMsgBytes] at hl
    rw [Nat.mod_eq_of_lt (by omega)] at len'
    refine ⟨?legal, by simp [pend'], fun _ => by omega, by simp [mode'], fun _ hb => ?short,
      by simp only [maxMsgBytes]; omega, fun _ => .inl mode'⟩
    case legal => rcases phase' with h | ⟨-, h⟩ <;> simp [State.PhaseLegal, h, atIdle]
    case short =>
      rcases phase' with h | ⟨full, -⟩
      · exact absurd (h.trans atIdle) (u.busy_eq_true_iff.1 hb)
      · have := s.bufCnt.isLt
        omega

/-- An engine step that goes on to another legal code of a block in progress. -/
theorem State.Inv.withPhase {s : State} (hs : s.Inv) (busy : s.busy = true) {p : BitVec 7}
    (legal : p.toNat ≤ 2 ∨ 64 ≤ p.toNat) (ne : p ≠ phaseIdle) (v : Vector Word 8)
    (w : Vector Word 64) : State.Inv { s with v := v, w := w, phase := p } := by
  obtain ⟨-, pend, count, emptied, short, bound, session⟩ := hs
  have busy' : State.busy { s with v := v, w := w, phase := p } = true :=
    (State.busy_eq_true_iff _).2 ne
  exact ⟨legal, fun h => ⟨busy', (pend h).2⟩, count, emptied, fun hm _ => short hm busy, bound,
    fun _ => session busy⟩

/-- ADD with the length block to follow: the engine stays in the block of FINALIZED (R126). -/
theorem State.Inv.addPending {s : State} (hs : s.Inv) (pending : s.pendLen = true)
    (h : Vector Word 8) : (State.lengthBlock { s with h := h }).Inv := by
  obtain ⟨-, pend, count, emptied, short, bound, session⟩ := hs
  obtain ⟨busy, finalized⟩ := pend pending
  rw [State.lengthBlock_eq]
  exact ⟨.inl phaseSchedule_toNat_le, nofun, count, emptied, fun hm _ => short hm busy, bound,
    fun _ => .inr finalized⟩

/-- ADD at the end: PHASE is IDLE again (R171). -/
theorem State.Inv.addLast {s : State} (hs : s.Inv) (last : s.pendLen = false)
    (h : Vector Word 8) : State.Inv { s with h := h, phase := phaseIdle } := by
  obtain ⟨-, -, count, emptied, -, bound, -⟩ := hs
  exact ⟨.inl phaseIdle_toNat_le, by simp [last], count, emptied, nofun, bound, nofun⟩

/-- Every effect of a transaction, or of the instruction PHASE selects, keeps the invariants. -/
theorem Effect.inv {i : Instr} {s t : State} (e : Effect i s t)
    (who : i.isTransaction = true ∨ i = decodePhase s.phase) (hs : s.Inv) : t.Inv := by
  cases e with
  | init => exact State.Inv.startSession (s := s.release) hs
  | absorb idle n => exact State.Inv.absorb (s := s.release) hs idle n
  | final => exact State.Inv.finish (s := s.release) hs
  | addPending _ pending => exact hs.addPending pending _
  | addLast _ last => exact hs.addLast last _
  | schedule isSchedule =>
    subst isSchedule
    have at1 : s.phase = phaseSchedule := eq_of_decodePhase (who.resolve_left (by decide)) rfl
    exact hs.withPhase (s.busy_eq_true_iff.2 (by rw [at1]; decide)) (.inr (phaseRound_toNat_ge _))
      (phaseRound_ne_idle _) _ _
  | round k isRound =>
    subst isRound
    have atK : s.phase = phaseRound k :=
      eq_of_decodePhase (who.resolve_left (by simp [Instr.isTransaction])) rfl
    have busy : s.busy = true := s.busy_eq_true_iff.2 (by rw [atK]; exact phaseRound_ne_idle k)
    refine hs.withPhase busy ?legal ?ne _ _ <;> split
    case legal.isTrue => decide
    case legal.isFalse => exact .inr (phaseRound_toNat_ge _)
    case ne.isTrue => decide
    case ne.isFalse => exact phaseRound_ne_idle _
  | _ => exact hs

/-! ### The obligations -/

/-- Settles O39: a step is the platform's reset, an effect, or nothing to the engine. -/
theorem everyStepKeepsTheInvariants : Obligations.EveryStepKeepsTheInvariants := by
  intro s t hs h
  rcases step_effect h with ⟨ps, -, rfl⟩ | ⟨i, _, _, _, _, u, who, e, rfl⟩ | ⟨_, _, _, rfl⟩
  · exact resetStateMeetsTheInvariants
  · exact e.inv who hs
  · exact hs

/-- What holds at the start of a run and is kept by every step holds at its end. -/
theorem run_induction {P : State → Prop} (keep : ∀ s t, P s → step s = .next t → P t) :
    ∀ (k : Nat) {s t : State}, P s → Sys2Proof.core.run k s = .next t → P t
  | 0, s, t, hs, h => by cases h; exact hs
  | k + 1, s, t, hs, h => by
    simp only [Host.Core.run] at h
    split at h
    · next u hu => exact run_induction keep k (keep s u hs hu) h
    · cases h
    · cases h

/-- Settles O40: O37 and O39, along the run. -/
theorem everyReachableStateMeetsTheInvariants :
    Obligations.EveryReachableStateMeetsTheInvariants := by
  intro program plan draws k h v w buf bitLen s hrun
  refine run_induction everyStepKeepsTheInvariants k ?start hrun
  exact resetStateMeetsTheInvariants

end Sys2Proof.Machine

/-! ## The items reset leaves unspecified (10_state.md R48)

A simulation. Two states are `Alike` when they differ at most in H, V, W, BUF and BITLEN, and either
no session has begun since reset, or the five items agree wherever a later step can look. Every
operation keeps states alike, so every step does, and what the host has read is the same. -/

namespace Sys2Proof.Machine

/-- Values for the five items R48 leaves unspecified. -/
structure Unspecified where
  h : Vector Word 8
  v : Vector Word 8
  w : Vector Word 64
  buf : Vector Byte 64
  bitLen : BitVec 64

/-- The state with those values in the five items. -/
def State.withUnspecified (s : State) (x : Unspecified) : State :=
  { s with h := x.h, v := x.v, w := x.w, buf := x.buf, bitLen := x.bitLen }

/-- The state's own values of the five items. -/
def State.unspecified (s : State) : Unspecified := ⟨s.h, s.v, s.w, s.buf, s.bitLen⟩

@[simp] theorem State.withUnspecified_dvalid (s : State) (x : Unspecified) :
    (s.withUnspecified x).dvalid = s.dvalid := rfl

@[simp] theorem State.withUnspecified_h (s : State) (x : Unspecified) :
    (s.withUnspecified x).h = x.h := rfl

/-- Within a session the values agree with the state's own wherever a later step can look: at H; at
the bytes BUF holds; at BITLEN if a length block is to follow; at the loaded words of W while PHASE
is not IDLE, and past SCHEDULE at V and all of W. -/
def Unspecified.Agrees (x : Unspecified) (s : State) : Prop :=
  x.h = s.h ∧
  (∀ (j : Nat) (hj : j < 64), j < s.bufCnt.toNat → x.buf[j] = s.buf[j]) ∧
  (s.pendLen = true → x.bitLen = s.bitLen) ∧
  (s.phase ≠ phaseIdle → ∀ t, t < 16 → wordAt x.w t = wordAt s.w t) ∧
  (s.phase ≠ phaseIdle → s.phase ≠ phaseSchedule → x.v = s.v ∧ x.w = s.w)

theorem State.unspecified_agrees (s : State) : s.unspecified.Agrees s :=
  ⟨rfl, fun _ _ _ => rfl, fun _ => rfl, fun _ _ _ => rfl, fun _ _ => ⟨rfl, rfl⟩⟩

/-- No session has begun since reset. -/
def State.Fresh (s : State) : Prop := s.mode = .uninit ∧ s.phase = phaseIdle

/-- `t` is `s` but for the five items, which no step can tell apart. -/
def State.Alike (s t : State) : Prop :=
  ∃ x : Unspecified, t = s.withUnspecified x ∧ (s.Fresh ∨ x.Agrees s)

theorem State.Alike.refl (s : State) : s.Alike s :=
  ⟨s.unspecified, rfl, .inr s.unspecified_agrees⟩

/-- What does not depend on the five items is the same in states alike. -/
theorem State.Alike.view {α : Type} {s t : State} (h : s.Alike t) (f : State → α)
    (blind : ∀ x, f (s.withUnspecified x) = f s) : f t = f s := by
  obtain ⟨x, rfl, -⟩ := h
  exact blind x

/-- What the second run's outcome is, where the first run goes on: a state alike. -/
def Follows (o o' : Host.Outcome State Fault Refusal) : Prop :=
  ∀ s', o = .next s' → ∃ t', o' = .next t' ∧ s'.Alike t'

theorem State.Alike.follows {s t : State} (h : s.Alike t) : Follows (.next s) (.next t) := by
  intro s' hs
  cases hs
  exact ⟨t, rfl, h⟩

/-! ### The padding unit and the schedule see only what agrees -/

/-- A block that agrees is loaded alike (R124). -/
theorem wordAt_loadWords_congr (blk : List Byte) (w w' : Vector Word 64) {t : Nat} (ht : t < 16) :
    wordAt (loadWords blk w) t = wordAt (loadWords blk w') t := by
  rw [wordAt_loadWords, wordAt_loadWords, if_pos ht, if_pos ht]

/-- APPEND_BYTE (R123): the stored byte agrees, and a filled buffer agrees in every byte. -/
theorem Unspecified.Agrees.appendByte {x : Unspecified} {s : State} (hx : x.Agrees s) (b : Byte) :
    ∃ y : Unspecified, (s.withUnspecified x).appendByte b = (s.appendByte b).withUnspecified y ∧
      y.Agrees (s.appendByte b) := by
  obtain ⟨hh, hbuf, hbits, hloaded, hstarted⟩ := hx
  have lt := s.bufCnt.isLt
  have stored (j : Nat) (hj : j < 64) (hlt : j < s.bufCnt.toNat + 1) :
      (x.buf.set s.bufCnt.toNat b)[j] = (s.buf.set s.bufCnt.toNat b)[j] := by
    by_cases hb : s.bufCnt.toNat = j
    · simp [hb]
    · rw [Vector.getElem_set_ne _ _ hb, Vector.getElem_set_ne _ _ hb, hbuf j hj (by omega)]
  by_cases full : s.bufCnt = 63#6
  · have at63 : s.bufCnt.toNat = 63 := by rw [full]; rfl
    have filled : x.buf.set s.bufCnt.toNat b = s.buf.set s.bufCnt.toNat b :=
      Vector.ext fun j hj => stored j hj (by omega)
    rw [s.appendByte_fills b full, State.appendByte_fills (s.withUnspecified x) b full]
    refine ⟨⟨x.h, x.v, loadWords (x.buf.set s.bufCnt.toNat b).toList x.w,
      x.buf.set s.bufCnt.toNat b, x.bitLen⟩, rfl, ?_⟩
    rw [filled]
    exact ⟨hh, fun _ _ _ => rfl, hbits, fun _ _ => wordAt_loadWords_congr _ _ _,
      fun _ ne => absurd rfl ne⟩
  · have below : s.bufCnt.toNat ≠ 63 := fun h => full (BitVec.eq_of_toNat_eq h)
    rw [s.appendByte_below b full, State.appendByte_below (s.withUnspecified x) b full]
    refine ⟨⟨x.h, x.v, x.w, x.buf.set s.bufCnt.toNat b, x.bitLen⟩, rfl, hh,
      fun j hj hlt => stored j hj ?_, hbits, hloaded, hstarted⟩
    simp only [BitVec.toNat_add, BitVec.toNat_ofNat] at hlt
    omega

theorem Unspecified.Agrees.appendBytes (bs : List Byte) {x : Unspecified} {s : State}
    (hx : x.Agrees s) :
    ∃ y : Unspecified, bs.foldl State.appendByte (s.withUnspecified x) =
        (bs.foldl State.appendByte s).withUnspecified y ∧
      y.Agrees (bs.foldl State.appendByte s) := by
  induction bs generalizing x s with
  | nil => exact ⟨x, rfl, hx⟩
  | cons b bs ih =>
    obtain ⟨y, he, hy⟩ := hx.appendByte b
    simp only [List.foldl_cons, he]
    exact ih hy

/-- PAD_TAIL reads the bytes BUF holds (R125). -/
theorem Unspecified.Agrees.tailBlock {x : Unspecified} {s : State} (hx : x.Agrees s) :
    (s.withUnspecified x).tailBlock = s.tailBlock := by
  obtain ⟨-, hbuf, -⟩ := hx
  have lt := s.bufCnt.isLt
  have tail : x.buf.toList.take s.bufCnt.toNat = s.buf.toList.take s.bufCnt.toNat := by
    refine List.ext_getElem (by simp) fun j h _ => ?_
    simp only [List.length_take, Vector.length_toList] at h
    simp only [List.getElem_take, Vector.getElem_toList]
    exact hbuf j (by omega) (by omega)
  simp only [State.tailBlock, State.withUnspecified, State.messageBits, tail]

/-- SCHEDULE computes W from its loaded words alone (R141). -/
theorem extendSchedule_congr {w w' : Vector Word 64}
    (h : ∀ t, t < 16 → wordAt w t = wordAt w' t) : extendSchedule w = extendSchedule w' := by
  have all (t : Nat) (ht : t < 64) :
      wordAt (extendSchedule w) t = wordAt (extendSchedule w') t := by
    induction t using Nat.strong_induction_on with
    | _ t ih =>
      by_cases h16 : t < 16
      · rw [wordAt_extendSchedule_loaded w t h16, wordAt_extendSchedule_loaded w' t h16, h t h16]
      · rw [wordAt_extendSchedule_derived w t (by omega) ht,
          wordAt_extendSchedule_derived w' t (by omega) ht, scheduleWord, scheduleWord,
          ih (t - 2) (by omega) (by omega), ih (t - 7) (by omega) (by omega),
          ih (t - 15) (by omega) (by omega), ih (t - 16) (by omega) (by omega)]
  exact Vector.ext fun t ht => by simpa only [wordAt_eq_getElem _ t ht] using all t ht

/-! ### ABSORB and FINAL, branch by branch (R205, R206) -/

theorem State.absorb_refused (n : BitVec 2) {s : State} (hm : s.mode ≠ .accepting) :
    s.absorb n = s.flag .seq :=
  if_pos hm

theorem State.absorb_tooLong (n : BitVec 2) {s : State} (hm : s.mode = .accepting)
    (hl : s.len.toNat + absorbCount n > maxMsgBytes) :
    s.absorb n = { s.flag .len with mode := .failed } :=
  (if_neg (not_not_intro hm)).trans (if_pos hl)

theorem State.absorb_accepted (n : BitVec 2) {s : State} (hm : s.mode = .accepting)
    (hl : s.len.toNat + absorbCount n ≤ maxMsgBytes) :
    s.absorb n = (absorbBytes n s.data).foldl State.appendByte s :=
  (if_neg (not_not_intro hm)).trans (if_neg (not_lt_of_ge hl))

theorem State.finish_refused {s : State} (hm : s.mode ≠ .accepting) : s.finish = s.flag .seq :=
  if_pos hm

theorem State.finish_accepted {s : State} (hm : s.mode = .accepting) :
    s.finish =
      { s with bitLen := s.messageBits, pendLen := decide (55 < s.bufCnt.toNat), bufCnt := 0#6,
               w := loadWords s.tailBlock s.w, phase := phaseSchedule, mode := .finalized } :=
  (s.finish_cases.resolve_left fun h => h.1 hm).2

/-! ### The operations keep states alike -/

section
variable {s t : State}

theorem State.Alike.answer (h : s.Alike t) (d : Word) : (s.answer d).Alike (t.answer d) := by
  obtain ⟨x, rfl, hx⟩ := h
  exact ⟨x, rfl, hx⟩

theorem State.Alike.hold (h : s.Alike t) (d : Word) : (s.hold d).Alike (t.hold d) := by
  obtain ⟨x, rfl, hx⟩ := h
  exact ⟨x, rfl, hx⟩

theorem State.Alike.release (h : s.Alike t) : s.release.Alike t.release := by
  obtain ⟨x, rfl, hx⟩ := h
  exact ⟨x, rfl, hx⟩

theorem State.Alike.setData (h : s.Alike t) (d : Word) :
    State.Alike { s with data := d } { t with data := d } := by
  obtain ⟨x, rfl, hx⟩ := h
  exact ⟨x, rfl, hx⟩

theorem State.Alike.setProgram (h : s.Alike t) (p : List HostLine) :
    State.Alike { s with program := p } { t with program := p } := by
  obtain ⟨x, rfl, hx⟩ := h
  exact ⟨x, rfl, hx⟩

theorem State.Alike.withSchedule (h : s.Alike t) (p : List Turn) (n : Nat) :
    (s.withSchedule p n).Alike (t.withSchedule p n) := by
  obtain ⟨x, rfl, hx⟩ := h
  exact ⟨x, rfl, hx⟩

theorem State.Alike.flag (h : s.Alike t) (e : ErrFlag) : (s.flag e).Alike (t.flag e) := by
  obtain ⟨x, rfl, hx⟩ := h
  cases e <;> exact ⟨x, rfl, hx⟩

theorem State.Alike.mode (h : s.Alike t) : t.mode = s.mode := h.view State.mode fun _ => rfl

/-- In ACCEPTING a session has begun, so the five items agree. -/
theorem Unspecified.agrees_of_accepting {x : Unspecified} (hm : s.mode = .accepting)
    (hx : s.Fresh ∨ x.Agrees s) : x.Agrees s :=
  hx.resolve_left fun fresh => by simp [State.Fresh, hm] at fresh

theorem State.Alike.startSession (h : s.Alike t) (idle : s.busy = false) :
    s.startSession.Alike t.startSession := by
  obtain ⟨x, rfl, -⟩ := h
  have atIdle : s.phase = phaseIdle := s.busy_eq_false_iff.1 idle
  exact ⟨{ x with h := iv }, rfl, .inr ⟨rfl, fun j _ hlt => absurd hlt (Nat.not_lt_zero j), nofun,
    fun ne => absurd atIdle ne, fun ne => absurd atIdle ne⟩⟩

theorem State.Alike.absorb (h : s.Alike t) (n : BitVec 2) : (s.absorb n).Alike (t.absorb n) := by
  rcases State.absorb_cases n s with ⟨hm, hs⟩ | ⟨hm, hl, hs⟩ | ⟨hm, hl, hs⟩ <;> rw [hs]
  · rw [State.absorb_refused n (h.mode.trans_ne hm)]
    exact h.flag .seq
  · obtain ⟨x, rfl, hx⟩ := h
    rw [State.absorb_tooLong n (s := s.withUnspecified x) hm hl]
    have agrees := Unspecified.agrees_of_accepting hm hx
    exact ⟨x, rfl, .inr agrees⟩
  · obtain ⟨x, rfl, hx⟩ := h
    obtain ⟨y, he, hy⟩ := (Unspecified.agrees_of_accepting hm hx).appendBytes (absorbBytes n s.data)
    exact ⟨y, (State.absorb_accepted n (s := s.withUnspecified x) hm hl).trans he, .inr hy⟩

theorem State.Alike.finish (h : s.Alike t) : s.finish.Alike t.finish := by
  by_cases hm : s.mode = .accepting
  · obtain ⟨x, rfl, hx⟩ := h
    have agrees := Unspecified.agrees_of_accepting hm hx
    rw [State.finish_accepted hm, State.finish_accepted (s := s.withUnspecified x) hm,
      agrees.tailBlock]
    obtain ⟨hh, -⟩ := agrees
    exact ⟨⟨x.h, x.v, loadWords s.tailBlock x.w, x.buf, s.messageBits⟩, rfl, .inr
      ⟨hh, fun j _ hlt => absurd hlt (Nat.not_lt_zero j), fun _ => rfl,
        fun _ _ => wordAt_loadWords_congr _ _ _, fun _ ne => absurd rfl ne⟩⟩
  · rw [State.finish_refused hm, State.finish_refused (h.mode.trans_ne hm)]
    exact h.flag .seq

end

/-! ### The engine's step, PHASE by PHASE (R85, R86, R171) -/

theorem decodePhase_cases (p : BitVec 7) :
    (p = phaseIdle ∧ decodePhase p = .engIdle) ∨
    (p = phaseSchedule ∧ decodePhase p = .engSchedule) ∨
    (p = phaseAdd ∧ decodePhase p = .engAdd) ∨
    (∃ k, p = phaseRound k ∧ decodePhase p = .engRound k) ∨
    ∀ s, exec (decodePhase p) s = .fault .unreachableSequencerState := by
  have row := encode_decodePhase p
  cases hd : decodePhase p with
  | engIdle => exact .inl ⟨eq_of_decodePhase hd.symm rfl, rfl⟩
  | engSchedule => exact .inr (.inl ⟨eq_of_decodePhase hd.symm rfl, rfl⟩)
  | engAdd => exact .inr (.inr (.inl ⟨eq_of_decodePhase hd.symm rfl, rfl⟩))
  | engRound k => exact .inr (.inr (.inr (.inl ⟨k, eq_of_decodePhase hd.symm rfl, rfl⟩)))
  | engUnreachable03 => exact .inr (.inr (.inr (.inr fun _ => rfl)))
  | engUnreachable04 _ => exact .inr (.inr (.inr (.inr fun _ => rfl)))
  | engUnreachable08 _ => exact .inr (.inr (.inr (.inr fun _ => rfl)))
  | engUnreachable10 _ => exact .inr (.inr (.inr (.inr fun _ => rfl)))
  | engUnreachable20 _ => exact .inr (.inr (.inr (.inr fun _ => rfl)))
  | _ => rw [hd] at row; cases row

theorem execEngAdd_pending {s : State} (hp : s.pendLen = true) :
    execEngAdd s = .next (State.lengthBlock { s with h := feedForward s.h s.v }) :=
  if_pos hp

theorem execEngAdd_last {s : State} (hp : s.pendLen = false) :
    execEngAdd s = .next { s with h := feedForward s.h s.v, phase := phaseIdle } :=
  if_neg (Bool.eq_false_iff.1 hp)

/-! ### What the host and the choice of agent see of a state -/

section
variable {s t : State}

theorem State.Alike.phase (h : s.Alike t) : t.phase = s.phase := h.view State.phase fun _ => rfl
theorem State.Alike.busy (h : s.Alike t) : t.busy = s.busy := h.view State.busy fun _ => rfl
theorem State.Alike.held (h : s.Alike t) : t.held = s.held := h.view State.held fun _ => rfl
theorem State.Alike.program (h : s.Alike t) : t.program = s.program :=
  h.view State.program fun _ => rfl
theorem State.Alike.reads (h : s.Alike t) : t.reads = s.reads := h.view State.reads fun _ => rfl
theorem State.Alike.plan (h : s.Alike t) : t.plan = s.plan := h.view State.plan fun _ => rfl
theorem State.Alike.draws (h : s.Alike t) : t.draws = s.draws := h.view State.draws fun _ => rfl
theorem State.Alike.hostEnabled (h : s.Alike t) : t.hostEnabled = s.hostEnabled :=
  h.view State.hostEnabled fun _ => rfl
theorem State.Alike.mover (h : s.Alike t) (a : Agent) : t.mover a = s.mover a :=
  h.view (State.mover · a) fun _ => rfl

/-- A DIGEST register shows 0 before a session has ended, and H, which agrees, after (R44). -/
theorem State.Alike.digestWord (h : s.Alike t) (i : BitVec 3) :
    t.digestWord i = s.digestWord i := by
  obtain ⟨x, rfl, fresh | ⟨hh, -⟩⟩ := h
  · have hidden : s.dvalid = false := by simp [State.dvalid, fresh.1]
    simp [State.digestWord, hidden]
  · simp [State.digestWord, hh]

/-- A read completes alike when it returns the same value. -/
theorem State.Alike.read (h : s.Alike t) {x y : Word} (same : y = x) :
    Follows (.next (s.answer x)) (.next (t.answer y)) := by
  subst same
  exact (h.answer y).follows

/-! ### Transactions, commands and engine steps -/

theorem acceptWhenIdle_follows (h : s.Alike t) (d : Word) {effect : State → State}
    (keep : s.busy = false → (effect s.release).Alike (effect t.release)) :
    Follows (acceptWhenIdle d effect s) (acceptWhenIdle d effect t) := by
  unfold acceptWhenIdle
  rw [h.busy]
  cases hb : s.busy with
  | true => exact (h.hold d).follows
  | false => exact (keep hb).follows

theorem execWrCmd_follows (h : s.Alike t) (d : Word) : Follows (execWrCmd d s) (execWrCmd d t) := by
  unfold execWrCmd
  rw [h.busy]
  cases hb : s.busy with
  | true => exact (h.hold d).follows
  | false =>
    cases decodeCommand d with
    | nop => exact acceptWhenIdle_follows h _ (effect := fun s => s) fun _ => h.release
    | init => exact acceptWhenIdle_follows h _ fun idle => h.release.startSession idle
    | absorb n => exact acceptWhenIdle_follows h _ fun _ => h.release.absorb n
    | final => exact acceptWhenIdle_follows h _ fun _ => h.release.finish
    | illegal w =>
      exact acceptWhenIdle_follows h _ (effect := fun s => s.flag .cmd) fun _ => h.release.flag .cmd

theorem exec_follows (h : s.Alike t) {i : Instr} (hi : i.isTransaction = true) :
    Follows (exec i s) (exec i t) := by
  cases i with
  | rdId => exact h.read rfl
  | rdStatus => exact h.read (h.view State.statusWord fun _ => rfl)
  | rdCmd => exact h.read rfl
  | rdData => exact h.read (h.view State.data fun _ => rfl)
  | rdLenLo => exact h.read (h.view State.lenLo fun _ => rfl)
  | rdLenHi => exact h.read (h.view State.lenHi fun _ => rfl)
  | rdRsvd _ => exact h.read rfl
  | rdDigest i => exact h.read (h.digestWord i)
  | rdMisalignedOdd _ => exact h.read rfl
  | rdMisalignedHalf _ => exact h.read rfl
  | wrId _ => exact (h.flag .bus).follows
  | wrStatus _ => exact (h.flag .bus).follows
  | wrCmd d => exact execWrCmd_follows h d
  | wrData d => exact (h.setData d).follows
  | wrLen _ _ => exact (h.flag .bus).follows
  | wrRsvd _ _ => exact (h.flag .bus).follows
  | wrDigest _ _ => exact (h.flag .bus).follows
  | wrMisalignedOdd _ _ => exact (h.flag .bus).follows
  | wrMisalignedHalf _ _ => exact (h.flag .bus).follows
  | _ => cases hi

/-- From SCHEDULE on W and V agree in every word (R141). -/
theorem execEngSchedule_follows {x : Unspecified} (hx : x.Agrees s)
    (atSchedule : s.phase = phaseSchedule) :
    Follows (execEngSchedule s) (execEngSchedule (s.withUnspecified x)) := by
  obtain ⟨hh, hbuf, hbits, hloaded, -⟩ := hx
  have hw : extendSchedule x.w = extendSchedule s.w :=
    extendSchedule_congr (hloaded (by rw [atSchedule]; decide))
  refine State.Alike.follows ⟨⟨x.h, x.h, extendSchedule x.w, x.buf, x.bitLen⟩, rfl, .inr ?_⟩
  exact ⟨hh, hbuf, hbits, fun _ _ _ => by rw [hw], fun _ _ => ⟨hh, hw⟩⟩

/-- A round is a function of V and W, which agree past SCHEDULE (R153). -/
theorem execEngRound_follows {x : Unspecified} (hx : x.Agrees s) {k : BitVec 6}
    (atRound : s.phase = phaseRound k) :
    Follows (execEngRound k s) (execEngRound k (s.withUnspecified x)) := by
  obtain ⟨hh, hbuf, hbits, -, hstarted⟩ := hx
  obtain ⟨hv, hw⟩ := hstarted (by rw [atRound]; exact phaseRound_ne_idle k)
    (by rw [atRound]; exact phaseRound_ne_schedule k)
  have hv' : roundF x.v (kAt k) (wordAt x.w k.toNat) = roundF s.v (kAt k) (wordAt s.w k.toNat) := by
    rw [hv, hw]
  refine State.Alike.follows ⟨⟨x.h, roundF x.v (kAt k) (wordAt x.w k.toNat), x.w, x.buf, x.bitLen⟩,
    rfl, .inr ?_⟩
  exact ⟨hh, hbuf, hbits, fun _ _ _ => by rw [hw], fun _ _ => ⟨hv', hw⟩⟩

/-- With ADD the working variables agree, and so does BITLEN if a length block is to follow (R171,
R126). -/
theorem execEngAdd_follows {x : Unspecified} (hx : x.Agrees s) (atAdd : s.phase = phaseAdd) :
    Follows (execEngAdd s) (execEngAdd (s.withUnspecified x)) := by
  obtain ⟨hh, hbuf, hbits, -, hstarted⟩ := hx
  obtain ⟨hv, -⟩ := hstarted (by rw [atAdd]; decide) (by rw [atAdd]; decide)
  have hh' : feedForward x.h x.v = feedForward s.h s.v := by rw [hh, hv]
  cases hp : s.pendLen with
  | true =>
    rw [execEngAdd_pending hp, execEngAdd_pending (s := s.withUnspecified x) hp,
      State.lengthBlock_eq, State.lengthBlock_eq]
    refine State.Alike.follows ⟨⟨feedForward x.h x.v, x.v,
      loadWords (List.replicate 56 0x00#8 ++ be64 x.bitLen) x.w, x.buf, x.bitLen⟩, rfl, .inr ?_⟩
    rw [hbits hp]
    exact ⟨hh', hbuf, nofun, fun _ _ => wordAt_loadWords_congr _ _ _, fun _ ne => absurd rfl ne⟩
  | false =>
    rw [execEngAdd_last hp, execEngAdd_last (s := s.withUnspecified x) hp]
    refine State.Alike.follows ⟨⟨feedForward x.h x.v, x.v, x.w, x.buf, x.bitLen⟩, rfl, .inr ?_⟩
    exact ⟨hh', hbuf, hbits, fun ne => absurd rfl ne, fun ne => absurd rfl ne⟩

/-- The engine takes the same step: the rest in IDLE before a session, and in one a step whose
inputs agree. -/
theorem engineMove_follows (h : s.Alike t) : Follows (engineMove s) (engineMove t) := by
  have resting : Follows (.next s) (.next t) := h.follows
  unfold engineMove
  rw [h.phase]
  obtain ⟨x, rfl, ⟨-, idle⟩ | hx⟩ := h
  · rw [idle]
    exact resting
  rcases decodePhase_cases s.phase with ⟨-, hd⟩ | ⟨hp, hd⟩ | ⟨hp, hd⟩ | ⟨k, hp, hd⟩ | hd
  · rw [hd]
    exact resting
  · rw [hd]
    exact execEngSchedule_follows hx hp
  · rw [hd]
    exact execEngAdd_follows hx hp
  · rw [hd]
    exact execEngRound_follows hx hp
  · intro s' hs
    cases (hd s).symm.trans hs

/-! ### The host's move, a turn, a step and a run -/

/-- A poll compares the value it has just read, which is the same (R88). -/
theorem pollMove_follows (h : s.Alike t) (off : BitVec 6) (mask value : Word) :
    Follows (pollMove off mask value s) (pollMove off mask value t) := by
  have read := exec_follows h (isTransaction_decodeBus (readDescriptor off) 0#32)
  intro s' hs
  simp only [pollMove] at hs ⊢
  split at hs
  · next u hu =>
    obtain ⟨u', hu', alike⟩ := read u hu
    have same : u'.lastRead = u.lastRead := by simp only [State.lastRead, alike.reads]
    simp only [hu', same]
    split at hs <;> rename_i hm
    · rw [if_pos hm]
      exact alike.follows s' hs
    · rw [if_neg hm, alike.program]
      exact (alike.setProgram _).follows s' hs
  · cases hs
  · cases hs

theorem memMove_follows (h : s.Alike t) (acc : PlatformAccess) :
    Follows (memMove acc s) (memMove acc t) := by
  unfold memMove
  cases acc.reach with
  | outside => exact h.follows
  | secondHost _ => exact nofun
  | wrongWidth _ => exact nofun
  | transaction a d => exact exec_follows h (isTransaction_decodeBus a d)

theorem HostLine.run_follows (h : s.Alike t) (l : HostLine) : Follows (l.run s) (l.run t) := by
  cases l with
  | bus a d => exact exec_follows h (isTransaction_decodeBus a d)
  | poll off mask value => exact pollMove_follows h off mask value
  | mem acc => exact memMove_follows h acc

theorem hostMove_done (hh : s.held = none) (hp : s.program = []) : hostMove s = .next s := by
  simp only [hostMove, hh, hp]

theorem hostMove_follows (h : s.Alike t) : Follows (hostMove s) (hostMove t) := by
  rcases hostMove_cases s with ⟨d, hh, hm⟩ | ⟨hh, hp, hm⟩ | ⟨l, rest, hh, hp, hm⟩ <;> rw [hm]
  · rw [hostMove_held (h.held.trans hh)]
    exact execWrCmd_follows h d
  · rw [hostMove_done (h.held.trans hh) (h.program.trans hp)]
    exact h.follows
  · rw [hostMove_next_line (h.held.trans hh) (h.program.trans hp)]
    exact HostLine.run_follows (h.setProgram rest) l

theorem turnOf_follows (h : s.Alike t) (a : Agent) : Follows (turnOf a s) (turnOf a t) := by
  unfold turnOf
  rw [h.mover]
  cases s.mover a with
  | host => exact hostMove_follows h
  | engine => exact engineMove_follows h

/-- Reset gives the five items the values of one draw, whatever they held: two states alike become
the same state (R260). -/
theorem State.Alike.platformReset (h : s.Alike t) (ps : List Turn) :
    platformReset { t with plan := ps } = platformReset { s with plan := ps } := by
  obtain ⟨x, rfl, -⟩ := h
  rfl

theorem step_follows (h : s.Alike t) : Follows (step s) (step t) := by
  cases hp : s.plan with
  | nil =>
    have hp' := h.plan.trans hp
    by_cases contested : s.hostEnabled = true ∧ s.busy = true
    · obtain ⟨he, hb⟩ := contested
      rw [step_plan_nil_contested hp he hb,
        step_plan_nil_contested hp' (h.hostEnabled.trans he) (h.busy.trans hb), h.draws]
      exact turnOf_follows (h.withSchedule _ _) _
    · have hs : s.hostEnabled = false ∨ s.busy = false := by
        simpa only [not_and_or, Bool.not_eq_true] using contested
      rw [step_plan_nil hp hs, step_plan_nil hp' (by rwa [h.hostEnabled, h.busy])]
      exact turnOf_follows h _
  | cons turn ps =>
    have hp' := h.plan.trans hp
    cases turn with
    | host =>
      rw [step_plan_host hp, step_plan_host hp', h.draws]
      exact turnOf_follows (h.withSchedule _ _) _
    | engine =>
      rw [step_plan_engine hp, step_plan_engine hp', h.draws]
      exact turnOf_follows (h.withSchedule _ _) _
    | reset =>
      rw [step_plan_reset hp, step_plan_reset hp', h.platformReset]
      exact (State.Alike.refl _).follows

theorem run_follows (k : Nat) (h : s.Alike t) :
    Follows (Sys2Proof.core.run k s) (Sys2Proof.core.run k t) := by
  induction k generalizing s t with
  | zero => exact h.follows
  | succ k ih =>
    intro s' hs
    simp only [Host.Core.run] at hs ⊢
    split at hs
    · next u hu =>
      obtain ⟨u', hu', alike⟩ := step_follows h u hu
      have hc : Sys2Proof.core.step t = .next u' := hu'
      simp only [hc]
      exact ih alike s' hs
    · cases hs
    · cases hs

end

/-- Settles O38: before a session the two states are alike, whatever the five items hold; a run
keeps them alike, and states alike have returned the same values. -/
theorem unspecifiedResetItemsAreUnobservable :
    Obligations.UnspecifiedResetItemsAreUnobservable := by
  intro k s t s' mode phase same hrun
  have alike : s.Alike t :=
    ⟨t.unspecified, (congrArg (State.withUnspecified · t.unspecified) same :), .inl ⟨mode, phase⟩⟩
  obtain ⟨t', ht, alike'⟩ := run_follows k alike s' hrun
  exact ⟨t', ht, alike'.reads⟩

end Sys2Proof.Machine

/-! ## Accesses by platform address (00_scope.md R12; 20_memory.md R51, R53; 60_exceptions.md R253)

Where an access ends up is `PlatformAccess.reach`, one rule for each of its branches; the line's run
then follows from that alone. -/

namespace Sys2Proof.Machine

/-- The access is one to the register window: the byte address of its first byte is in it (R51,
assumption log 19). -/
def PlatformAccess.InWindow (acc : PlatformAccess) : Prop :=
  Config.base ≤ acc.addr ∧ acc.addr < Config.base + 64

/-! ### Where an access ends up -/

section
variable {acc : PlatformAccess}

theorem PlatformAccess.reach_outside (out : ¬ acc.InWindow) : acc.reach = .outside :=
  if_neg out

theorem PlatformAccess.reach_secondHost (inside : acc.InWindow) (second : acc.master ≠ 0) :
    acc.reach = .secondHost acc.master :=
  (if_pos inside).trans (if_pos second)

/-- What is left of `reach` in the window, for the engine's own host. -/
theorem PlatformAccess.reach_host (inside : acc.InWindow) (host : acc.master = 0) :
    acc.reach =
      if acc.width ≠ 32 then .wrongWidth acc.width
      else if acc.write then
        .transaction (writeDescriptor (BitVec.ofNat 6 (acc.addr - Config.base))) acc.data
      else .transaction (readDescriptor (BitVec.ofNat 6 (acc.addr - Config.base))) 0#32 :=
  (if_pos inside).trans (if_neg (not_not_intro host))

theorem PlatformAccess.reach_wrongWidth (inside : acc.InWindow) (host : acc.master = 0)
    (wrong : acc.width ≠ 32) : acc.reach = .wrongWidth acc.width := by
  rw [acc.reach_host inside host, if_pos wrong]

theorem PlatformAccess.reach_read (inside : acc.InWindow) (host : acc.master = 0)
    (word : acc.width = 32) (read : acc.write = false) :
    acc.reach =
      .transaction (readDescriptor (BitVec.ofNat 6 (acc.addr - Config.base))) 0#32 := by
  rw [acc.reach_host inside host, if_neg (not_not_intro word), read]
  rfl

theorem PlatformAccess.reach_write (inside : acc.InWindow) (host : acc.master = 0)
    (word : acc.width = 32) (write : acc.write = true) :
    acc.reach =
      .transaction (writeDescriptor (BitVec.ofNat 6 (acc.addr - Config.base))) acc.data := by
  rw [acc.reach_host inside host, if_neg (not_not_intro word), if_pos write]

/-! ### What the host's line then does -/

variable {s : State}

theorem run_mem_outside (h : acc.reach = .outside) : (HostLine.mem acc).run s = .next s := by
  simp only [HostLine.run, memMove, h]

theorem run_mem_secondHost {m : Nat} (h : acc.reach = .secondHost m) :
    (HostLine.mem acc).run s = .refused (.secondHost m) := by
  simp only [HostLine.run, memMove, h]

theorem run_mem_wrongWidth {b : Nat} (h : acc.reach = .wrongWidth b) :
    (HostLine.mem acc).run s = .refused (.accessWidth b) := by
  simp only [HostLine.run, memMove, h]

theorem run_mem_transaction {a : BitVec 7} {d : Word} (h : acc.reach = .transaction a d) :
    (HostLine.mem acc).run s = exec (decodeBus a d) s := by
  simp only [HostLine.run, memMove, h]

end

/-! ### The obligations -/

/-- Settles O14: in the window the host's 32-bit access reaches the transaction at its offset, and
any access elsewhere ends up outside. -/
theorem windowAccessReachesItsOffset : Obligations.WindowAccessReachesItsOffset := by
  refine ⟨⟨Config.windowIndex, rfl⟩, fun s addr x => ⟨fun low high => ⟨?read, ?write⟩, ?outside⟩⟩
  case read => exact run_mem_transaction (PlatformAccess.reach_read ⟨low, high⟩ rfl rfl rfl)
  case write => exact run_mem_transaction (PlatformAccess.reach_write ⟨low, high⟩ rfl rfl rfl)
  case outside =>
    intro beyond m w b
    have out : ¬ (Config.base ≤ addr ∧ addr < Config.base + 64) := by omega
    exact run_mem_outside (PlatformAccess.reach_outside out)

/-- Settles O15: in the window the master is looked at first, then the width. -/
theorem otherWidthsAndSecondHostAreRefused : Obligations.OtherWidthsAndSecondHostAreRefused := by
  intro s addr m w b x low high
  exact ⟨fun second => run_mem_secondHost (PlatformAccess.reach_secondHost ⟨low, high⟩ second),
    fun wrong => run_mem_wrongWidth (PlatformAccess.reach_wrongWidth ⟨low, high⟩ rfl wrong)⟩

end Sys2Proof.Machine

/-! ## Decoder and encoder agree (30_encoding.md R70 to R72, R80 to R86)

A descriptor, a PHASE code and the operands in them are few enough to check one by one. The two
parts that are 32 bits wide are not: the write data D, which a write carries as it is and no other
row looks at (`decodeBus_eq_withData`), and the command word, whose bits 31:2 are those of ABSORB's
row when its mask says so (`encodeCommand_decodeCommand`). -/

namespace Sys2Proof

/-! ### The write data of a transaction -/

/-- The rows of R71 with WE = 1 (R70). -/
def Instr.isWrite : Instr → Bool
  | .wrId _ | .wrStatus _ | .wrCmd _ | .wrData _ | .wrLen _ _ | .wrRsvd _ _ | .wrDigest _ _
  | .wrMisalignedOdd _ _ | .wrMisalignedHalf _ _ => true
  | _ => false

/-- The instruction with `d` as its write data (R70: "a read has no D"). -/
def Instr.withData (d : Word) : Instr → Instr
  | .wrId _ => .wrId d
  | .wrStatus _ => .wrStatus d
  | .wrCmd _ => .wrCmd d
  | .wrData _ => .wrData d
  | .wrLen sel _ => .wrLen sel d
  | .wrRsvd sel _ => .wrRsvd sel d
  | .wrDigest i _ => .wrDigest i d
  | .wrMisalignedOdd hi _ => .wrMisalignedOdd hi d
  | .wrMisalignedHalf reg _ => .wrMisalignedHalf reg d
  | i => i

/-- The descriptor alone selects the row (R71): D is carried along. -/
theorem decodeBus_eq_withData (a : BitVec 7) (d : Word) :
    decodeBus a d = (decodeBus a 0#32).withData d := by
  simp only [decodeBus, apply_ite (Instr.withData d)]
  simp only [Instr.withData]

theorem decodeBus_of_zero_data {a : BitVec 7} {i : Instr} (row : decodeBus a 0#32 = i) (d : Word) :
    decodeBus a d = i.withData d :=
  row ▸ decodeBus_eq_withData a d

@[simp] theorem Instr.mnemonic_withData (d : Word) (i : Instr) :
    (i.withData d).mnemonic = i.mnemonic := by
  cases i <;> rfl

theorem encode_withData {i : Instr} (write : i.isWrite = true) {a : BitVec 7} {e : Word}
    (row : encode i = .bus a e) (d : Word) : encode (i.withData d) = .bus a d := by
  cases i with
  | wrId _ | wrStatus _ | wrCmd _ | wrData _ | wrLen _ _ | wrRsvd _ _ | wrDigest _ _
  | wrMisalignedOdd _ _ | wrMisalignedHalf _ _ => cases row; rfl
  | _ => cases write

/-! ### Bus transactions -/

theorem encode_decodeBus_zero_data : ∀ a : BitVec 7, encode (decodeBus a 0#32) = .bus a 0#32 := by
  decide

theorem isWrite_decodeBus_zero_data :
    ∀ a : BitVec 7, (decodeBus a 0#32).isWrite = a.getLsbD 6 := by decide

/-- The transaction decoder loses nothing but the D of a read (R70, R71). -/
theorem encode_decodeBus {a : BitVec 7} {d : Word} (data : a.getLsbD 6 = true ∨ d = 0#32) :
    encode (decodeBus a d) = .bus a d := by
  rcases data with we | rfl
  · rw [decodeBus_eq_withData]
    exact encode_withData ((isWrite_decodeBus_zero_data a).trans we)
      (encode_decodeBus_zero_data a) d
  · exact encode_decodeBus_zero_data a

/-- The row a descriptor selects in the table of R71 is the decoder's. -/
theorem filter_busTable_takes : ∀ a : BitVec 7,
    (busTable.filter fun r => r.takes a).map Row.mnemonic = [(decodeBus a 0#32).mnemonic] := by
  decide

theorem Instr.wellFormed_of_isTransaction {i : Instr} (bus : i.isTransaction = true) :
    i.wellFormed = true := by
  cases i with
  | cmdIllegal _ => cases bus
  | _ => rfl

/-! ### Command words -/

/-- The command decoder loses nothing: of an ABSORB word the mask fixes bits 31:2 (R81, R83). -/
theorem encodeCommand_decodeCommand (w : Word) : encodeCommand (decodeCommand w) = w := by
  unfold decodeCommand
  split_ifs with isNop isInit isAbsorb isFinal
  · exact isNop.symm
  · exact isInit.symm
  · have high : w.extractLsb' 2 30 = 0x08000000#30 := by
      have ones : (0xFFFFFFFC#32).extractLsb' 2 30 = BitVec.allOnes 30 := rfl
      have fixed := congrArg (BitVec.extractLsb' 2 30) isAbsorb
      rwa [BitVec.extractLsb'_and, ones, BitVec.and_allOnes] at fixed
    calc 0x08000000#30 ++ w.extractLsb' 0 2
        = w.extractLsb' 2 30 ++ w.extractLsb' 0 2 := by rw [high]
      _ = w := BitVec.extractLsb'_append_extractLsb'
  · exact isFinal.symm
  · rfl

theorem decodeCommand_of_not_legal {w : Word} (illegal : legalCommandWord w = false) :
    decodeCommand w = .illegal w := by
  simp only [legalCommandWord, Bool.or_eq_false_iff, beq_eq_false_iff_ne] at illegal
  obtain ⟨⟨⟨notNop, notInit⟩, notAbsorb⟩, notFinal⟩ := illegal
  simp only [decodeCommand, notNop, notInit, notAbsorb, notFinal, if_false]

/-- A word decodes as illegal only where no other row of R81 takes it (R83). -/
theorem wellFormed_decodeCmd (w : Word) : (decodeCmd w).wellFormed = true := by
  unfold decodeCmd decodeCommand
  split_ifs with isNop isInit isAbsorb isFinal
  case neg =>
    simp [Command.toInstr, Instr.wellFormed, legalCommandWord, isNop, isInit, isAbsorb, isFinal]
  all_goals rfl

theorem encode_toInstr (c : Command) : encode c.toInstr = .cmd (encodeCommand c) := by
  cases c <;> rfl

theorem encode_decodeCmd (w : Word) : encode (decodeCmd w) = .cmd w := by
  rw [decodeCmd, encode_toInstr, encodeCommand_decodeCommand]

/-- The encoder of commands loses nothing (R81, R83). -/
theorem decodeCommand_encodeCommand {c : Command} (wf : c.toInstr.wellFormed = true) :
    decodeCommand (encodeCommand c) = c := by
  cases c with
  | illegal w => exact decodeCommand_of_not_legal ((Bool.not_eq_true' _).mp wf)
  | absorb n => revert n; decide
  | nop | init | final => rfl

/-- A word decodes as a well-formed command exactly when it is that command's encoding. -/
theorem decodeCmd_eq_iff {c : Command} (wf : c.toInstr.wellFormed = true) (w : Word) :
    decodeCmd w = c.toInstr ↔ w = encodeCommand c := by
  constructor
  · intro decoded
    have code := encode_decodeCmd w
    rw [decoded, encode_toInstr] at code
    exact (CodeWord.cmd.inj code).symm
  · rintro rfl
    exact congrArg Command.toInstr (decodeCommand_encodeCommand wf)

theorem decode_encode_toInstr {c : Command} (wf : c.toInstr.wellFormed = true) :
    decode (encode c.toInstr) = c.toInstr := by
  rw [encode_toInstr]
  exact (decodeCmd_eq_iff wf _).2 rfl

/-- ABSORB's word is its row's word with N in bits 1:0 (R81, R82). -/
theorem encodeCommand_absorb :
    ∀ n : BitVec 2, encodeCommand (.absorb n) = 0x20000000#32 + n.setWidth 32 := by decide

/-! ### PHASE codes -/

/-- The row a PHASE code selects in the table of R85 is the decoder's. -/
theorem filter_phaseTable_takes : ∀ p : BitVec 7,
    (phaseTable.filter fun r => r.takes p).map Row.mnemonic = [(decodePhase p).mnemonic] := by
  decide

theorem decodePhase_round :
    ∀ t : BitVec 6, decodePhase (0x40#7 ||| t.setWidth 7) = .engRound t := by decide

/-- ENG_UNREACHABLE is the codes 0x03 to 0x3F (R86). -/
theorem decodePhase_unreachable_iff : ∀ p : BitVec 7,
    (decodePhase p).mnemonic = "ENG_UNREACHABLE" ↔ 3 ≤ p.toNat ∧ p.toNat ≤ 0x3F := by
  decide

/-! ### The obligations -/

/-- Settles O1: row by row, over all operands of a row; the write data is carried along, and a
CMD_ILLEGAL word lies in no other row. -/
theorem encodeThenDecodeIsIdentity : Obligations.EncodeThenDecodeIsIdentity := by
  intro i wf
  cases i with
  | rdId | rdStatus | rdCmd | rdData | rdLenLo | rdLenHi => rfl
  | rdRsvd x | rdDigest x | rdMisalignedOdd x | rdMisalignedHalf x => revert x; decide
  | wrId d | wrStatus d | wrCmd d | wrData d => rfl
  | wrLen x d =>
    have row : ∀ x, decode (encode (.wrLen x 0#32)) = .wrLen x 0#32 := by decide
    exact decodeBus_of_zero_data (row x) d
  | wrRsvd x d =>
    have row : ∀ x, decode (encode (.wrRsvd x 0#32)) = .wrRsvd x 0#32 := by decide
    exact decodeBus_of_zero_data (row x) d
  | wrDigest x d =>
    have row : ∀ x, decode (encode (.wrDigest x 0#32)) = .wrDigest x 0#32 := by decide
    exact decodeBus_of_zero_data (row x) d
  | wrMisalignedOdd x d =>
    have row : ∀ x, decode (encode (.wrMisalignedOdd x 0#32)) = .wrMisalignedOdd x 0#32 := by decide
    exact decodeBus_of_zero_data (row x) d
  | wrMisalignedHalf x d =>
    have row : ∀ x, decode (encode (.wrMisalignedHalf x 0#32)) = .wrMisalignedHalf x 0#32 := by
      decide
    exact decodeBus_of_zero_data (row x) d
  | nop => exact decode_encode_toInstr (c := .nop) wf
  | init => exact decode_encode_toInstr (c := .init) wf
  | absorb n => exact decode_encode_toInstr (c := .absorb n) wf
  | final => exact decode_encode_toInstr (c := .final) wf
  | cmdIllegal w => exact decode_encode_toInstr (c := .illegal w) wf
  | engIdle | engSchedule | engAdd | engUnreachable03 => rfl
  | engRound x | engUnreachable04 x | engUnreachable08 x | engUnreachable10 x
  | engUnreachable20 x => revert x; decide

/-- Settles O2: each of the three decoders loses nothing. -/
theorem decodeThenEncodeIsIdentity : Obligations.DecodeThenEncodeIsIdentity := by
  refine ⟨fun a d data => ⟨encode_decodeBus data, ?bus⟩,
    fun w => ⟨encode_decodeCmd w, wellFormed_decodeCmd w⟩,
    fun p => ⟨Machine.encode_decodePhase p, ?phase⟩⟩
  case bus => exact Instr.wellFormed_of_isTransaction (isTransaction_decodeBus a d)
  case phase => revert p; decide

/-- Settles O3: descriptor by descriptor, as D does not bear on the row. -/
theorem everyDescriptorSelectsExactlyOneRow : Obligations.EveryDescriptorSelectsExactlyOneRow := by
  intro a d
  rw [decodeBus_eq_withData, Instr.mnemonic_withData]
  exact filter_busTable_takes a

/-- Settles O4: a word decodes as a command exactly when it is that command's encoding. -/
theorem commandWordsDecodeExactly : Obligations.CommandWordsDecodeExactly := by
  intro w
  refine ⟨decodeCmd_eq_iff (c := .nop) rfl w, decodeCmd_eq_iff (c := .init) rfl w, fun n => ?absorb,
    decodeCmd_eq_iff (c := .final) rfl w, ?illegal⟩
  case absorb =>
    rw [← encodeCommand_absorb]
    exact decodeCmd_eq_iff (c := .absorb n) rfl w
  case illegal =>
    rintro ⟨notNop, notInit, notFinal, notAbsorb⟩
    have word := encodeCommand_decodeCommand w
    unfold decodeCmd
    cases hc : decodeCommand w <;> rw [hc] at word
    case nop => exact absurd word.symm notNop
    case init => exact absurd word.symm notInit
    case absorb n => exact absurd (word.symm.trans (encodeCommand_absorb n)) (notAbsorb n)
    case final => exact absurd word.symm notFinal
    case illegal v => exact congrArg Instr.cmdIllegal word

/-- Settles O5: the table, ROUND's operand and the unreachable range, code by code. -/
theorem everyPhaseCodeSelectsExactlyOneRow : Obligations.EveryPhaseCodeSelectsExactlyOneRow := by
  intro p
  exact ⟨filter_phaseTable_takes p, fun t code => code ▸ decodePhase_round t,
    decodePhase_unreachable_iff p⟩

/-- Settles O6, by decoding the nine words. -/
theorem sampleWordsDecodeAsTheTablesSay : Obligations.SampleWordsDecodeAsTheTablesSay := by
  unfold Obligations.SampleWordsDecodeAsTheTablesSay
  decide

end Sys2Proof

/-! ## The formats in a step: a placed word, a poll, the fault of R86 (30_encoding.md R80, R86, R88)

Only the engine can fault: a bus transaction never does, so no line of the host's program does. -/

namespace Sys2Proof.Machine

/-! ### A CMD write performs the word it delivers (R80, R201) -/

theorem exec_toInstr_busy {s : State} (busy : s.busy = true) (c : Command) :
    exec c.toInstr s = .next (s.hold (encodeCommand c)) := by
  cases c with
  | nop => exact acceptWhenIdle_busy (effect := fun s => s) busy
  | init => exact acceptWhenIdle_busy busy
  | absorb n => exact acceptWhenIdle_busy busy
  | final => exact acceptWhenIdle_busy busy
  | illegal w => exact acceptWhenIdle_busy (effect := fun s => s.flag .cmd) busy

/-- WR_CMD is its command, held or not. -/
theorem exec_wrCmd (d : Word) (s : State) : exec (.wrCmd d) s = exec (decodeCmd d) s := by
  cases hb : s.busy with
  | true =>
    rw [decodeCmd, exec_toInstr_busy hb, encodeCommand_decodeCommand]
    exact if_pos hb
  | false =>
    simp only [exec, execWrCmd, hb, decodeCmd]
    cases decodeCommand d <;> rfl

/-- PHASE codes are internal: no raw word is one (R85). -/
theorem readRaw_ne_phase (nbits w : Nat) (p : BitVec 7) : readRaw nbits w ≠ .ok (.phase p) := by
  unfold readRaw
  split_ifs <;> exact nofun

/-- Settles O8: a placed bus word is the host's next transaction; a placed command word is the
WR_CMD that delivers it. -/
theorem nextStepRunsPlacedWord : Obligations.NextStepRunsPlacedWord := by
  intro s nbits w i decoded
  have transaction (a : BitVec 7) (d : Word) :
      step (s.withTransaction a d) = exec (decodeBus a d) { s with held := none } :=
    have ⟨hostTurn, _⟩ :=
      hostStepRunsDecodedTransaction (s.withTransaction a d) a d s.program rfl rfl
    hostTurn s.plan rfl
  cases hr : readRaw nbits w with
  | error _ =>
    rw [decodeTableWord, hr] at decoded
    cases decoded
  | ok c =>
    rw [decodeTableWord, hr] at decoded
    cases decoded
    rw [State.withFetchWord, hr]
    cases c with
    | bus a d => exact transaction a d
    | cmd d => exact (transaction 0x48#7 d).trans (exec_wrCmd d _)
    | phase p => exact absurd hr (readRaw_ne_phase nbits w p)

/-! ### Reads and polls (R57, R88) -/

/-- The value a read returns (R191 to R199). -/
def State.readValue (s : State) : Instr → Word
  | .rdId => idValue
  | .rdStatus => s.statusWord
  | .rdData => s.data
  | .rdLenLo => s.lenLo
  | .rdLenHi => s.lenHi
  | .rdDigest i => s.digestWord i
  | _ => 0x00000000#32

/-- A read returns its value and does nothing else, whatever PHASE is (R57, R190). -/
theorem exec_read {i : Instr} (bus : i.isTransaction = true) (read : i.isWrite = false)
    (s : State) : exec i s = .next (s.answer (s.readValue i)) := by
  cases i with
  | wrId _ | wrStatus _ | wrCmd _ | wrData _ | wrLen _ _ | wrRsvd _ _ | wrDigest _ _
  | wrMisalignedOdd _ _ | wrMisalignedHalf _ _ => cases read
  | nop | init | absorb _ | final | cmdIllegal _ | engIdle | engSchedule | engAdd
  | engRound _ | engUnreachable03 | engUnreachable04 _ | engUnreachable08 _ | engUnreachable10 _
  | engUnreachable20 _ => cases bus
  | _ => rfl

theorem isWrite_readDescriptor :
    ∀ off : BitVec 6, (decodeBus (readDescriptor off) 0#32).isWrite = false := by decide

theorem exec_readDescriptor (off : BitVec 6) (s : State) :
    exec (decodeBus (readDescriptor off) 0#32) s =
      .next (s.answer (s.readValue (decodeBus (readDescriptor off) 0#32))) :=
  exec_read (isTransaction_decodeBus _ _) (isWrite_readDescriptor off) s

/-- The value read depends on neither the host's program nor the model's plan. -/
theorem State.readValue_of_program_plan (s : State) (program : List HostLine) (plan : List Turn)
    (i : Instr) :
    State.readValue { s with program := program, plan := plan } i = s.readValue i := by
  cases i <;> rfl

/-- A poll returns what it reads, and is next again unless that is the value wanted (R88). -/
theorem pollMove_eq (off : BitVec 6) (mask value : Word) (s : State) :
    pollMove off mask value s =
      .next { s.answer (s.readValue (decodeBus (readDescriptor off) 0#32)) with
        program :=
          if s.readValue (decodeBus (readDescriptor off) 0#32) &&& mask = value then s.program
          else .poll off mask value :: s.program } := by
  rw [pollMove, exec_readDescriptor]
  generalize s.readValue (decodeBus (readDescriptor off) 0#32) = x
  have last : (s.answer x).lastRead = x := rfl
  dsimp only
  rw [last]
  split <;> rfl

/-- Settles O13: the host's turn is one move of the poll, whatever the plan leaves for later. -/
theorem pollReadsUntilTheMaskedValueMatches :
    Obligations.PollReadsUntilTheMaskedValueMatches := by
  intro s off mask value rest ps held program plan
  refine ⟨s.readValue (decodeBus (readDescriptor off) 0#32), exec_readDescriptor off s, ?_⟩
  obtain ⟨hostTurn, -⟩ := hostStepRunsTheNextLine s (.poll off mask value) rest held program
  rw [hostTurn ps plan, HostLine.run, pollMove_eq, State.readValue_of_program_plan, program]
  rfl

/-! ### Which steps fault (R86, R256) -/

/-- The converse of `exec_fault`: an ENG_UNREACHABLE row is the fault, in every state. -/
theorem exec_unreachable {i : Instr} (row : i.mnemonic = "ENG_UNREACHABLE") (s : State) :
    exec i s = .fault .unreachableSequencerState := by
  cases i with
  | engUnreachable03 | engUnreachable04 _ | engUnreachable08 _ | engUnreachable10 _
  | engUnreachable20 _ => rfl
  | _ => simp [Instr.mnemonic] at row

theorem exec_transaction_ne_fault {i : Instr} (bus : i.isTransaction = true) (s : State)
    (f : Fault) : exec i s ≠ .fault f := by
  intro fault
  have row := exec_fault fault
  cases i with
  | engUnreachable03 | engUnreachable04 _ | engUnreachable08 _ | engUnreachable10 _
  | engUnreachable20 _ => cases bus
  | _ => simp [Instr.mnemonic] at row

theorem HostLine.run_ne_fault (l : HostLine) (s : State) (f : Fault) : l.run s ≠ .fault f := by
  have transaction (a : BitVec 7) (d : Word) : exec (decodeBus a d) s ≠ .fault f :=
    exec_transaction_ne_fault (isTransaction_decodeBus a d) s f
  cases l with
  | bus a d => exact transaction a d
  | poll off mask value =>
    rw [HostLine.run, pollMove_eq]
    exact nofun
  | mem acc =>
    simp only [HostLine.run, memMove]
    split
    · exact nofun
    · exact nofun
    · exact nofun
    · exact transaction _ _

theorem hostMove_ne_fault (s : State) (f : Fault) : hostMove s ≠ .fault f := by
  rcases hostMove_cases s with ⟨d, -, h⟩ | ⟨-, -, h⟩ | ⟨l, rest, -, -, h⟩ <;> rw [h]
  · exact exec_transaction_ne_fault rfl s f
  · exact nofun
  · exact l.run_ne_fault _ f

theorem engineMove_ne_fault {s : State} (legal : s.PhaseLegal) (f : Fault) :
    engineMove s ≠ .fault f := by
  intro fault
  have range := (decodePhase_unreachable_iff s.phase).1 (exec_fault fault)
  unfold State.PhaseLegal at legal
  omega

/-- Settles O41: only the engine could fault, and only on a code that is not legal. -/
theorem noStepFaultsUnderTheInvariants : Obligations.NoStepFaultsUnderTheInvariants := by
  intro s f inv
  obtain ⟨legal, -⟩ := inv
  rcases step_cases s with ⟨ps, -, h⟩ | ⟨ps, n, -, h⟩ | ⟨ps, n, -, h⟩ <;> rw [h]
  · exact nofun
  · exact hostMove_ne_fault _ f
  · exact engineMove_ne_fault (s := s.withSchedule ps n) legal f

/-- An effect leaves PHASE as it is or moves it to a legal code (R35). -/
theorem Effect.phaseLegal {i : Instr} {s t : State} (e : Effect i s t) (legal : s.PhaseLegal) :
    t.PhaseLegal := by
  cases e with
  | absorb _ n _ =>
    rcases State.absorb_cases n s.release with ⟨-, h⟩ | ⟨-, -, h⟩ | ⟨-, -, h⟩ <;> rw [h]
    · exact legal
    · exact legal
    · rcases State.appendBytes_phase (absorbBytes n s.release.data) s.release with hp | ⟨-, hp⟩
      · rw [State.PhaseLegal, hp]
        exact legal
      · rw [State.PhaseLegal, hp]
        exact .inl phaseSchedule_toNat_le
  | final _ _ =>
    rcases State.finish_cases s.release with ⟨-, h⟩ | ⟨-, h⟩ <;> rw [h]
    · exact legal
    · exact .inl phaseSchedule_toNat_le
  | schedule _ => exact .inr (phaseRound_toNat_ge _)
  | round k _ =>
    unfold State.PhaseLegal
    dsimp only
    split
    · decide
    · exact .inr (phaseRound_toNat_ge _)
  | addPending _ _ => exact .inl phaseSchedule_toNat_le
  | addLast _ _ => exact .inl phaseIdle_toNat_le
  | _ => exact legal

/-- Settles O35: the codes 0x03 to 0x3F are the ENG_UNREACHABLE rows, and a step's effect leads to
none of them. -/
theorem unreachablePhaseCodesFault : Obligations.UnreachablePhaseCodesFault := by
  intro s
  refine ⟨rfl, fun _ => rfl, fun _ => rfl, fun _ => rfl, fun _ => rfl, fun p low high => ?code,
    fun t legal next => ?step⟩
  case code => exact exec_unreachable ((decodePhase_unreachable_iff p).2 ⟨low, high⟩) s
  case step =>
    rcases step_effect next with ⟨ps, -, rfl⟩ | ⟨i, _, _, _, _, u, -, e, rfl⟩ | ⟨_, _, _, rfl⟩
    · exact .inl phaseIdle_toNat_le
    · exact e.phaseLegal legal
    · exact legal

end Sys2Proof.Machine

/-! ## The combinational functions (40_primitives.md R101 to R108; 90_conflicts.md C3)

Each function is fixed by what it does to one bit: a rotation moves it, Ch and Maj combine three
bits of one position. The four sigmas are XORs of rotations and shifts, so their linearity is that of
their terms. -/

namespace Sys2Proof.Machine

/-! ### Bit by bit -/

/-- ROTR is the library's rotation for the counts the rules use (R101). -/
theorem rotr_eq_rotateRight (x : Word) {n : Nat} (hn : n < 32) : rotr x n = x.rotateRight n :=
  (BitVec.rotateRight_eq_rotateRightAux_of_lt hn).symm

theorem getLsbD_rotr (x : Word) {n i : Nat} (hn : n < 32) (hi : i < 32) :
    (rotr x n).getLsbD i = x.getLsbD ((i + n) % 32) := by
  rw [rotr_eq_rotateRight x hn, BitVec.getLsbD_rotateRight_of_lt hn]
  by_cases stays : i < 32 - n
  · have moved : (i + n) % 32 = n + i := by omega
    simp [stays, moved]
  · have wrapped : (i + n) % 32 = i - (32 - n) := by omega
    simp [stays, wrapped, hi]

theorem getLsbD_ch (x y z : Word) {i : Nat} (hi : i < 32) :
    (ch x y z).getLsbD i = if x.getLsbD i = true then y.getLsbD i else z.getLsbD i := by
  rw [ch, BitVec.getLsbD_xor, BitVec.getLsbD_and, BitVec.getLsbD_and, BitVec.getLsbD_not]
  cases x.getLsbD i <;> simp [hi]

theorem getLsbD_maj (x y z : Word) (i : Nat) :
    (maj x y z).getLsbD i =
      ((x.getLsbD i && y.getLsbD i) ^^ (x.getLsbD i && z.getLsbD i) ^^
        (y.getLsbD i && z.getLsbD i)) := by
  simp only [maj, BitVec.getLsbD_xor, BitVec.getLsbD_and]

/-- The XOR of the three ANDs is the majority: all three are 1 together, or at most one is. -/
theorem xor_ands_iff_two_le : ∀ a b c : Bool,
    ((a && b) ^^ (a && c) ^^ (b && c)) = true ↔ 2 ≤ a.toNat + b.toNat + c.toNat := by
  decide

/-- Settles O56, one function at a time. -/
theorem rotrChAndMajBitByBit : Obligations.RotrChAndMajBitByBit := by
  intro x y z n i _ hn hi
  refine ⟨getLsbD_rotr x hn hi, getLsbD_ch x y z hi, ?_⟩
  rw [getLsbD_maj]
  exact xor_ands_iff_two_le _ _ _

/-! ### Linearity over XOR -/

/-- A function of a word that maps XORs to XORs. -/
def XorLinear (f : Word → Word) : Prop := ∀ x y, f (x ^^^ y) = f x ^^^ f y

theorem XorLinear.xor {f g : Word → Word} (hf : XorLinear f) (hg : XorLinear g) :
    XorLinear fun x => f x ^^^ g x := by
  intro x y
  dsimp only
  rw [hf, hg]
  ac_rfl

/-- A rotation moves each bit on its own, and so does not see where an XOR is taken. -/
theorem xorLinear_rotr {n : Nat} (hn : n < 32) : XorLinear (rotr · n) := by
  intro x y
  apply BitVec.eq_of_getLsbD_eq
  intro i hi
  simp only [getLsbD_rotr _ hn hi, BitVec.getLsbD_xor]

theorem xorLinear_shr (n : Nat) : XorLinear (shr · n) :=
  fun x y => BitVec.ushiftRight_xor_distrib x y n

/-- The shape of σ0 and σ1 (R103, R104): the XOR of two rotations and a shift. -/
theorem xorLinear_rotr_rotr_shr {j k : Nat} (hj : j < 32) (hk : k < 32) (n : Nat) :
    XorLinear fun x => rotr x j ^^^ rotr x k ^^^ shr x n :=
  ((xorLinear_rotr hj).xor (xorLinear_rotr hk)).xor (xorLinear_shr n)

/-- The shape of Σ0 and Σ1 (R105, R106): the XOR of three rotations. -/
theorem xorLinear_rotr_rotr_rotr {j k n : Nat} (hj : j < 32) (hk : k < 32) (hn : n < 32) :
    XorLinear fun x => rotr x j ^^^ rotr x k ^^^ rotr x n :=
  ((xorLinear_rotr hj).xor (xorLinear_rotr hk)).xor (xorLinear_rotr hn)

/-- Settles O55: each of the four is an XOR of linear terms. -/
theorem sigmasAreLinearOverXor : Obligations.SigmasAreLinearOverXor := by
  have small0 : XorLinear smallSigma0 := xorLinear_rotr_rotr_shr (by decide) (by decide) 3
  have small1 : XorLinear smallSigma1 := xorLinear_rotr_rotr_shr (by decide) (by decide) 10
  have big0 : XorLinear bigSigma0 :=
    xorLinear_rotr_rotr_rotr (by decide) (by decide) (by decide)
  have big1 : XorLinear bigSigma1 :=
    xorLinear_rotr_rotr_rotr (by decide) (by decide) (by decide)
  exact fun x y => ⟨small0 x y, small1 x y, big0 x y, big1 x y⟩

end Sys2Proof.Machine

/-! ## The last blocks of PAD(M) (41_padding.md R120, R122, R125 to R127)

PAD_TAIL and LENGTH_BLOCK build their blocks from BUF and the counters; PAD appends to the whole message.
Dropping the blocks already loaded leaves the message's tail with PAD's suffix, which is one block where the
length fits behind the tail and two where it does not. -/

namespace Sys2Proof.Machine

/-! ### Cutting into blocks -/

/-- The blocks after the first `n` are the blocks of the bytes after them. -/
theorem drop_blocks (n : Nat) (p : List Byte) : (blocks p).drop n = blocks (p.drop (64 * n)) := by
  refine List.ext_getElem (by simp [blocks]; omega) fun j _ _ => ?_
  simp [blocks, Nat.mul_add]

@[simp] theorem blocks_nil : blocks [] = [] := rfl

/-- A leading block is the first of the blocks. -/
theorem blocks_append {blk : List Byte} (h : blk.length = 64) (p : List Byte) :
    blocks (blk ++ p) = blk :: blocks p := by
  have past (j : Nat) : blk.drop (64 * j + 64) = [] := List.drop_eq_nil_of_le (by omega)
  simp [blocks, List.range_succ_eq_map, List.drop_append, h, Nat.mul_add, past]

theorem blocks_of_length {blk : List Byte} (h : blk.length = 64) : blocks blk = [blk] := by
  simpa using blocks_append h []

/-! ### PAD after the blocks already loaded -/

theorem drop_pad (m : List Byte) :
    (pad m).drop (64 * (m.length / 64)) =
      m.drop (64 * (m.length / 64)) ++ [0x80#8] ++ List.replicate (padZeros m.length) 0x00#8 ++
        be64 (BitVec.ofNat 64 (8 * m.length)) := by
  have le : 64 * (m.length / 64) ≤ m.length := Nat.mul_div_le ..
  simp [pad, List.drop_append_of_le_length le]

/-- The length fits behind the tail (R120). -/
theorem padZeros_of_le {n : Nat} (h : n % 64 ≤ 55) : padZeros n = 55 - n % 64 := by
  rw [padZeros]; omega

/-- The zeros fill the tail's block and reach the length in the next (R120). -/
theorem padZeros_of_gt {n : Nat} (h : 55 < n % 64) : padZeros n = 63 - n % 64 + 56 := by
  rw [padZeros]; omega

/-! ### The block PAD_TAIL loads -/

theorem State.tailBlock_of_le {s : State} (h : s.bufCnt.toNat ≤ 55) :
    s.tailBlock = s.buf.toList.take s.bufCnt.toNat ++ [0x80#8] ++
      List.replicate (55 - s.bufCnt.toNat) 0x00#8 ++ be64 s.messageBits := by
  have taken : (s.buf.toList.take s.bufCnt.toNat ++ [0x80#8]).length = s.bufCnt.toNat + 1 := by
    simp; omega
  rw [State.tailBlock, if_pos h, List.take_append, taken, List.take_of_length_le (by omega),
    List.take_replicate]
  congr 3
  omega

theorem State.tailBlock_of_gt {s : State} (h : 55 < s.bufCnt.toNat) :
    s.tailBlock = s.buf.toList.take s.bufCnt.toNat ++ [0x80#8] ++
      List.replicate (63 - s.bufCnt.toNat) 0x00#8 :=
  if_neg (by omega)

/-- BUF's valid bytes are the tail of a message they agree with place by place. -/
theorem State.take_buf_eq_drop {s : State} {m : List Byte} {n : Nat}
    (cnt : s.bufCnt.toNat = m.length - n)
    (same : ∀ j, j < m.length - n → s.buf[j]? = m[n + j]?) :
    s.buf.toList.take s.bufCnt.toNat = m.drop n := by
  refine List.ext_getElem? fun j => ?_
  by_cases hj : j < m.length - n
  · simp [cnt, hj, same]
  · simp [cnt, hj]

/-- `8 * L` is the message's bit length (R29, R125). -/
theorem State.messageBits_eq {s : State} {n : Nat} (len : s.len.toNat = n) :
    s.messageBits = BitVec.ofNat 64 (8 * n) := by
  rw [← len, BitVec.ofNat_mul, BitVec.ofNat_toNat, BitVec.setWidth_eq, State.messageBits]

/-! ### The two agree -/

/-- Settles O52: by whether the length fits behind the tail, which has at most 55 bytes then. -/
theorem finalBlocksAgreeWithPad : Obligations.FinalBlocksAgreeWithPad := by
  intro s m _ len cnt same
  have rest : m.length - 64 * (m.length / 64) = m.length % 64 := by omega
  have tail : s.buf.toList.take s.bufCnt.toNat = m.drop (64 * (m.length / 64)) :=
    State.take_buf_eq_drop (cnt.trans rest.symm) (by rwa [rest])
  have bits : s.messageBits = BitVec.ofNat 64 (8 * m.length) := State.messageBits_eq len
  rw [drop_blocks, drop_pad, ← tail, ← bits]
  by_cases fits : s.bufCnt.toNat ≤ 55
  · rw [if_neg (by omega), padZeros_of_le (by omega), ← cnt, ← State.tailBlock_of_le fits,
      blocks_of_length s.tailBlock_length]
  · rw [if_pos (by omega), padZeros_of_gt (by omega), ← cnt, ← List.replicate_append_replicate,
      ← List.append_assoc, ← State.tailBlock_of_gt (by omega), List.append_assoc,
      blocks_append s.tailBlock_length, blocks_of_length (by simp), State.messageBits]

end Sys2Proof.Machine

/-! ## The SCHEDULE step (42_schedule.md R140, R141)

The recurrence itself is `wordAt_extendSchedule_loaded` and `wordAt_extendSchedule_derived`: a word
written later in the loop changes none of the words an earlier one was made of. -/

namespace Sys2Proof.Machine

/-- The three items R141 lists as written. -/
theorem exec_engSchedule (s : State) :
    exec .engSchedule s =
      .next { s with w := extendSchedule s.w, v := s.h, phase := phaseRound 0#6 } := rfl

/-- The PHASE code of the first round (R35). -/
theorem phaseRound_zero : phaseRound 0#6 = 0x40#7 := rfl

/-- Settles O32: the new W is `extendSchedule` of the old, which keeps the loaded words and meets the
recurrence in the others. -/
theorem scheduleStepExtendsWAndSeedsV : Obligations.ScheduleStepExtendsWAndSeedsV := by
  refine ⟨rfl, fun s => ⟨_, exec_engSchedule s, ?loaded, ?derived, rfl, phaseRound_zero, rfl⟩⟩
  case loaded =>
    exact fun k loaded => wordAt_extendSchedule_loaded s.w k loaded
  case derived =>
    intro k lo hi
    rw [← scheduleWord]
    exact wordAt_extendSchedule_derived s.w k lo hi

end Sys2Proof.Machine

/-! ## A round and a block (43_compression.md R150 to R153)

ROUND(t) reads K[t] and W[t] and leaves W alone, so the rounds from SCHEDULE to ADD fold `roundF` over the
schedule that stands in W. That schedule is SCHED of the loaded block, since both meet the recurrence of
R140 from the same sixteen words; the fold is then the one `compress` is made of. -/

namespace Sys2Proof.Machine

/-! ### The ROUND(t) step (R150, R151, R153) -/

theorem phaseRound_eq_or : ∀ t : BitVec 6, phaseRound t = 0x40#7 ||| t.setWidth 7 := by decide

@[simp] theorem decodePhase_phaseRound (t : BitVec 6) :
    decodePhase (phaseRound t) = .engRound t := by
  rw [phaseRound_eq_or]
  exact decodePhase_round t

/-- The two items R153 lists as written. -/
theorem exec_engRound (t : BitVec 6) (s : State) :
    exec (.engRound t) s =
      .next { s with
        v := roundF s.v (kAt t) (wordAt s.w t.toNat)
        phase := if t = 63#6 then phaseAdd else phaseRound (t + 1#6) } := rfl

/-- The last round is the one with no number above its own (R153). -/
theorem phase_after_round (t : BitVec 6) :
    (if t = 63#6 then phaseAdd else phaseRound (t + 1#6)) =
      if t.toNat < 63 then 0x40#7 ||| (t + 1#6).setWidth 7 else 0x02#7 := by
  have last : t.toNat < 63 ↔ ¬ t = 63#6 := by bv_omega
  simp only [last, ite_not, phaseRound_eq_or]

/-- Settles O33: `roundF` is R151's update written for the vector (a, ..., h), and W[t] is always one of
the 64 words. -/
theorem roundStepUpdatesTheWorkingVariables : Obligations.RoundStepUpdatesTheWorkingVariables := by
  refine ⟨decodePhase_round, fun s t a b c d e f g h vars => ?_⟩
  rw [exec_engRound, phase_after_round, wordAt_eq_getElem s.w t.toNat t.isLt, vars]
  rfl

/-! ### SCHED and the schedule in W (R140) -/

/-- SCHED's words are those of any array that begins with the same words and meets the recurrence. -/
theorem growSchedule_getD {w : Vector Word 64}
    (derived : ∀ t, 16 ≤ t → t < 64 → wordAt w t = scheduleWord w t) (n : Nat) {ws : List Word}
    (lo : 16 ≤ ws.length) (hi : ws.length + n ≤ 64)
    (same : ∀ t, t < ws.length → ws.getD t 0#32 = wordAt w t) {t : Nat} (ht : t < ws.length + n) :
    (growSchedule n ws).getD t 0#32 = wordAt w t := by
  induction n generalizing ws with
  | zero => exact same t ht
  | succ n ih =>
    have next : nextScheduleWord ws = wordAt w ws.length := by
      rw [nextScheduleWord, same _ (by omega), same _ (by omega), same _ (by omega),
        same _ (by omega), derived _ lo (by omega), scheduleWord]
    have length : (ws ++ [nextScheduleWord ws]).length = ws.length + 1 := List.length_append
    refine ih (by omega) (by omega) (fun u hu => ?_) (by omega)
    by_cases old : u < ws.length
    · rw [List.getD_append _ _ _ _ old, same u old]
    · obtain rfl : u = ws.length := by omega
      rw [List.getD_append_right _ _ _ _ le_rfl, Nat.sub_self, List.getD_cons_zero, next]

/-- The SCHEDULE step computes SCHED of the block that stands in W[0..15] (R140, R141). -/
theorem sched_getD {w : Vector Word 64} {blk : List Byte}
    (loaded : ∀ t, t < 16 → wordAt w t = blockWord blk t) {t : Nat} (ht : t < 64) :
    (sched blk).getD t 0#32 = wordAt (extendSchedule w) t := by
  refine growSchedule_getD (wordAt_extendSchedule_derived w) 48 (by simp) (by simp)
    (fun u hu => ?_) (by simpa using ht)
  have h16 : u < 16 := by simpa using hu
  simp [h16, wordAt_extendSchedule_loaded, loaded]

/-! ### The engine alone, from SCHEDULE to ADD -/

/-- Round `t` on the working variables, with the schedule that stands in `w`. -/
def roundWith (w : Vector Word 64) (v : Vector Word 8) (t : Nat) : Vector Word 8 :=
  roundF v (kTable.getD t 0#32) (wordAt w t)

/-- R152's 64 rounds over SCHED are those over W as SCHEDULE leaves it. -/
theorem rounds_sched {w : Vector Word 64} {blk : List Byte}
    (loaded : ∀ t, t < 16 → wordAt w t = blockWord blk t) (v : Vector Word 8) :
    rounds (sched blk) v = (List.range' 0 64).foldl (roundWith (extendSchedule w)) v := by
  rw [rounds, List.range_eq_range']
  refine List.foldl_ext _ _ _ fun v t ht => ?_
  rw [sched_getD loaded (by simpa using ht), roundWith]

theorem engineRun_succ {s t : State} (h : engineMove s = .next t) (n : Nat) :
    engineRun (n + 1) s = engineRun n t := by
  rw [engineRun, h]

theorem engineMove_schedule {s : State} (atSchedule : s.phase = phaseSchedule) :
    engineMove s =
      .next { s with w := extendSchedule s.w, v := s.h, phase := phaseRound 0#6 } := by
  rw [engineMove, atSchedule]
  rfl

theorem engineMove_add {s : State} (atAdd : s.phase = phaseAdd) :
    engineMove s = execEngAdd s := by
  rw [engineMove, atAdd]
  rfl

theorem engineMove_round {s : State} {k : BitVec 6} (atRound : s.phase = phaseRound k) :
    engineMove s =
      .next { s with
        v := roundWith s.w s.v k.toNat
        phase := if k = 63#6 then phaseAdd else phaseRound (k + 1#6) } := by
  rw [engineMove, atRound, decodePhase_phaseRound, exec_engRound]
  rfl

/-- The rounds from ROUND(k) to ROUND(63) end in ADD; V alone has changed with PHASE (R153). -/
theorem engineRun_rounds (m n : Nat) {s : State} {k : BitVec 6} (atRound : s.phase = phaseRound k)
    (left : k.toNat + n = 63) :
    engineRun (m + (n + 1)) s =
      engineRun m { s with
        v := (List.range' k.toNat (n + 1)).foldl (roundWith s.w) s.v
        phase := phaseAdd } := by
  rw [← Nat.add_assoc, engineRun_succ (engineMove_round atRound)]
  induction n generalizing s k with
  | zero =>
    have last : k = 63#6 := by bv_omega
    rw [if_pos last]
    rfl
  | succ n ih =>
    have more : k ≠ 63#6 := by bv_omega
    have number : (k + 1#6).toNat = k.toNat + 1 := by bv_omega
    rw [if_neg more, ← Nat.add_assoc, engineRun_succ (engineMove_round rfl),
      ih rfl (by omega), number, ← List.foldl_cons, List.range'_succ (s := k.toNat)]

/-- The state before the ADD step of the block `blk`: V holds what is to be fed forward. -/
def State.beforeAdd (s : State) (blk : List Byte) : State :=
  { s with w := extendSchedule s.w, v := rounds (sched blk) s.h, phase := phaseAdd }

/-- SCHEDULE and the 64 rounds of a loaded block (R141, R153). -/
theorem engineRun_block (m : Nat) {s : State} {blk : List Byte} (atSchedule : s.phase = phaseSchedule)
    (loaded : ∀ t, t < 16 → wordAt s.w t = blockWord blk t) :
    engineRun (m + 65) s = engineRun m (s.beforeAdd blk) := by
  rw [engineRun_succ (engineMove_schedule atSchedule) (m + 64), engineRun_rounds m 63 rfl rfl,
    State.beforeAdd, rounds_sched loaded]
  rfl

/-- Settles O51: 65 steps bring the block to ADD, whose sum is COMPRESS by definition; PEND_LEN says
whether ADD then loads the length block. -/
theorem blockStepsComputeCompress : Obligations.BlockStepsComputeCompress := by
  intro s blk atSchedule _ loaded
  have toAdd : engineRun 66 s = engineRun 1 (s.beforeAdd blk) := engineRun_block 1 atSchedule loaded
  have addMove : engineMove (s.beforeAdd blk) = execEngAdd (s.beforeAdd blk) := engineMove_add rfl
  by_cases pend : s.pendLen = true
  · have last := engineRun_succ (addMove.trans (execEngAdd_pending pend)) 0
    rw [State.lengthBlock_eq] at last
    refine ⟨_, toAdd.trans last, rfl, (if_pos pend).symm, rfl, fun _ k hk => ?_, rfl⟩
    exact (wordAt_loadWords _ _ k).trans (if_pos hk)
  · have noBlock : s.pendLen = false := Bool.eq_false_iff.2 pend
    have last := engineRun_succ (addMove.trans (execEngAdd_last noBlock)) 0
    exact ⟨_, toAdd.trans last, rfl, (if_neg pend).symm, noBlock, fun h => absurd h pend, rfl⟩

end Sys2Proof.Machine

/-! ## The ADD step and the digest registers (44_block_adder.md R170, R171, R173, R174) -/

namespace Sys2Proof.Machine

theorem exec_engAdd_pending {s : State} (pend : s.pendLen = true) :
    exec .engAdd s =
      .next { s with
        h := feedForward s.h s.v
        w := loadWords (List.replicate 56 0x00#8 ++ be64 s.bitLen) s.w
        phase := phaseSchedule
        pendLen := false } := by
  rw [exec, execEngAdd_pending pend, State.lengthBlock_eq]

theorem exec_engAdd_last {s : State} (last : s.pendLen = false) :
    exec .engAdd s = .next { s with h := feedForward s.h s.v, phase := phaseIdle } :=
  execEngAdd_last last

/-- BE32 of the four bytes in a row from bit `n` is the word there (R111). -/
theorem be32_extractLsb' (x : BitVec 64) (n : Nat) :
    be32 (x.extractLsb' (n + 24) 8) (x.extractLsb' (n + 16) 8) (x.extractLsb' (n + 8) 8)
      (x.extractLsb' n 8) = x.extractLsb' n 32 := by
  have inner (m : Nat) (h : m + 8 ≤ 32) :
      (x.extractLsb' n 32).extractLsb' m 8 = x.extractLsb' (n + m) 8 := by
    ext i hi
    simp only [BitVec.getElem_extractLsb', BitVec.getLsbD_extractLsb']
    rw [Nat.add_assoc]
    simp; omega
  simpa only [inner 24 (by decide), inner 16 (by decide), inner 8 (by decide),
    inner 0 (by decide), Nat.add_zero] using be32_wordBytes (x.extractLsb' n 32)

/-- The words of `0^56 || BE64(x)`: zeros, then the two halves of `x` (R126). -/
theorem blockWord_lengthBlock (x : BitVec 64) {k : Nat} (hk : k < 16) :
    blockWord (List.replicate 56 0x00#8 ++ be64 x) k =
      if k < 14 then 0#32
      else if k = 14 then x.extractLsb' 32 32 else x.extractLsb' 0 32 := by
  have zero : 0#32 = be32 0#8 0#8 0#8 0#8 := rfl
  rw [zero, ← be32_extractLsb', ← be32_extractLsb']
  interval_cases k <;> rfl

/-- Settles O34: the two branches of ADD; the length block's words are 0 but for the halves of
BITLEN. -/
theorem addStepFeedsForward : Obligations.AddStepFeedsForward := by
  refine ⟨rfl, fun s => ?_⟩
  by_cases pend : s.pendLen = true
  case pos =>
    refine ⟨_, exec_engAdd_pending pend, fun i => feedForward_getElem _ _ _ i.isLt, by simp [pend],
      fun _ => ⟨rfl, rfl, fun k => ?_, rfl⟩⟩
    have word := wordAt_loadWords (List.replicate 56 0x00#8 ++ be64 s.bitLen) s.w k.val
    rw [wordAt_eq_getElem _ _ k.isLt, wordAt_eq_getElem _ _ k.isLt] at word
    refine word.trans ?_
    by_cases loaded : k.val < 16
    · rw [if_pos loaded, blockWord_lengthBlock _ loaded]
      split_ifs
      · rfl
      · rfl
      · rfl
      · omega
    · rw [if_neg loaded, if_neg (by omega), if_neg (by omega), if_neg (by omega)]
      rfl
  case neg =>
    have last : s.pendLen = false := Bool.eq_false_iff.2 pend
    exact ⟨_, exec_engAdd_last last, fun i => feedForward_getElem _ _ _ i.isLt, fun _ => ⟨rfl, rfl⟩,
      fun h => absurd h pend⟩

/-- Byte `j` of word `i` is byte `4 * i + j` of the words' bytes in a row (R173). -/
theorem getElem?_flatMap_wordBytes (ws : List Word) (i : Nat) {j : Nat} (hj : j < 4) :
    (ws.flatMap wordBytes)[4 * i + j]? = ws[i]?.bind fun x => (wordBytes x)[j]? := by
  induction ws generalizing i with
  | nil => simp
  | cons x ws ih =>
    cases i with
    | zero =>
      rw [List.flatMap_cons, Nat.mul_zero, Nat.zero_add, List.getElem?_append_left hj]
      rfl
    | succ i =>
      have past : 4 * (i + 1) + j - 4 = 4 * i + j := by omega
      rw [List.flatMap_cons, List.getElem?_append_right (by simp; omega), wordBytes_length, past,
        ih]
      rfl

theorem wordBytes_getElem? (x : Word) (j : Fin 4) :
    (wordBytes x)[j.val]? = some (x.extractLsb' (24 - 8 * j.val) 8) := by
  match j with
  | 0 | 1 | 2 | 3 => rfl

/-- With DVALID = 1 a DIGEST register shows its word of H (R44). -/
theorem State.digestWord_of_dvalid {s : State} (valid : s.dvalid = true) (i : BitVec 3) :
    s.digestWord i = s.h[i.toNat]'i.isLt :=
  if_pos valid

/-- Without DVALID a DIGEST register shows 0 (R44). -/
theorem State.digestWord_of_not_dvalid {s : State} (hidden : s.dvalid = false) (i : BitVec 3) :
    s.digestWord i = 0#32 :=
  if_neg (Bool.eq_false_iff.1 hidden)

/-- Settles O20: the words are those of H, which SER writes out one after another. -/
theorem digestRegistersSerializeToTheDigest :
    Obligations.DigestRegistersSerializeToTheDigest := by
  intro s mode phase
  have valid : s.dvalid = true := s.dvalid_iff.2 ⟨mode, phase⟩
  refine ⟨s.digestWord, fun i => rfl, fun i j => ?_⟩
  have word : s.h.toList[i.toNat]? = some (s.digestWord i) := by
    rw [State.digestWord_of_dvalid valid]
    simp
  rw [ser, getElem?_flatMap_wordBytes _ _ j.isLt, word]
  exact wordBytes_getElem? _ j

end Sys2Proof.Machine

/-! ## Outside a session (44_block_adder.md R176, R177; 60_exceptions.md R248) -/

namespace Sys2Proof.Machine

/-! ### What a step performs -/

theorem performs_of_decodeBus {x : BitVec 7 × Word} {i : Instr} (h : decodeBus x.1 x.2 = i) :
    performs x i.performed = true :=
  h ▸ beq_self_eq_true _

theorem decodeBus_cmdWrite (d : Word) : decodeBus 0x48#7 d = .wrCmd d := rfl

/-- No PHASE code selects INIT (R85). -/
theorem decodePhase_performed_ne_init : ∀ p : BitVec 7, (decodePhase p).performed ≠ .init := by
  decide

/-- A line that answers a next state has run the transaction it stands for, or else changed
nothing. -/
theorem HostLine.run_transaction {l : HostLine} {s t : State} (h : l.run s = .next t) :
    (∃ x u, l.transaction = some x ∧ exec (decodeBus x.1 x.2) s = .next u ∧
      t = { u with program := t.program }) ∨ t = s := by
  cases l with
  | bus a d => exact .inl ⟨(a, d), t, rfl, h, rfl⟩
  | poll off mask value =>
    rw [HostLine.run, pollMove_eq] at h
    injection h with h
    exact .inl ⟨(readDescriptor off, 0#32), _, rfl, exec_readDescriptor off s, by rw [← h]⟩
  | mem acc =>
    simp only [HostLine.run, memMove] at h
    split at h
    · injection h with h; exact .inr h.symm
    · cases h
    · cases h
    · next a d reach => exact .inl ⟨(a, d), t, by simp only [HostLine.transaction, reach], h, rfl⟩

/-- `step_effect`, with the instruction of a host's move named: it is one the host performs next. -/
theorem step_performs {s t : State} (h : step s = .next t) :
    (∃ ps, s.plan = .reset :: ps ∧ t = platformReset { s with plan := ps }) ∨
    (∃ (i : Instr) (program program' : List HostLine) (plan : List Turn) (draws : Nat) (u : State),
      (i.isTransaction = true ∧ s.hostPerforms i.performed = true ∨ i = decodePhase s.phase) ∧
      Effect i { s with program := program, plan := plan, draws := draws } u ∧
      t = { u with program := program' }) ∨
    (∃ (program : List HostLine) (plan : List Turn) (draws : Nat),
      t = { s with program := program, plan := plan, draws := draws }) := by
  rcases step_cases s with ⟨ps, hp, he⟩ | ⟨ps, n, _, he⟩ | ⟨ps, n, _, he⟩ <;> rw [he] at h
  · injection h with h
    exact .inl ⟨ps, hp, h.symm⟩
  · rcases hostMove_cases (s.withSchedule ps n) with ⟨d, hh, hm⟩ | ⟨_, _, hm⟩ |
      ⟨l, rest, hh, hp, hm⟩ <;> rw [hm] at h
    · have next : s.hostPerforms (Instr.wrCmd d).performed = true := by
        simp only [State.hostPerforms, show s.held = some d from hh]
        exact performs_of_decodeBus (x := (0x48#7, d)) (decodeBus_cmdWrite d)
      exact .inr (.inl ⟨.wrCmd d, s.program, t.program, ps, n, t, .inl ⟨rfl, next⟩, exec_effect h,
        rfl⟩)
    · injection h with h
      exact .inr (.inr ⟨s.program, ps, n, h.symm⟩)
    · rcases HostLine.run_transaction h with ⟨x, u, hx, hu, ht⟩ | rfl
      · have next : s.hostPerforms (decodeBus x.1 x.2).performed = true := by
          simp only [State.hostPerforms, show s.held = none from hh,
            show s.program = l :: rest from hp, hx]
          exact performs_of_decodeBus rfl
        exact .inr (.inl ⟨decodeBus x.1 x.2, rest, t.program, ps, n, u,
          .inl ⟨isTransaction_decodeBus _ _, next⟩, exec_effect hu, ht⟩)
      · exact .inr (.inr ⟨rest, ps, n, rfl⟩)
  · exact .inr (.inl
      ⟨decodePhase s.phase, s.program, t.program, ps, n, t, .inr rfl, exec_effect h, rfl⟩)

/-- Outside ACCEPTING a command but INIT is refused or does nothing, so INIT alone changes MODE, and
H and PHASE are the engine's alone to change (R176, R177, R248). -/
theorem Effect.kept_outside_session {i : Instr} {s t : State} (e : Effect i s t)
    (closed : s.mode ≠ .accepting) :
    (i.performed = .init ∧ s.busy = false ∧ t = s.release.startSession) ∨
    (t.mode = s.mode ∧
      (i.isTransaction = true ∨ i = .engIdle → t.h = s.h ∧ t.phase = s.phase)) := by
  cases e with
  | init idle does => exact .inl ⟨does, idle, rfl⟩
  | absorb _ n _ =>
    rw [State.absorb_refused n (s := s.release) closed]
    exact .inr ⟨rfl, fun _ => ⟨rfl, rfl⟩⟩
  | final _ _ =>
    rw [State.finish_refused (s := s.release) closed]
    exact .inr ⟨rfl, fun _ => ⟨rfl, rfl⟩⟩
  | schedule isSchedule => exact .inr ⟨rfl, by simp [isSchedule, Instr.isTransaction]⟩
  | round k isRound => exact .inr ⟨rfl, by simp [isRound, Instr.isTransaction]⟩
  | addPending isAdd _ => exact .inr ⟨rfl, by simp [isAdd, Instr.isTransaction]⟩
  | addLast isAdd _ => exact .inr ⟨rfl, by simp [isAdd, Instr.isTransaction]⟩
  | _ => exact .inr ⟨rfl, fun _ => ⟨rfl, rfl⟩⟩

/-! ### The obligations -/

/-- Settles O48: with PHASE IDLE the engine rests, and FINALIZED is outside ACCEPTING. -/
theorem digestStaysReadable : Obligations.DigestStaysReadable := by
  intro s t valid h
  obtain ⟨mode, idle⟩ := s.dvalid_iff.1 valid
  rcases step_performs h with ⟨ps, hp, rfl⟩ | ⟨i, p, p', ps, n, u, who, e, rfl⟩ | ⟨_, _, _, rfl⟩
  · exact .inr (.inr ⟨rfl, ps, hp⟩)
  · have resting : decodePhase s.phase = .engIdle := by rw [idle]; rfl
    rw [resting] at who
    rcases e.kept_outside_session (by simp [mode]) with ⟨init, -, rfl⟩ | ⟨keepMode, keep⟩
    · obtain ⟨-, next⟩ := who.resolve_right fun eng => nomatch (eng ▸ init :)
      exact .inr (.inl ⟨init ▸ next, rfl, rfl, rfl⟩)
    · obtain ⟨keepH, keepPhase⟩ := keep (who.imp_left And.left)
      exact .inl ⟨keepH, keepMode, keepPhase,
        (State.dvalid_iff _).2 ⟨keepMode.trans mode, keepPhase.trans idle⟩⟩
  · exact .inl ⟨rfl, rfl, rfl, valid⟩

/-- Settles O49: FAILED is outside ACCEPTING, and not a session with a digest. -/
theorem failedSessionShowsNoDigest : Obligations.FailedSessionShowsNoDigest := by
  intro s t failed
  have closed : s.mode ≠ .accepting := by simp [failed]
  refine ⟨fun i => ?digest, fun idle => ?final, fun h => ?step⟩
  case digest =>
    have hidden : s.dvalid = false := by simp [State.dvalid, failed]
    rw [exec, execRdDigest, State.digestWord_of_not_dvalid hidden]
    rfl
  case final =>
    refine (acceptWhenIdle_idle (effect := State.finish) idle).trans ?_
    rw [State.finish_refused (s := s.release) closed]
    rfl
  case step =>
    rcases step_performs h with ⟨ps, hp, rfl⟩ | ⟨i, p, p', ps, n, u, who, e, rfl⟩ | ⟨_, _, _, rfl⟩
    · exact .inr (.inr ⟨rfl, ps, hp⟩)
    · rcases e.kept_outside_session closed with ⟨init, idle, rfl⟩ | ⟨keepMode, -⟩
      · obtain ⟨-, next⟩ :=
          who.resolve_right fun eng => decodePhase_performed_ne_init s.phase (eng ▸ init)
        exact .inr (.inl ⟨init ▸ next, s.busy_eq_false_iff.1 idle, rfl, rfl⟩)
      · exact .inl (keepMode.trans failed)
    · exact .inl failed

end Sys2Proof.Machine

/-! ## A hash session (44_block_adder.md R172, R175; 70_reset_and_hazards.md R269 to R271)

The two agents work on different items: a transaction that is not held leaves a block in progress
alone, and an engine step leaves everything else alone. So from every state of a session the H the
engine is heading for is settled, whatever the host does meanwhile (`State.Settles`). It is the
chaining state of the blocks loaded so far, which BUF's tail completes to the whole message
(`State.Took`); FINAL loads the blocks of PAD that are left. Every step either brings the host
nearer to the end of its program or the engine nearer to IDLE, so the run ends (`State.Stage`). -/

namespace Sys2Proof.Machine

theorem State.phase_idle_of_not_busy {s : State} (h : s.busy ≠ true) : s.phase = phaseIdle :=
  s.busy_eq_false_iff.1 (Bool.eq_false_iff.2 h)

/-! ### What the engine is heading for -/

/-- The state with no more than what an engine step reads and writes. -/
def State.datapath (s : State) : State :=
  { State.reset with
    h := s.h, v := s.v, w := s.w, bitLen := s.bitLen, pendLen := s.pendLen, phase := s.phase }

@[simp] theorem State.datapath_h (s : State) : s.datapath.h = s.h := rfl
@[simp] theorem State.datapath_w (s : State) : s.datapath.w = s.w := rfl
@[simp] theorem State.datapath_bitLen (s : State) : s.datapath.bitLen = s.bitLen := rfl
@[simp] theorem State.datapath_pendLen (s : State) : s.datapath.pendLen = s.pendLen := rfl
@[simp] theorem State.datapath_phase (s : State) : s.datapath.phase = s.phase := rfl

theorem engineMove_add_pending {s : State} (atAdd : s.phase = phaseAdd)
    (pend : s.pendLen = true) :
    engineMove s =
      .next { s with
        h := feedForward s.h s.v
        w := loadWords (List.replicate 56 0x00#8 ++ be64 s.bitLen) s.w
        phase := phaseSchedule
        pendLen := false } :=
  (engineMove_add atAdd).trans (exec_engAdd_pending pend)

theorem engineMove_add_last {s : State} (atAdd : s.phase = phaseAdd) (last : s.pendLen = false) :
    engineMove s = .next { s with h := feedForward s.h s.v, phase := phaseIdle } :=
  (engineMove_add atAdd).trans (exec_engAdd_last last)

/-- What a step of the engine in a block can do, PHASE by PHASE (R36, R141, R153, R171). -/
theorem engineMove_cases {s t : State} (busy : s.busy = true) (h : engineMove s = .next t) :
    (s.phase = phaseSchedule ∧
      t = { s with w := extendSchedule s.w, v := s.h, phase := phaseRound 0#6 }) ∨
    (∃ k, s.phase = phaseRound k ∧
      t = { s with
        v := roundWith s.w s.v k.toNat
        phase := if k = 63#6 then phaseAdd else phaseRound (k + 1#6) }) ∨
    (s.phase = phaseAdd ∧ s.pendLen = true ∧
      t = { s with
        h := feedForward s.h s.v
        w := loadWords (List.replicate 56 0x00#8 ++ be64 s.bitLen) s.w
        phase := phaseSchedule
        pendLen := false }) ∨
    (s.phase = phaseAdd ∧ s.pendLen = false ∧
      t = { s with h := feedForward s.h s.v, phase := phaseIdle }) := by
  rcases decodePhase_cases s.phase with ⟨hp, -⟩ | ⟨hp, -⟩ | ⟨hp, -⟩ | ⟨k, hp, -⟩ | fault
  · exact absurd hp (s.busy_eq_true_iff.1 busy)
  · rw [engineMove_schedule hp] at h
    injection h with h
    exact .inl ⟨hp, h.symm⟩
  · by_cases pend : s.pendLen = true
    · rw [engineMove_add_pending hp pend] at h
      injection h with h
      exact .inr (.inr (.inl ⟨hp, pend, h.symm⟩))
    · have last : s.pendLen = false := Bool.eq_false_iff.2 pend
      rw [engineMove_add_last hp last] at h
      injection h with h
      exact .inr (.inr (.inr ⟨hp, last, h.symm⟩))
  · rw [engineMove_round hp] at h
    injection h with h
    exact .inr (.inl ⟨k, hp, h.symm⟩)
  · cases (fault s).symm.trans h

/-- The engine's step sees only the datapath. -/
theorem engineMove_of_datapath {s u : State} (busy : s.busy = true)
    (h : engineMove s.datapath = .next u) : ∃ t, engineMove s = .next t ∧ t.datapath = u := by
  rcases engineMove_cases (s := s.datapath) busy h with ⟨hp, rfl⟩ | ⟨k, hp, rfl⟩ |
    ⟨hp, pend, rfl⟩ | ⟨hp, last, rfl⟩
  · exact ⟨_, engineMove_schedule hp, rfl⟩
  · exact ⟨_, engineMove_round hp, rfl⟩
  · exact ⟨_, engineMove_add_pending hp pend, rfl⟩
  · exact ⟨_, engineMove_add_last hp last, rfl⟩

/-- An engine step writes H, V, W, PHASE and PEND_LEN alone (R21 to R23, R30, R36). -/
theorem engineMove_frame {s t : State} (busy : s.busy = true) (h : engineMove s = .next t) :
    { t with h := s.h, v := s.v, w := s.w, phase := s.phase, pendLen := s.pendLen } = s := by
  rcases engineMove_cases busy h with ⟨-, rfl⟩ | ⟨k, -, rfl⟩ | ⟨-, -, rfl⟩ | ⟨-, -, rfl⟩ <;> rfl

theorem engineMove_pendLen {s t : State} (busy : s.busy = true) (h : engineMove s = .next t)
    (last : s.pendLen = false) : t.pendLen = false := by
  rcases engineMove_cases busy h with ⟨-, rfl⟩ | ⟨k, -, rfl⟩ | ⟨-, -, rfl⟩ | ⟨-, -, rfl⟩
  · exact last
  · exact last
  · rfl
  · exact last

theorem phaseRound_toNat : ∀ k : BitVec 6, (phaseRound k).toNat = 64 + k.toNat := by decide

theorem phaseRound_ne_add : ∀ k : BitVec 6, phaseRound k ≠ phaseAdd := by decide

theorem phaseRound_succ_ne : ∀ k : BitVec 6,
    (if k = 63#6 then phaseAdd else phaseRound (k + 1#6)) ≠ phaseRound k := by decide

section
variable {s : State}

theorem State.engineStepsLeft_idle (h : s.phase = phaseIdle) : s.engineStepsLeft = 0 :=
  if_pos h

theorem State.engineStepsLeft_schedule (h : s.phase = phaseSchedule) :
    s.engineStepsLeft = 66 + if s.pendLen then 66 else 0 := by
  rw [State.engineStepsLeft, h]
  rfl

theorem State.engineStepsLeft_add (h : s.phase = phaseAdd) :
    s.engineStepsLeft = 1 + if s.pendLen then 66 else 0 := by
  rw [State.engineStepsLeft, h]
  rfl

theorem State.engineStepsLeft_round {k : BitVec 6} (h : s.phase = phaseRound k) :
    s.engineStepsLeft = 65 - k.toNat + if s.pendLen then 66 else 0 := by
  rw [State.engineStepsLeft, h, if_neg (phaseRound_ne_idle k), if_neg (phaseRound_ne_schedule k),
    if_neg (phaseRound_ne_add k), phaseRound_toNat]
  omega

theorem State.engineStepsLeft_pos (busy : s.busy = true) : 0 < s.engineStepsLeft := by
  have := s.phase.isLt
  rw [State.engineStepsLeft, if_neg (s.busy_eq_true_iff.1 busy)]
  split_ifs <;> omega

end

/-- Every engine step of a block is one fewer to go, and changes PHASE (R36). -/
theorem engineMove_engineStepsLeft {s t : State} (busy : s.busy = true)
    (h : engineMove s = .next t) :
    s.engineStepsLeft = t.engineStepsLeft + 1 ∧ t.phase ≠ s.phase := by
  rcases engineMove_cases busy h with ⟨hp, rfl⟩ | ⟨k, hp, rfl⟩ | ⟨hp, pend, rfl⟩ | ⟨hp, last, rfl⟩
  · rw [State.engineStepsLeft_schedule hp, State.engineStepsLeft_round (k := 0#6) rfl, hp]
    exact ⟨Nat.add_right_comm 65 1 _, phaseRound_ne_schedule _⟩
  · rw [State.engineStepsLeft_round hp, hp]
    refine ⟨?_, phaseRound_succ_ne k⟩
    by_cases last : k = 63#6
    · rw [State.engineStepsLeft_add (if_pos last), last]
      exact Nat.add_right_comm 1 1 _
    · rw [State.engineStepsLeft_round (if_neg last)]
      have number : (k + 1#6).toNat = k.toNat + 1 := by bv_omega
      have := k.isLt
      dsimp only
      omega
  · rw [State.engineStepsLeft_add hp, State.engineStepsLeft_schedule rfl, hp, pend]
    exact ⟨rfl, nofun⟩
  · rw [State.engineStepsLeft_add hp, State.engineStepsLeft_idle rfl, hp, last]
    exact ⟨rfl, nofun⟩

/-- The engine, left alone, is back in IDLE with this H. -/
def State.Settles (s : State) (h : Vector Word 8) : Prop :=
  ∃ t, engineRun s.engineStepsLeft s.datapath = some t ∧ t.h = h

theorem State.settles_idle_iff {s : State} (idle : s.phase = phaseIdle) (h : Vector Word 8) :
    s.Settles h ↔ s.h = h := by
  simp [State.Settles, State.engineStepsLeft_idle idle, engineRun, State.datapath]

/-- An engine step goes on towards the same H. -/
theorem State.Settles.engineMove {s : State} {h : Vector Word 8} (settles : s.Settles h)
    (busy : s.busy = true) : ∃ t, engineMove s = .next t ∧ t.Settles h := by
  obtain ⟨e, run, he⟩ := settles
  obtain ⟨n, hn⟩ := Nat.exists_eq_add_of_lt (State.engineStepsLeft_pos busy)
  rw [hn, Nat.zero_add, engineRun] at run
  split at run
  · next u hu =>
    obtain ⟨t, ht, rfl⟩ := engineMove_of_datapath busy hu
    obtain ⟨left, -⟩ := engineMove_engineStepsLeft busy ht
    obtain rfl : t.engineStepsLeft = n := by omega
    exact ⟨t, ht, e, run, he⟩
  · cases run
  · cases run

theorem engineRun_add (m n : Nat) (s : State) :
    engineRun (m + n) s = (engineRun m s).bind (engineRun n) := by
  induction m generalizing s with
  | zero => rw [Nat.zero_add]; rfl
  | succ m ih =>
    rw [Nat.add_right_comm]
    simp only [engineRun]
    split
    · exact ih _
    · rfl
    · rfl

/-- The 66 engine steps of a block just loaded (R124, R152): at their end the length block, where
one is pending, is loaded in its turn (R126). -/
theorem engineRun_loadBlock (s : State) {blk : List Byte} (size : blk.length = 64) :
    ∃ t, engineRun 66 (s.loadBlock blk).datapath = some t ∧ t.h = compress s.h blk ∧
      (s.pendLen = true → t.phase = phaseSchedule ∧
        ∀ k, k < 16 → wordAt t.w k = blockWord (List.replicate 56 0#8 ++ be64 s.bitLen) k) := by
  have loaded (k : Nat) (hk : k < 16) :
      wordAt (s.loadBlock blk).datapath.w k = blockWord blk k := by
    rw [State.datapath_w, State.loadBlock_w, wordAt_loadWords, if_pos hk]
  have := blockStepsComputeCompress (s.loadBlock blk).datapath blk (by simp) size loaded
  simp only [State.datapath_h, State.datapath_bitLen, State.datapath_pendLen, State.loadBlock_h,
    State.loadBlock_bitLen, State.loadBlock_pendLen] at this
  obtain ⟨t, run, th, tphase, -, tloaded, -⟩ := this
  exact ⟨t, run, th, fun pend => ⟨tphase.trans (if_pos pend), tloaded pend⟩⟩

/-- A loaded block is compressed into H. -/
theorem State.settles_loadBlock_last {s : State} (last : s.pendLen = false) {blk : List Byte}
    (size : blk.length = 64) : (s.loadBlock blk).Settles (compress s.h blk) := by
  obtain ⟨t, run, th, -⟩ := engineRun_loadBlock s size
  have left : (s.loadBlock blk).engineStepsLeft = 66 := by
    rw [State.engineStepsLeft_schedule (by simp), State.loadBlock_pendLen, last]
    rfl
  rw [State.Settles, left]
  exact ⟨t, run, th⟩

/-- A loaded block and the length block that is pending behind it are compressed into H. -/
theorem State.settles_loadBlock_pending {s : State} (pend : s.pendLen = true) {blk : List Byte}
    (size : blk.length = 64) :
    (s.loadBlock blk).Settles
      (compress (compress s.h blk) (List.replicate 56 0#8 ++ be64 s.bitLen)) := by
  obtain ⟨t, run, th, again⟩ := engineRun_loadBlock s size
  obtain ⟨tphase, tloaded⟩ := again pend
  obtain ⟨u, run', uh, -⟩ := blockStepsComputeCompress t _ tphase (by simp) tloaded
  have left : (s.loadBlock blk).engineStepsLeft = 66 + 66 := by
    rw [State.engineStepsLeft_schedule (by simp), State.loadBlock_pendLen, pend]
    rfl
  rw [State.Settles, left, engineRun_add, run]
  exact ⟨u, run', by rw [uh, th]⟩

/-! ### The blocks of a message that grows -/

/-- Bytes after the message leave its full blocks as they are. -/
theorem take_blocks_append (m p : List Byte) :
    (blocks (m ++ p)).take (m.length / 64) = blocks m := by
  refine List.ext_getElem (by simp [blocks]; omega) fun j _ hj => ?_
  have full : 64 * j + 64 ≤ m.length := by simp [blocks] at hj; omega
  have within : 64 ≤ (m.drop (64 * j)).length := by rw [List.length_drop]; omega
  simp [blocks, List.drop_append_of_le_length (show 64 * j ≤ m.length by omega),
    List.take_append_of_le_length within]

/-- The blocks of a message that goes on are its full blocks and those of the tail with the rest. -/
theorem blocks_append_eq (m p : List Byte) :
    blocks (m ++ p) = blocks m ++ blocks ((m ++ p).drop (64 * (m.length / 64))) := by
  rw [← drop_blocks, ← take_blocks_append m p, List.take_append_drop]

theorem blocks_of_length_lt {p : List Byte} (h : p.length < 64) : blocks p = [] := by
  simp [blocks, Nat.div_eq_of_lt h]

/-- Chaining over more blocks (R172). -/
theorem hashBlocks_append (bs cs : List (List Byte)) :
    hashBlocks (bs ++ cs) = cs.foldl compress (hashBlocks bs) :=
  List.foldl_append

/-! ### What a session has taken so far -/

/-- In a session BUF holds the tail of the message `m` taken so far, H is on its way to the chaining
state of the full blocks, and of the engine steps these take, 66 each, `done` have been made. -/
def State.Took (s : State) (m : List Byte) (done : Nat) : Prop :=
  s.mode = .accepting ∧ s.pendLen = false ∧ s.len.toNat = m.length ∧
  s.bufCnt.toNat = m.length % 64 ∧
  (∀ j, j < m.length % 64 → s.buf[j]? = m[64 * (m.length / 64) + j]?) ∧
  s.Settles (hashBlocks (blocks m)) ∧ s.engineStepsLeft + done = 66 * (m.length / 64)

/-- The host's items, the error flags and the model's own fields do not bear on it. -/
theorem State.Took.congr {s t : State} {m : List Byte} {done : Nat} (took : s.Took m done)
    (same : { t with
      data := s.data, errCmd := s.errCmd, errSeq := s.errSeq, errLen := s.errLen,
      errBus := s.errBus, held := s.held, program := s.program, reads := s.reads, plan := s.plan,
      draws := s.draws } = s) : t.Took m done := by
  rw [← same] at took
  exact took

/-- INIT starts the empty message (R204). -/
theorem State.took_startSession {s : State} (idle : s.phase = phaseIdle) :
    s.startSession.Took [] 0 := by
  have atIdle : s.startSession.phase = phaseIdle := idle
  refine ⟨rfl, rfl, rfl, rfl, nofun, (State.settles_idle_iff atIdle _).2 rfl, ?_⟩
  rw [State.engineStepsLeft_idle atIdle]
  rfl

/-- The tail in BUF with a byte stored behind it. -/
theorem getElem?_stored {buf : Vector Byte 64} {c : Nat} (hc : c < 64) (m : List Byte) (x : Byte)
    (cnt : c = m.length % 64)
    (tail : ∀ j, j < m.length % 64 → buf[j]? = m[64 * (m.length / 64) + j]?) {j : Nat}
    (hj : j < m.length % 64 + 1) :
    (buf.set c x hc)[j]? = (m ++ [x])[64 * (m.length / 64) + j]? := by
  by_cases last : j = c
  · have place : 64 * (m.length / 64) + j = m.length := by omega
    rw [place, List.getElem?_concat_length, last, Vector.getElem?_set_self]
  · rw [Vector.getElem?_set_ne hc (Ne.symm last), tail j (by omega),
      List.getElem?_append_left (by omega)]

/-- The byte that fills BUF makes it the next block of the message. -/
theorem drop_concat_of_fills {buf : Vector Byte 64} {c : Nat} (hc : c < 64) (m : List Byte)
    (x : Byte) (cnt : c = m.length % 64)
    (tail : ∀ j, j < m.length % 64 → buf[j]? = m[64 * (m.length / 64) + j]?)
    (full : m.length % 64 = 63) :
    (m ++ [x]).drop (64 * (m.length / 64)) = (buf.set c x hc).toList := by
  refine List.ext_getElem? fun j => ?_
  by_cases hj : j < 64
  · rw [List.getElem?_drop, ← getElem?_stored hc m x cnt tail (by omega), Vector.getElem?_toList]
  · rw [List.getElem?_eq_none (by simp; omega), List.getElem?_eq_none (by simp; omega)]

section
variable {s : State} {m : List Byte} {done : Nat}

theorem State.appendByte_len_toNat (len : s.len.toNat = m.length) (x : Byte)
    (bound : m.length + 1 ≤ maxMsgBytes) : (s.appendByte x).len.toNat = (m ++ [x]).length := by
  have wrapped : (s.appendByte x).len.toNat = (s.len.toNat + 1) % 2 ^ 64 := s.appendBytes_len [x]
  rw [maxMsgBytes] at bound
  rw [wrapped, List.length_append, List.length_singleton]
  omega

theorem State.appendByte_bufCnt_toNat (cnt : s.bufCnt.toNat = m.length % 64) (x : Byte) :
    (s.appendByte x).bufCnt.toNat = (m ++ [x]).length % 64 := by
  have wrapped : (s.appendByte x).bufCnt.toNat = (s.bufCnt.toNat + 1) % 64 :=
    s.appendBytes_bufCnt [x]
  rw [wrapped, List.length_append, List.length_singleton]
  omega

/-- APPEND_BYTE below the last place: no block more (R123). -/
theorem State.Took.appendByte_below (took : s.Took m done) (below : m.length % 64 ≠ 63) (x : Byte)
    (bound : m.length + 1 ≤ maxMsgBytes) : (s.appendByte x).Took (m ++ [x]) done := by
  obtain ⟨accepting, noLength, len, cnt, tail, settles, steps⟩ := took
  have size : (m ++ [x]).length = m.length + 1 := List.length_append
  have number : (m ++ [x]).length / 64 = m.length / 64 := by omega
  have noMore : blocks (m ++ [x]) = blocks m := by
    have short : ((m ++ [x]).drop (64 * (m.length / 64))).length < 64 := by
      rw [List.length_drop]
      omega
    rw [blocks_append_eq m [x], blocks_of_length_lt short, List.append_nil]
  have len' := State.appendByte_len_toNat len x bound
  have cnt' := State.appendByte_bufCnt_toNat cnt x
  have room : s.bufCnt ≠ 63#6 := fun full => below (by rw [← cnt, full]; rfl)
  rw [s.appendByte_below x room] at len' cnt' ⊢
  refine ⟨accepting, noLength, len', cnt', fun j hj => ?_, ?_, ?_⟩
  · rw [number]
    exact getElem?_stored s.bufCnt.isLt m x cnt tail (by omega)
  · rw [noMore]
    exact settles
  · rw [number]
    exact steps

/-- APPEND_BYTE at the last place, with the engine idle: the buffer is the next block (R123,
R124). -/
theorem State.Took.appendByte_fills (took : s.Took m done) (full : m.length % 64 = 63)
    (idle : s.phase = phaseIdle) (x : Byte) (bound : m.length + 1 ≤ maxMsgBytes) :
    (s.appendByte x).Took (m ++ [x]) done := by
  obtain ⟨accepting, noLength, len, cnt, tail, settles, steps⟩ := took
  have size : (m ++ [x]).length = m.length + 1 := List.length_append
  have len' := State.appendByte_len_toNat len x bound
  have cnt' := State.appendByte_bufCnt_toNat cnt x
  have block := drop_concat_of_fills s.bufCnt.isLt m x cnt tail full
  have size64 : (s.buf.set s.bufCnt.toNat x s.bufCnt.isLt).toList.length = 64 := by simp
  have more : blocks (m ++ [x]) =
      blocks m ++ [(s.buf.set s.bufCnt.toNat x s.bufCnt.isLt).toList] := by
    rw [blocks_append_eq m [x], block, blocks_of_length size64]
  rw [s.settles_idle_iff idle] at settles
  rw [s.engineStepsLeft_idle idle] at steps
  rw [s.appendByte_fills x (BitVec.eq_of_toNat_eq (cnt.trans full))] at len' cnt' ⊢
  refine ⟨accepting, noLength, len', cnt', fun j hj => by omega, ?_, ?_⟩
  · rw [more, hashBlocks_append, ← settles]
    exact State.settles_loadBlock_last noLength size64
  · rw [State.engineStepsLeft_schedule rfl]
    simp only [noLength, Bool.false_eq_true, if_false]
    omega

/-- ABSORB's bytes, at most four, fill the buffer at most once (R205). -/
theorem State.Took.appendBytes (bs : List Byte) (took : s.Took m done) (few : bs.length ≤ 4)
    (room : s.busy = true → m.length % 64 + bs.length < 64)
    (bound : m.length + bs.length ≤ maxMsgBytes) :
    (bs.foldl State.appendByte s).Took (m ++ bs) done := by
  induction bs generalizing s m with
  | nil => rwa [List.append_nil]
  | cons x bs ih =>
    rw [List.length_cons] at few room bound
    have size : (m ++ [x]).length = m.length + 1 := List.length_append
    rw [List.foldl_cons, List.append_cons]
    by_cases full : m.length % 64 = 63
    · have idle : s.phase = phaseIdle :=
        State.phase_idle_of_not_busy fun busy => by have := room busy; omega
      exact ih (took.appendByte_fills full idle x (by omega)) (by omega) (fun _ => by omega)
        (by omega)
    · have next := took.appendByte_below full x (by omega)
      refine ih next (by omega) (fun busy => ?_) (by omega)
      obtain ⟨-, -, -, cnt, -⟩ := took
      rw [s.appendByte_below x fun h => full (by rw [← cnt, h]; rfl)] at busy
      have := room busy
      omega

/-- An engine step works on the last block loaded and leaves the padding unit alone. -/
theorem State.Took.engineMove (took : s.Took m done) (busy : s.busy = true) :
    ∃ t, engineMove s = .next t ∧ t.Took m (done + 1) := by
  obtain ⟨accepting, noLength, len, cnt, tail, settles, steps⟩ := took
  obtain ⟨t, move, settles'⟩ := settles.engineMove busy
  obtain ⟨left, -⟩ := engineMove_engineStepsLeft busy move
  have same := engineMove_frame busy move
  have mode : t.mode = s.mode := (congrArg State.mode same :)
  have len' : t.len = s.len := (congrArg State.len same :)
  have cnt' : t.bufCnt = s.bufCnt := (congrArg State.bufCnt same :)
  have buf : t.buf = s.buf := (congrArg State.buf same :)
  exact ⟨t, move, mode.trans accepting, engineMove_pendLen busy move noLength, by rwa [len'],
    by rwa [cnt'], by rwa [buf], settles', by omega⟩

/-- SHA256 chains the blocks of PAD that are left behind the full blocks of the message (R172). -/
theorem digestState_eq (m : List Byte) :
    digestState m =
      ((blocks (pad m)).drop (m.length / 64)).foldl compress (hashBlocks (blocks m)) := by
  have full : (blocks (pad m)).take (m.length / 64) = blocks m := by
    rw [pad, List.append_assoc, List.append_assoc]
    exact take_blocks_append m _
  rw [← full, ← hashBlocks_append, List.take_append_drop]
  rfl

/-- FINAL sets the engine on its way to the digest: one or two blocks of 66 steps (R125, R126,
R172). -/
theorem State.Took.finish (took : s.Took m done) (idle : s.phase = phaseIdle)
    (bound : m.length ≤ maxMsgBytes) :
    s.finish.mode = .finalized ∧ s.finish.Settles (digestState m) ∧
      s.finish.engineStepsLeft + done = 66 * ((m.length + 8) / 64 + 1) := by
  obtain ⟨accepting, -, len, cnt, tail, settles, steps⟩ := took
  rw [s.settles_idle_iff idle] at settles
  rw [s.engineStepsLeft_idle idle] at steps
  rw [s.finish_accepted accepting, digestState_eq, finalBlocksAgreeWithPad s m bound len cnt tail,
    ← settles]
  refine ⟨rfl, ?_, ?_⟩
  · by_cases fits : s.bufCnt.toNat ≤ 55
    · rw [if_neg (by omega)]
      exact State.settles_loadBlock_last (s := { s with
        bitLen := s.messageBits, pendLen := decide (55 < s.bufCnt.toNat), bufCnt := 0#6 })
        (decide_eq_false (by omega)) s.tailBlock_length
    · rw [if_pos (by omega)]
      exact State.settles_loadBlock_pending (s := { s with
        bitLen := s.messageBits, pendLen := decide (55 < s.bufCnt.toNat), bufCnt := 0#6 })
        (decide_eq_true (by omega)) s.tailBlock_length
  · rw [State.engineStepsLeft_schedule rfl]
    simp only [decide_eq_true_eq]
    split_ifs <;> omega

end

end Sys2Proof.Machine

namespace Sys2Proof

/-! ### What a transaction does in a session -/

/-- The bytes the transaction takes into the message, with `data` in DATA (R82, R205). -/
def Instr.takes (data : Word) (i : Instr) : List Byte :=
  match i.performed with
  | .absorb n => Machine.absorbBytes n data
  | _ => []

/-- DATA after the transaction (R200). -/
def Instr.dataAfter (data : Word) : Instr → Word
  | .wrData d => d
  | _ => data

/-- What a command does once PHASE is IDLE (R203 to R207). -/
def Command.effect : Command → Machine.State → Machine.State
  | .nop => fun s => s
  | .init => Machine.State.startSession
  | .absorb n => Machine.State.absorb n
  | .final => Machine.State.finish
  | .illegal _ => fun s => s.flag .cmd

end Sys2Proof

namespace Sys2Proof.Machine

/-- The four kinds of transactions: a read, a bad write, a DATA write, a CMD write (R71). -/
theorem transaction_kinds {i : Instr} (bus : i.isTransaction = true) :
    i.isWrite = false ∨ i.isBusError = true ∨ (∃ d, i = .wrData d) ∨ ∃ d, i = .wrCmd d := by
  cases i with
  | rdId | rdStatus | rdCmd | rdData | rdLenLo | rdLenHi | rdRsvd _ | rdDigest _
  | rdMisalignedOdd _ | rdMisalignedHalf _ => exact .inl rfl
  | wrId _ | wrStatus _ | wrLen _ _ | wrRsvd _ _ | wrDigest _ _ | wrMisalignedOdd _ _
  | wrMisalignedHalf _ _ => exact .inr (.inl rfl)
  | wrData d => exact .inr (.inr (.inl ⟨d, rfl⟩))
  | wrCmd d => exact .inr (.inr (.inr ⟨d, rfl⟩))
  | _ => cases bus

/-- A bad write sets ERR_BUS, whatever PHASE is (R202). -/
theorem exec_busError {i : Instr} (bad : i.isBusError = true) (s : State) :
    exec i s = .next (s.flag .bus) := by
  cases i with
  | wrId _ | wrStatus _ | wrLen _ _ | wrRsvd _ _ | wrDigest _ _ | wrMisalignedOdd _ _
  | wrMisalignedHalf _ _ => rfl
  | _ => simp [Instr.isBusError, Instr.mnemonic] at bad

/-- Neither a read nor a bad write takes bytes or writes DATA. -/
theorem takes_of_quiet {i : Instr} (bus : i.isTransaction = true)
    (quiet : i.isWrite = false ∨ i.isBusError = true) (data : Word) :
    i.takes data = [] ∧ i.dataAfter data = data := by
  cases i with
  | wrData _ | wrCmd _ => simp [Instr.isWrite, Instr.isBusError, Instr.mnemonic] at quiet
  | nop | init | absorb _ | final | cmdIllegal _ | engIdle | engSchedule | engAdd | engRound _
  | engUnreachable03 | engUnreachable04 _ | engUnreachable08 _ | engUnreachable10 _
  | engUnreachable20 _ => cases bus
  | _ => exact ⟨rfl, rfl⟩

/-- The bytes absorbed, transaction by transaction. -/
theorem absorbed_cons (data : Word) (x : BitVec 7 × Word) (ts : Transactions) :
    Transactions.absorbed data (x :: ts) =
      (decodeBus x.1 x.2).takes data ++
        Transactions.absorbed ((decodeBus x.1 x.2).dataAfter data) ts := by
  have bus := isTransaction_decodeBus x.1 x.2
  rw [Transactions.absorbed]
  cases hi : decodeBus x.1 x.2 with
  | wrCmd d =>
    simp only [Instr.takes, Instr.performed, decodeCmd, Instr.dataAfter]
    cases decodeCommand d <;> rfl
  | nop | init | absorb _ | final | cmdIllegal _ | engIdle | engSchedule | engAdd | engRound _
  | engUnreachable03 | engUnreachable04 _ | engUnreachable08 _ | engUnreachable10 _
  | engUnreachable20 _ => rw [hi] at bus; cases bus
  | _ => rfl

/-- With PHASE IDLE a CMD write completes with its command's effect (R201). -/
theorem exec_wrCmd_idle {s : State} (idle : s.phase = phaseIdle) (d : Word) :
    exec (.wrCmd d) s = .next ((decodeCommand d).effect s.release) := by
  rw [exec_wrCmd, decodeCmd]
  cases decodeCommand d with
  | nop => exact acceptWhenIdle_idle (effect := fun s => s) idle
  | init => exact acceptWhenIdle_idle idle
  | absorb n => exact acceptWhenIdle_idle idle
  | final => exact acceptWhenIdle_idle idle
  | illegal w => exact acceptWhenIdle_idle (effect := fun s => s.flag .cmd) idle

/-- A command leaves the host's items and the plan alone. -/
theorem commandEffect_frame (c : Command) (s : State) :
    (c.effect s).held = s.held ∧ (c.effect s).program = s.program ∧
      (c.effect s).plan = s.plan ∧ (c.effect s).data = s.data := by
  cases c with
  | absorb n =>
    have frame := s.absorb_frame n
    exact ⟨(congrArg State.held frame :), (congrArg State.program frame :),
      (congrArg State.plan frame :), (congrArg State.data frame :)⟩
  | final =>
    have frame := s.finish_frame
    exact ⟨(congrArg State.held frame :), (congrArg State.program frame :),
      (congrArg State.plan frame :), (congrArg State.data frame :)⟩
  | _ => exact ⟨rfl, rfl, rfl, rfl⟩

/-- `t` is `s` with the transaction `i` of the host completed, but for what `i` does in the
engine. -/
structure State.Completed (i : Instr) (s t : State) : Prop where
  held : t.held = none
  program : t.program = s.program
  plan : t.plan = s.plan
  data : t.data = i.dataAfter s.data
  phase : s.busy = true → t.phase = s.phase

theorem State.completed_wrCmd {s : State} (idle : s.phase = phaseIdle) (d : Word) :
    s.Completed (.wrCmd d) ((decodeCommand d).effect s.release) := by
  obtain ⟨held, program, plan, data⟩ := commandEffect_frame (decodeCommand d) s.release
  exact ⟨held, program, plan, data, fun busy => absurd idle (s.busy_eq_true_iff.1 busy)⟩

section
variable {s : State} {m : List Byte} {done : Nat}

/-- Every command but INIT and FINAL goes on with the session (R203, R205, R207). -/
theorem State.Took.command (took : s.Took m done) (idle : s.phase = phaseIdle) {d : Word}
    (notInit : decodeCmd d ≠ .init) (notFinal : decodeCmd d ≠ .final)
    (bound : m.length + ((Instr.wrCmd d).takes s.data).length ≤ maxMsgBytes) :
    ((decodeCommand d).effect s).Took (m ++ (Instr.wrCmd d).takes s.data) done := by
  simp only [Instr.takes, Instr.performed] at bound ⊢
  unfold decodeCmd at notInit notFinal bound ⊢
  cases hc : decodeCommand d with
  | init => exact absurd (by rw [hc]; rfl) notInit
  | final => exact absurd (by rw [hc]; rfl) notFinal
  | nop =>
    rw [show Command.toInstr .nop = Instr.nop from rfl, List.append_nil]
    exact took
  | illegal w =>
    rw [show Command.toInstr (.illegal w) = Instr.cmdIllegal w from rfl, List.append_nil]
    exact took.congr rfl
  | absorb n =>
    rw [hc] at bound
    have count := absorbBytes_length n s.data
    have few : absorbCount n ≤ 4 := n.isLt
    have busy : s.busy ≠ true := by rw [s.busy_eq_false_iff.2 idle]; decide
    change m.length + (absorbBytes n s.data).length ≤ maxMsgBytes at bound
    have whole := took.appendBytes (absorbBytes n s.data) (by omega) (fun h => absurd h busy) bound
    obtain ⟨accepting, -, len, -⟩ := took
    change (s.absorb n).Took _ _
    rw [s.absorb_accepted n accepting (by omega)]
    exact whole

/-- A transaction of a session, not held, completes, and the message has the bytes it takes. -/
theorem State.Took.exec (took : s.Took m done) (free : s.held = none) {i : Instr}
    (bus : i.isTransaction = true) (notInit : i.performed ≠ .init)
    (notFinal : i.performed ≠ .final) (ready : s.busy = true → ∀ d, i ≠ .wrCmd d)
    (bound : m.length + (i.takes s.data).length ≤ maxMsgBytes) :
    ∃ t, exec i s = .next t ∧ t.Took (m ++ i.takes s.data) done ∧ s.Completed i t := by
  rcases transaction_kinds bus with read | bad | ⟨d, rfl⟩ | ⟨d, rfl⟩
  · obtain ⟨none, same⟩ := takes_of_quiet bus (.inl read) s.data
    rw [none, List.append_nil]
    exact ⟨_, exec_read bus read s, took.congr rfl, free, rfl, rfl, same.symm, fun _ => rfl⟩
  · obtain ⟨none, same⟩ := takes_of_quiet bus (.inr bad) s.data
    rw [none, List.append_nil]
    exact ⟨_, exec_busError bad s, took.congr rfl, free, rfl, rfl, same.symm, fun _ => rfl⟩
  · have none : m ++ (Instr.wrData d).takes s.data = m := List.append_nil m
    rw [none]
    exact ⟨{ s with data := d }, rfl, took.congr rfl, free, rfl, rfl, rfl, fun _ => rfl⟩
  · have idle : s.phase = phaseIdle := State.phase_idle_of_not_busy fun busy => ready busy d rfl
    have released : s.release.Took m done := took.congr rfl
    exact ⟨_, exec_wrCmd_idle idle d, released.command idle notInit notFinal bound,
      s.completed_wrCmd idle d⟩

end

/-! ### The host's program in a session -/

/-- The transactions as lines of a program (R90). -/
def Transactions.lines (ts : Transactions) : List HostLine := ts.map fun x => .bus x.1 x.2

/-- What the host has still to complete is exactly these transactions, the first of them perhaps a
CMD write it is held on. -/
def State.Awaits (s : State) (ts : Transactions) : Prop :=
  (s.held = none ∧ s.program = ts.lines) ∨
  ∃ d rest, s.held = some d ∧ ts = (0x48#7, d) :: rest ∧ s.program = Transactions.lines rest

/-- How many moves the host has left at most: two for a line, one for a held write. -/
def State.hostMovesLeft (s : State) : Nat := 2 * s.program.length + s.held.toList.length

/-- The state in which the host's next transaction runs, with `rest` to follow. -/
def State.taking (s : State) (rest : Transactions) : State :=
  { s with held := none, program := rest.lines }

/-- Only the descriptor 0x48 decodes as a CMD write (R71). -/
theorem eq_of_decodeBus_wrCmd {a : BitVec 7} {d e : Word} (h : decodeBus a d = .wrCmd e) :
    a = 0x48#7 ∧ d = e := by
  have row := encode_decodeBus_zero_data a
  rw [decodeBus_eq_withData] at h
  cases hi : decodeBus a 0#32 with
  | wrCmd _ =>
    rw [hi] at h row
    cases h
    cases row
    exact ⟨rfl, rfl⟩
  | _ => rw [hi] at h; cases h

theorem State.Awaits.hostEnabled {s : State} {x : BitVec 7 × Word} {rest : Transactions}
    (awaits : s.Awaits (x :: rest)) (idle : s.busy = false) : s.hostEnabled = true := by
  rcases awaits with ⟨hh, hp⟩ | ⟨d, _, hh, -, -⟩
  · exact State.hostEnabled_of_program hh (by rw [hp]; nofun)
  · exact State.hostEnabled_of_held_idle hh idle

/-- The host's move puts a CMD write on hold, or completes the next transaction. -/
theorem hostMove_of_awaits {s : State} {x : BitVec 7 × Word} {rest : Transactions}
    (awaits : s.Awaits (x :: rest)) (enabled : s.hostEnabled = true) :
    (s.busy = true ∧ ∃ d, hostMove s = .next ((s.taking rest).hold d) ∧
      ((s.taking rest).hold d).Awaits (x :: rest) ∧
      ((s.taking rest).hold d).hostMovesLeft < s.hostMovesLeft) ∨
    ((s.busy = true → ∀ d, decodeBus x.1 x.2 ≠ .wrCmd d) ∧
      (s.taking rest).hostMovesLeft < s.hostMovesLeft ∧
      hostMove s = exec (decodeBus x.1 x.2) (s.taking rest)) := by
  rcases awaits with ⟨hh, hp⟩ | ⟨d, rest', hh, hx, hp⟩
  · have move : hostMove s = exec (decodeBus x.1 x.2) (s.taking rest) := by
      rw [hostMove_next_line hh hp, State.taking, hh]
      rfl
    have fewer : (s.taking rest).hostMovesLeft < s.hostMovesLeft := by
      simp [State.hostMovesLeft, State.taking, hp, Transactions.lines]
      omega
    by_cases held : s.busy = true ∧ ∃ d, decodeBus x.1 x.2 = .wrCmd d
    · obtain ⟨busy, d, hd⟩ := held
      obtain ⟨ha, rfl⟩ := eq_of_decodeBus_wrCmd hd
      refine .inl ⟨busy, x.2, ?_, .inr ⟨x.2, rest, rfl, ?_, rfl⟩, ?_⟩
      · rw [move, hd]
        exact if_pos busy
      · rw [← ha]
      · simp [State.hostMovesLeft, State.taking, hp, hh, Transactions.lines]
        omega
    · exact .inr ⟨fun busy d hd => held ⟨busy, d, hd⟩, fewer, move⟩
  · obtain ⟨rfl, rfl⟩ := List.cons.inj hx
    have idle : s.phase = phaseIdle := by
      rw [← s.busy_eq_false_iff]
      rw [State.hostEnabled_of_held hh] at enabled
      simpa using enabled
    refine .inr ⟨fun busy => absurd idle (s.busy_eq_true_iff.1 busy), ?_, ?_⟩
    · simp [State.hostMovesLeft, State.taking, hp, hh]
    · have released : s.taking rest = s.release := by rw [State.taking, ← hp]; rfl
      rw [hostMove_held hh, exec_wrCmd_idle idle, released, decodeBus_cmdWrite]
      exact (exec_wrCmd_idle (s := s.release) idle d).symm

/-! ### The stages of a session's run -/

/-- The CMD write that delivers INIT. -/
abbrev initWrite : BitVec 7 × Word := (0x48#7, 0x10000000#32)

/-- The CMD write that delivers FINAL. -/
abbrev finalWrite : BitVec 7 × Word := (0x48#7, 0x30000000#32)

theorem session_eq (ts : Transactions) :
    ts.session = Transactions.lines (initWrite :: (ts ++ [finalWrite])) := by
  simp only [Transactions.session, Transactions.lines, List.map_cons, List.map_append, List.map_nil]
  rfl

/-- Where a session of the message `msg` stands, once `done` engine steps have been made for it:
before INIT, between INIT and FINAL with `m` taken so far, after FINAL. -/
inductive State.Stage (msg : List Byte) : Nat → State → Prop
  | ready {s : State} {ts : Transactions} (inSession : ts.inSession = true)
      (idle : s.phase = phaseIdle) (awaits : s.Awaits (initWrite :: (ts ++ [finalWrite])))
      (rest : ts.absorbed s.data = msg) : Stage msg 0 s
  | absorbing {s : State} {ts : Transactions} {m : List Byte} {done : Nat}
      (inSession : ts.inSession = true) (awaits : s.Awaits (ts ++ [finalWrite]))
      (took : s.Took m done) (rest : m ++ ts.absorbed s.data = msg) : Stage msg done s
  | finishing {s : State} {done : Nat} (held : s.held = none) (program : s.program = [])
      (finalized : s.mode = .finalized) (len : s.len.toNat = msg.length)
      (settles : s.Settles (digestState msg))
      (steps : s.engineStepsLeft + done = 66 * ((msg.length + 8) / 64 + 1)) : Stage msg done s

/-- The host's move `s ⟶ t` brings it nearer to the end of its program and leaves PHASE alone while
the engine is in a block. -/
structure State.HostNearer (s t : State) : Prop where
  plan : t.plan = s.plan
  fewer : t.hostMovesLeft < s.hostMovesLeft
  phase : s.busy = true → t.phase = s.phase

section
variable {s : State} {msg : List Byte} {done : Nat}

/-- INIT, with PHASE IDLE. -/
theorem exec_initWrite (idle : s.phase = phaseIdle) :
    exec (decodeBus initWrite.1 initWrite.2) s = .next s.release.startSession :=
  exec_wrCmd_idle idle 0x10000000#32

/-- FINAL, with PHASE IDLE. -/
theorem exec_finalWrite (idle : s.phase = phaseIdle) :
    exec (decodeBus finalWrite.1 finalWrite.2) s = .next s.release.finish :=
  exec_wrCmd_idle idle 0x30000000#32

theorem State.Completed.awaits {t : State} {i : Instr} {rest : Transactions}
    (c : (s.taking rest).Completed i t) : t.Awaits rest :=
  .inl ⟨c.held, c.program⟩

theorem State.Completed.hostNearer {t : State} {i : Instr} {rest : Transactions}
    (c : (s.taking rest).Completed i t) (fewer : (s.taking rest).hostMovesLeft < s.hostMovesLeft) :
    s.HostNearer t := by
  obtain ⟨held, program, plan, -, phase⟩ := c
  refine ⟨plan, ?_, phase⟩
  rw [State.hostMovesLeft, held, program]
  exact fewer

/-- INIT, the first move of a session (R204). -/
theorem State.Stage.hostMove_ready {ts : Transactions} (inSession : ts.inSession = true)
    (idle : s.phase = phaseIdle) (awaits : s.Awaits (initWrite :: (ts ++ [finalWrite])))
    (rest : ts.absorbed s.data = msg) (enabled : s.hostEnabled = true) :
    ∃ t, hostMove s = .next t ∧ t.Stage msg 0 ∧ s.HostNearer t := by
  rcases hostMove_of_awaits awaits enabled with ⟨busy, -⟩ | ⟨-, fewer, move⟩
  · exact absurd idle (s.busy_eq_true_iff.1 busy)
  · have c := (s.taking (ts ++ [finalWrite])).completed_wrCmd idle 0x10000000#32
    have took := State.took_startSession (s := (s.taking (ts ++ [finalWrite])).release) idle
    exact ⟨_, move.trans (exec_initWrite idle), .absorbing inSession c.awaits took rest,
      c.hostNearer fewer⟩

/-- FINAL, the last (R206). -/
theorem State.Stage.hostMove_final (bound : msg.length ≤ maxMsgBytes)
    (awaits : s.Awaits [finalWrite]) (took : s.Took msg done) (enabled : s.hostEnabled = true) :
    ∃ t, hostMove s = .next t ∧ t.Stage msg done ∧ s.HostNearer t := by
  rcases hostMove_of_awaits awaits enabled with ⟨-, d, move, held, fewer⟩ |
    ⟨ready, fewer, move⟩
  · exact ⟨_, move, .absorbing (ts := []) rfl held (took.congr rfl) (List.append_nil _),
      rfl, fewer, fun _ => rfl⟩
  · have idle : s.phase = phaseIdle :=
      State.phase_idle_of_not_busy fun busy => ready busy 0x30000000#32 rfl
    have c := (s.taking []).completed_wrCmd idle 0x30000000#32
    have taken : (s.taking []).release.Took msg done := took.congr rfl
    obtain ⟨finalized, settles, steps⟩ := taken.finish idle bound
    obtain ⟨-, -, len, -⟩ := taken
    exact ⟨_, move.trans (exec_finalWrite idle), .finishing c.held c.program finalized
      ((congrArg BitVec.toNat (State.finish_len _)).trans len) settles steps, c.hostNearer fewer⟩

/-- Any transaction in between. -/
theorem State.Stage.hostMove_next (bound : msg.length ≤ maxMsgBytes) {x : BitVec 7 × Word}
    {ts : Transactions} {m : List Byte} (inSession : Transactions.inSession (x :: ts) = true)
    (awaits : s.Awaits (x :: (ts ++ [finalWrite]))) (took : s.Took m done)
    (rest : m ++ Transactions.absorbed s.data (x :: ts) = msg) (enabled : s.hostEnabled = true) :
    ∃ t, hostMove s = .next t ∧ t.Stage msg done ∧ s.HostNearer t := by
  rcases hostMove_of_awaits awaits enabled with ⟨-, d, move, held, fewer⟩ |
    ⟨ready, fewer, move⟩
  · exact ⟨_, move, .absorbing inSession held (took.congr rfl) rest, rfl, fewer, fun _ => rfl⟩
  · rw [Transactions.inSession, List.all_cons, Bool.and_eq_true, Bool.and_eq_true, bne_iff_ne,
      bne_iff_ne] at inSession
    obtain ⟨⟨notInit, notFinal⟩, later⟩ := inSession
    rw [absorbed_cons, ← List.append_assoc] at rest
    have taken : (s.taking (ts ++ [finalWrite])).Took m done := took.congr rfl
    have fits : (m ++ (decodeBus x.1 x.2).takes s.data).length ≤ maxMsgBytes := by
      rw [← rest, List.length_append] at bound
      omega
    rw [List.length_append] at fits
    obtain ⟨t, done, took', c⟩ :=
      taken.exec rfl (isTransaction_decodeBus x.1 x.2) notInit notFinal ready fits
    refine ⟨t, move.trans done, .absorbing later c.awaits took' ?_, c.hostNearer fewer⟩
    rw [c.data]
    exact rest

/-- A move of the host goes on with the session. -/
theorem State.Stage.hostMove (bound : msg.length ≤ maxMsgBytes) (stage : s.Stage msg done)
    (enabled : s.hostEnabled = true) :
    ∃ t, hostMove s = .next t ∧ t.Stage msg done ∧ s.HostNearer t := by
  cases stage with
  | ready inSession idle awaits rest => exact hostMove_ready inSession idle awaits rest enabled
  | @absorbing _ ts m _ inSession awaits took rest =>
    cases ts with
    | nil =>
      obtain rfl : m = msg := (List.append_nil m).symm.trans rest
      exact hostMove_final bound awaits took enabled
    | cons x ts => exact hostMove_next bound inSession awaits took rest enabled
  | finishing held program =>
    rw [State.hostEnabled_done held program] at enabled
    cases enabled

/-- An engine step goes on with the session: one more is done, and one fewer is left. -/
theorem State.Stage.engineMove (stage : s.Stage msg done) (busy : s.busy = true) :
    ∃ t, engineMove s = .next t ∧ t.Stage msg (done + 1) ∧ t.plan = s.plan ∧
      t.hostMovesLeft = s.hostMovesLeft := by
  cases stage with
  | ready _ idle => exact absurd idle (s.busy_eq_true_iff.1 busy)
  | absorbing inSession awaits took rest =>
    obtain ⟨t, move, took'⟩ := took.engineMove busy
    have same := engineMove_frame busy move
    have held : t.held = s.held := (congrArg State.held same :)
    have program : t.program = s.program := (congrArg State.program same :)
    have data : t.data = s.data := (congrArg State.data same :)
    refine ⟨t, move, .absorbing inSession ?_ took' (by rwa [data]),
      (congrArg State.plan same :), ?_⟩
    · rwa [State.Awaits, held, program]
    · rw [State.hostMovesLeft, held, program, State.hostMovesLeft]
  | finishing held program finalized len settles steps =>
    obtain ⟨t, move, settles'⟩ := settles.engineMove busy
    obtain ⟨left, -⟩ := engineMove_engineStepsLeft busy move
    have same := engineMove_frame busy move
    have held' : t.held = s.held := (congrArg State.held same :)
    have program' : t.program = s.program := (congrArg State.program same :)
    refine ⟨t, move, .finishing (held'.trans held) (program'.trans program)
      ((congrArg State.mode same :).trans finalized) ?_ settles' (by omega),
      (congrArg State.plan same :), ?_⟩
    · rw [(congrArg State.len same :)]
      exact len
    · rw [State.hostMovesLeft, held', program', State.hostMovesLeft]

end

/-! ### The run to its end -/

/-- Without a reset in the plan a step is some agent's turn, and leaves no reset in the plan. -/
theorem step_without_reset {s : State} (noReset : Turn.reset ∉ s.plan) :
    ∃ a ps n, Turn.reset ∉ ps ∧ step s = turnOf a (s.withSchedule ps n) := by
  cases hp : s.plan with
  | nil =>
    by_cases contested : s.hostEnabled = true ∧ s.busy = true
    · obtain ⟨enabled, busy⟩ := contested
      exact ⟨_, [], _, List.not_mem_nil, step_plan_nil_contested hp enabled busy⟩
    · rw [not_and_or, Bool.not_eq_true, Bool.not_eq_true] at contested
      exact ⟨.engine, s.plan, s.draws, noReset, step_plan_nil hp contested⟩
  | cons turn ps =>
    rw [hp, List.mem_cons, not_or] at noReset
    obtain ⟨isAgent, noReset⟩ := noReset
    cases turn with
    | host => exact ⟨.host, ps, _, noReset, step_plan_host hp⟩
    | engine => exact ⟨.engine, ps, _, noReset, step_plan_engine hp⟩
    | reset => exact absurd rfl isAgent

/-- `RunEndsAt`, of the rest of a run whose program has issued FINAL or is going to (R271). -/
def FinalEndsAt (s : State) (k : Nat) (t : State) : Prop :=
  Sys2Proof.core.run k s = .next t ∧ t.RunEnded true ∧
  ∀ j u, j < k → Sys2Proof.core.run j s = .next u → ¬ u.RunEnded true

theorem FinalEndsAt.runEndsAt {s t : State} {k : Nat} (ends : FinalEndsAt s k t)
    (final : s.issuesFinal = true) : RunEndsAt s k t := by
  rw [RunEndsAt, final]
  exact ends

theorem finalEndsAt_zero {s : State} (ended : s.RunEnded true) : FinalEndsAt s 0 s :=
  ⟨rfl, ended, fun _ _ hj => absurd hj (Nat.not_lt_zero _)⟩

theorem FinalEndsAt.succ {s t u : State} {k : Nat} (ends : FinalEndsAt t k u)
    (next : step s = .next t) (going : ¬ s.RunEnded true) : FinalEndsAt s (k + 1) u := by
  obtain ⟨run, ended, notBefore⟩ := ends
  have later (j : Nat) : Sys2Proof.core.run (j + 1) s = Sys2Proof.core.run j t := by
    have hc : Sys2Proof.core.step s = .next t := next
    simp only [Host.Core.run, hc]
  refine ⟨(later k).trans run, ended, fun j v hj hv => ?_⟩
  cases j with
  | zero =>
    cases hv
    exact going
  | succ j => exact notBefore j v (Nat.lt_of_succ_lt_succ hj) ((later j).symm.trans hv)

theorem engineSteps_succ {s t : State} (next : step s = .next t) (k : Nat) :
    engineSteps (k + 1) s =
      (if s.busy && t.phase != s.phase then 1 else 0) + engineSteps k t := by
  rw [engineSteps, next]

section
variable {s : State} {msg : List Byte} {done : Nat}

theorem State.Stage.withSchedule (stage : s.Stage msg done) (ps : List Turn) (n : Nat) :
    (s.withSchedule ps n).Stage msg done := by
  cases stage with
  | ready inSession idle awaits rest => exact .ready inSession idle awaits rest
  | absorbing inSession awaits took rest => exact .absorbing inSession awaits (took.congr rfl) rest
  | finishing held program finalized len settles steps =>
    exact .finishing held program finalized len settles steps

/-- Where neither agent may move the session has ended, with the digest in H. -/
theorem State.Stage.ended (stage : s.Stage msg done) (hostDone : s.hostEnabled = false)
    (idle : s.busy = false) :
    s.RunEnded true ∧ s.h = digestState msg ∧ s.len.toNat = msg.length ∧
      done = 66 * ((msg.length + 8) / 64 + 1) := by
  cases stage with
  | ready _ _ awaits => cases hostDone.symm.trans (awaits.hostEnabled idle)
  | @absorbing _ ts _ _ _ awaits =>
    cases ts <;> cases hostDone.symm.trans (awaits.hostEnabled idle)
  | finishing held program finalized len settles steps =>
    have atIdle : s.phase = phaseIdle := s.busy_eq_false_iff.1 idle
    rw [s.settles_idle_iff atIdle] at settles
    rw [s.engineStepsLeft_idle atIdle, Nat.zero_add] at steps
    have valid : s.dvalid = true := s.dvalid_iff.2 ⟨finalized, atIdle⟩
    exact ⟨⟨program, held, atIdle, fun _ => valid⟩, settles, len, steps⟩

/-- A step of a session that has not ended: the engine steps done are counted, and the host is
nearer to the end of its program, or else the engine nearer to IDLE. -/
theorem State.Stage.step (bound : msg.length ≤ maxMsgBytes) (stage : s.Stage msg done)
    (noReset : Turn.reset ∉ s.plan) (going : s.hostEnabled = true ∨ s.busy = true) :
    ∃ t done', step s = .next t ∧ Turn.reset ∉ t.plan ∧ t.Stage msg done' ∧
      done' = (if s.busy && t.phase != s.phase then 1 else 0) + done ∧
      (t.hostMovesLeft < s.hostMovesLeft ∨
        t.hostMovesLeft = s.hostMovesLeft ∧ t.engineStepsLeft < s.engineStepsLeft) := by
  obtain ⟨a, ps, n, noReset', hstep⟩ := step_without_reset noReset
  have stage' := stage.withSchedule ps n
  rcases turnOf_cases a (s.withSchedule ps n) with ⟨enabled, turn⟩ | ⟨may, turn⟩
  · obtain ⟨t, move, next, plan, fewer, phase⟩ := stage'.hostMove bound enabled
    refine ⟨t, done, (hstep.trans turn).trans move, by rwa [plan], next, ?_, .inl fewer⟩
    have kept : (s.busy && t.phase != s.phase) = false := by simpa using phase
    rw [kept]
    exact (Nat.zero_add done).symm
  · have busy : s.busy = true := by
      rcases may with hostDone | busy
      · exact going.resolve_left (Bool.eq_false_iff.1 hostDone)
      · exact busy
    obtain ⟨t, move, next, plan, same⟩ := stage'.engineMove busy
    obtain ⟨left, phase⟩ := engineMove_engineStepsLeft (s := s.withSchedule ps n) busy move
    have moved : (s.busy && t.phase != s.phase) = true := by simpa [busy] using phase
    refine ⟨t, done + 1, (hstep.trans turn).trans move, by rwa [plan], next, ?_, .inr ⟨same, ?_⟩⟩
    · rw [moved]
      exact Nat.add_comm done 1
    · exact Nat.lt_of_lt_of_eq (Nat.lt_succ_self _) left.symm

/-- Every session runs to its end, by the moves the host has left and, between two of them, the
engine's steps left in the block. -/
theorem State.Stage.run_ends {s : State} {done : Nat} (bound : msg.length ≤ maxMsgBytes)
    (stage : s.Stage msg done) (noReset : Turn.reset ∉ s.plan) :
    ∃ k t, FinalEndsAt s k t ∧ t.h = digestState msg ∧ t.len.toNat = msg.length ∧
      engineSteps k s + done = 66 * ((msg.length + 8) / 64 + 1) := by
  by_cases going : s.hostEnabled = true ∨ s.busy = true
  · obtain ⟨t, done', next, noReset', stage', count, nearer⟩ := stage.step bound noReset going
    obtain ⟨k, u, ends, digest, len, steps⟩ := run_ends bound stage' noReset'
    refine ⟨k + 1, u, ends.succ next ?_, digest, len, ?_⟩
    · rintro ⟨program, held, idle, -⟩
      rcases going with enabled | busy
      · cases enabled.symm.trans (State.hostEnabled_done held program)
      · exact s.busy_eq_true_iff.1 busy idle
    · rw [engineSteps_succ next]
      omega
  · rw [not_or, Bool.not_eq_true, Bool.not_eq_true] at going
    obtain ⟨hostDone, idle⟩ := going
    obtain ⟨ended, digest, len, count⟩ := stage.ended hostDone idle
    exact ⟨0, s, finalEndsAt_zero ended, digest, len, (Nat.zero_add done).trans count⟩
termination_by (s.hostMovesLeft, s.engineStepsLeft)
decreasing_by exact Prod.lex_def.2 nearer

end

/-! ### The obligations -/

/-- A session's program issues FINAL. -/
theorem issuesFinal_session {s : State} {ts : Transactions} (program : s.program = ts.session) :
    s.issuesFinal = true := by
  rw [State.issuesFinal, List.any_eq_true]
  have line : HostLine.bus finalWrite.1 finalWrite.2 ∈ s.program := by
    rw [program, session_eq]
    simp [Transactions.lines]
  exact ⟨finalWrite, List.mem_append_right _ (List.mem_filterMap.2 ⟨_, line, rfl⟩), by decide⟩

/-- A session's run ends with the digest in H, after 66 engine steps for each block of PAD(M). -/
theorem session_ends {ts : Transactions} {s : State} (inSession : ts.inSession = true)
    (idle : s.phase = phaseIdle) (held : s.held = none) (program : s.program = ts.session)
    (noReset : Turn.reset ∉ s.plan) (bound : (ts.absorbed s.data).length ≤ maxMsgBytes) :
    ∃ k t, RunEndsAt s k t ∧ t.h = digestState (ts.absorbed s.data) ∧
      t.len.toNat = (ts.absorbed s.data).length ∧
      engineSteps k s = 66 * (((ts.absorbed s.data).length + 8) / 64 + 1) := by
  have ready : s.Stage (ts.absorbed s.data) 0 :=
    .ready inSession idle (.inl ⟨held, program.trans (session_eq ts)⟩) rfl
  obtain ⟨k, t, ends, digest, len, steps⟩ := ready.run_ends bound noReset
  exact ⟨k, t, ends.runEndsAt (issuesFinal_session program), digest, len, steps⟩

/-- With DVALID = 1 the eight DIGEST registers are H (R44). -/
theorem State.digestWords_eq {s : State} (valid : s.dvalid = true) :
    (Vector.ofFn fun i : Fin 8 => s.digestWord (BitVec.ofNat 3 i.val)) = s.h := by
  refine Vector.ext fun i hi => ?_
  simp [State.digestWord_of_dvalid valid]

/-- Settles O53: the run of a session ends, and R271 asks DVALID = 1 of its end. -/
theorem sessionComputesSha256 : Obligations.SessionComputesSha256 := by
  intro ts s inSession idle held program noReset bound
  obtain ⟨k, t, ends, digest, len, -⟩ :=
    session_ends inSession idle held program noReset bound
  have ⟨_, ⟨_, _, _, final⟩, _⟩ := ends
  have valid : t.dvalid = true := final (issuesFinal_session program)
  refine ⟨k, t, ends, valid, ?_, len⟩
  rw [State.digestWords_eq valid, digest, sha256]

/-- Settles O54: a run has one end, and the session's was counted. -/
theorem sessionTakes66StepsPerBlock : Obligations.SessionTakes66StepsPerBlock := by
  intro ts s t k inSession idle held program noReset bound ends
  obtain ⟨j, u, ends', -, -, steps⟩ := session_ends inSession idle held program noReset bound
  obtain ⟨rfl, -⟩ := ends.unique ends'
  exact steps

end Sys2Proof.Machine

/-! ## Reads, bad writes and the DATA write (45_host_interface.md R191 to R202)

`exec_read` and `exec_busError` say what a read and a bad write do in every state. What is left is
which descriptor selects which row, decided descriptor by descriptor with D carried along, and the
values a read returns. -/

namespace Sys2Proof

/-! ### Which descriptor selects which row (R71) -/

/-- A read at an odd offset (R71, R199). -/
theorem decodeBus_oddRead {a : BitVec 7} (read : a.getLsbD 6 = false) (odd : a.getLsbD 0 = true)
    (d : Word) : decodeBus a d = .rdMisalignedOdd (a.extractLsb' 1 5) := by
  have row : ∀ a : BitVec 7, a.getLsbD 6 = false → a.getLsbD 0 = true →
      decodeBus a 0#32 = .rdMisalignedOdd (a.extractLsb' 1 5) := by decide
  exact decodeBus_of_zero_data (row a read odd) d

/-- A read at an even offset that is not a multiple of 4 (R71, R199). -/
theorem decodeBus_halfRead {a : BitVec 7} (read : a.getLsbD 6 = false) (even : a.getLsbD 0 = false)
    (half : a.getLsbD 1 = true) (d : Word) :
    decodeBus a d = .rdMisalignedHalf (a.extractLsb' 2 4) := by
  have row : ∀ a : BitVec 7, a.getLsbD 6 = false → a.getLsbD 0 = false → a.getLsbD 1 = true →
      decodeBus a 0#32 = .rdMisalignedHalf (a.extractLsb' 2 4) := by decide
  exact decodeBus_of_zero_data (row a read even half) d

/-- DIGESTi is at 0x20 + 4i (R71, R72). -/
theorem decodeBus_digestRead (i : BitVec 3) (d : Word) :
    decodeBus (0x20#7 + 4#7 * i.setWidth 7) d = .rdDigest i := by
  have row : ∀ i : BitVec 3, decodeBus (0x20#7 + 4#7 * i.setWidth 7) 0#32 = .rdDigest i := by decide
  exact decodeBus_of_zero_data (row i) d

@[simp] theorem Instr.isBusError_withData (d : Word) (i : Instr) :
    (i.withData d).isBusError = i.isBusError := by
  simp only [Instr.isBusError, Instr.mnemonic_withData]

/-- Every write but those of CMD and DATA is a bad one (R71, R202). -/
theorem isBusError_decodeBus {a : BitVec 7} (write : a.getLsbD 6 = true) (notCmd : a ≠ 0x48#7)
    (notData : a ≠ 0x4C#7) (d : Word) : (decodeBus a d).isBusError = true := by
  have row : ∀ a : BitVec 7, a.getLsbD 6 = true → a ≠ 0x48#7 → a ≠ 0x4C#7 →
      (decodeBus a 0#32).isBusError = true := by decide
  rw [decodeBus_eq_withData, Instr.isBusError_withData]
  exact row a write notCmd notData

end Sys2Proof

namespace Sys2Proof.Machine

/-! ### Constants, DATA and L (R191, R193 to R197, R199) -/

/-- Settles O16: these reads return their constant whatever the state. -/
theorem constantReadsReturnTheirConstant : Obligations.ConstantReadsReturnTheirConstant := by
  refine ⟨fun d => ⟨rfl, rfl, rfl, rfl, fun a read => ?misaligned⟩, fun s => ?value⟩
  case misaligned =>
    exact ⟨fun odd => decodeBus_oddRead read odd d,
      fun even half => decodeBus_halfRead read even half d⟩
  case value =>
    exact ⟨exec_read rfl rfl s, exec_read rfl rfl s, fun _ => exec_read rfl rfl s,
      fun _ => exec_read rfl rfl s, fun _ => exec_read rfl rfl s⟩

theorem State.lenLo_toNat (s : State) : s.lenLo.toNat = s.len.toNat % 2 ^ 32 := by
  rw [State.lenLo, BitVec.extractLsb'_toNat, Nat.shiftRight_zero]

theorem State.lenHi_toNat (s : State) : s.lenHi.toNat = s.len.toNat / 2 ^ 32 := by
  have := s.len.isLt
  rw [State.lenHi, BitVec.extractLsb'_toNat, Nat.shiftRight_eq_div_pow]
  omega

/-- Settles O17: the two words are quotient and remainder of L by 2^32. -/
theorem dataAndLengthReadsReturnTheRegister : Obligations.DataAndLengthReadsReturnTheRegister := by
  refine ⟨fun d => ⟨rfl, rfl, rfl⟩, fun s => ⟨exec_read rfl rfl s, s.lenLo, s.lenHi, ?halves,
    fun bound => ?topBits, exec_read rfl rfl s, exec_read rfl rfl s⟩⟩
  case halves =>
    rw [s.lenLo_toNat, s.lenHi_toNat]
    omega
  case topBits =>
    refine BitVec.eq_of_toNat_eq ?_
    rw [BitVec.extractLsb'_toNat, Nat.shiftRight_eq_div_pow, s.lenHi_toNat, BitVec.toNat_ofNat]
    omega

/-! ### The fields of STATUS (R40) -/

@[simp] theorem getElem_flagBit (b : Bool) (i : Nat) (hi : i < 32) :
    (flagBit b)[i] = (decide (i = 0) && b) := by
  cases i <;> simp [flagBit]

theorem State.statusWord_flags (s : State) :
    s.statusWord.getLsbD 0 = s.busy ∧ s.statusWord.getLsbD 1 = s.dvalid ∧
      s.statusWord.getLsbD 8 = s.errCmd ∧ s.statusWord.getLsbD 9 = s.errSeq ∧
      s.statusWord.getLsbD 10 = s.errLen ∧ s.statusWord.getLsbD 11 = s.errBus := by
  simp [State.statusWord]

theorem State.statusWord_mode (s : State) : s.statusWord.extractLsb' 2 2 = s.mode.code := by
  refine BitVec.eq_of_getElem_eq fun i hi => ?_
  interval_cases i <;> simp [State.statusWord]

theorem State.statusWord_bufCnt (s : State) : s.statusWord.extractLsb' 16 6 = s.bufCnt := by
  refine BitVec.eq_of_getElem_eq fun i hi => ?_
  interval_cases i <;> simp [State.statusWord]

theorem State.statusWord_reserved (s : State) :
    s.statusWord.extractLsb' 4 4 = 0#4 ∧ s.statusWord.extractLsb' 12 4 = 0#4 ∧
      s.statusWord.extractLsb' 22 10 = 0#10 := by
  refine ⟨BitVec.eq_of_getElem_eq fun i hi => ?_, BitVec.eq_of_getElem_eq fun i hi => ?_,
    BitVec.eq_of_getElem_eq fun i hi => ?_⟩ <;>
  interval_cases i <;> simp [State.statusWord]

/-- Settles O18: field by field, with BUSY and DVALID as R34 derives them. -/
theorem statusReadReturnsEveryField : Obligations.StatusReadReturnsEveryField := by
  refine ⟨fun d => rfl, fun s => ⟨s.statusWord, exec_read rfl rfl s, ?_⟩⟩
  obtain ⟨busy, dvalid, errCmd, errSeq, errLen, errBus⟩ := s.statusWord_flags
  obtain ⟨low, middle, high⟩ := s.statusWord_reserved
  have mode {m : Mode} (h : s.mode = m) : s.statusWord.extractLsb' 2 2 = m.code :=
    h ▸ s.statusWord_mode
  exact ⟨busy ▸ s.busy_eq_true_iff, dvalid ▸ s.dvalid_iff, mode, mode, mode, mode, low, errCmd,
    errSeq, errLen, errBus, middle, s.statusWord_bufCnt, high⟩

/-! ### The digest gate (R198) -/

/-- Settles O19: the gate is DVALID. -/
theorem digestReadIsGatedByDvalid : Obligations.DigestReadIsGatedByDvalid := by
  intro s i
  have read := exec_read (i := .rdDigest i) rfl rfl s
  refine ⟨decodeBus_digestRead i, fun mode phase => ?shown, fun closed => ?hidden⟩
  case shown =>
    rw [read, State.readValue, State.digestWord_of_dvalid (s.dvalid_iff.2 ⟨mode, phase⟩)]
    rfl
  case hidden =>
    have hidden : s.dvalid = false := Bool.eq_false_iff.2 fun valid =>
      closed.elim (· (s.dvalid_iff.1 valid).1) (· (s.dvalid_iff.1 valid).2)
    rw [read, State.readValue, State.digestWord_of_not_dvalid hidden]
    rfl

/-! ### Writes (R200, R202) -/

/-- WR_DATA (R200). -/
theorem exec_wrData (d : Word) (s : State) : exec (.wrData d) s = .next { s with data := d } := rfl

/-- Settles O21: neither the row nor its effect depends on the state. -/
theorem dataWriteStoresTheWord : Obligations.DataWriteStoresTheWord :=
  fun s d => ⟨rfl, exec_wrData d s⟩

/-- Settles O22: each of them is a bad write, by its descriptor or by its row. -/
theorem badWritesOnlySetErrBus : Obligations.BadWritesOnlySetErrBus := by
  intro s d
  have bad {i : Instr} (h : i.isBusError = true) : exec i s = .next { s with errBus := true } :=
    exec_busError h s
  exact ⟨fun a write notCmd notData => bad (isBusError_decodeBus write notCmd notData d),
    bad rfl, bad rfl, fun _ => bad rfl, fun _ => bad rfl, fun _ => bad rfl, fun _ => bad rfl,
    fun _ => bad rfl⟩

end Sys2Proof.Machine

/-! ## Commands, held and accepted (45_host_interface.md R201 to R207)

With PHASE IDLE a command has its effect (`exec_toInstr_idle`); while PHASE is not IDLE it is held
(`exec_toInstr_busy`). A CMD write is its command in both (`exec_wrCmd`). -/

namespace Sys2Proof.Machine

/-! ### The hold (R201) -/

/-- With PHASE IDLE a command has its effect and its write completes (R201). -/
theorem exec_toInstr_idle {s : State} (idle : s.phase = phaseIdle) (c : Command) :
    exec c.toInstr s = .next (c.effect s.release) := by
  cases c with
  | nop => exact acceptWhenIdle_idle (effect := fun s => s) idle
  | init => exact acceptWhenIdle_idle idle
  | absorb n => exact acceptWhenIdle_idle idle
  | final => exact acceptWhenIdle_idle idle
  | illegal w => exact acceptWhenIdle_idle (effect := fun s => s.flag .cmd) idle

/-- While PHASE is not IDLE a CMD write is held (R201). -/
theorem exec_wrCmd_busy {s : State} (busy : s.busy = true) (d : Word) :
    exec (.wrCmd d) s = .next (s.hold d) :=
  if_pos busy

/-- Settles O23: both are held, the command as the word that encodes it. -/
theorem commandIsHeldWhileBusy : Obligations.CommandIsHeldWhileBusy := by
  intro s d working
  have held := exec_wrCmd_busy (s.busy_eq_true_iff.2 working) d
  exact ⟨held, (exec_wrCmd d s).symm.trans held⟩

/-- Settles O24: the write and its command are one meaning, and no command's effect holds a word. -/
theorem commandWritePerformsItsCommandWhenIdle :
    Obligations.CommandWritePerformsItsCommandWhenIdle := by
  intro s d idle
  have completes := exec_wrCmd_idle idle d
  obtain ⟨held, -⟩ := commandEffect_frame (decodeCommand d) s.release
  exact ⟨_, completes, (exec_wrCmd d s).symm.trans completes, held⟩

/-- Settles O42: a read, a bad write and the DATA write name the items they write, and a CMD write
is held. -/
theorem noTransactionDisturbsABlockInProgress :
    Obligations.NoTransactionDisturbsABlockInProgress := by
  intro s t a d working next
  have bus := isTransaction_decodeBus a d
  rcases transaction_kinds bus with read | bad | ⟨x, isData⟩ | ⟨x, isCmd⟩
  · rw [exec_read bus read] at next
    cases next
    rfl
  · rw [exec_busError bad] at next
    cases next
    rfl
  · rw [isData] at next
    cases next
    rfl
  · rw [isCmd, exec_wrCmd_busy (s.busy_eq_true_iff.2 working)] at next
    cases next
    rfl

/-! ### NOP, INIT and the illegal words (R203, R204, R207) -/

/-- Settles O25: the effect of NOP is the identity. -/
theorem nopChangesNothing : Obligations.NopChangesNothing :=
  ⟨rfl, fun _ idle => exec_toInstr_idle idle .nop⟩

/-- Settles O26: `State.startSession` written out, with the IV of R110. -/
theorem initStartsASession : Obligations.InitStartsASession :=
  ⟨rfl, fun _ idle => exec_toInstr_idle idle .init⟩

/-- Settles O31: the last clause of R83, and the effect of its row. -/
theorem illegalCommandOnlySetsErrCmd : Obligations.IllegalCommandOnlySetsErrCmd := by
  intro s w idle
  obtain ⟨-, -, -, -, illegal⟩ := commandWordsDecodeExactly w
  exact ⟨illegal, exec_toInstr_idle idle (.illegal w)⟩

end Sys2Proof.Machine

/-! ## ABSORB (45_host_interface.md R205; 41_padding.md R123, R124)

The places of BUF are counted modulo 64 from BUFCNT, so one lemma (`State.appendBytes_buf`) says where
each byte goes, whether the bytes fill the buffer or not. The block that is loaded is BUF as it stands
when its last place is written. -/

namespace Sys2Proof.Machine

theorem exec_absorb_idle {s : State} (idle : s.phase = phaseIdle) (n : BitVec 2) :
    exec (.absorb n) s = .next (s.release.absorb n) :=
  exec_toInstr_idle idle (.absorb n)

/-- Settles O27: the checks in R243's order. -/
theorem absorbRefusals : Obligations.AbsorbRefusals := by
  intro s n idle
  rw [exec_absorb_idle idle]
  refine ⟨fun closed => ?sequence, fun accepting long => ?length⟩
  case sequence => rw [State.absorb_refused n (s := s.release) closed]; rfl
  case length => rw [State.absorb_tooLong n (s := s.release) accepting long]; rfl

/-! ### Bytes appended one after another (R123, R124) -/

theorem State.appendByte_bufCnt_mod (s : State) (x : Byte) :
    (s.appendByte x).bufCnt.toNat = (s.bufCnt.toNat + 1) % 64 :=
  s.appendBytes_bufCnt [x]

theorem State.appendByte_buf (s : State) (x : Byte) :
    (s.appendByte x).buf = s.buf.set s.bufCnt.toNat x s.bufCnt.isLt := by
  by_cases full : s.bufCnt = 63#6
  · rw [s.appendByte_fills x full]
  · rw [s.appendByte_below x full]

/-- Bytes appended in a row stand in BUF from BUFCNT on, past its end from the front again
(R123). -/
theorem State.appendBytes_buf (bs : List Byte) (s : State) (few : bs.length ≤ 64) {j : Nat}
    (hj : j < 64) :
    (bs.foldl State.appendByte s).buf[j] =
      bs.getD ((j + 64 - s.bufCnt.toNat) % 64) s.buf[j] := by
  induction bs generalizing s with
  | nil => rfl
  | cons x bs ih =>
    rw [List.length_cons] at few
    have cnt := s.appendByte_bufCnt_mod x
    have := s.bufCnt.isLt
    rw [List.foldl_cons, ih _ (by omega), cnt]
    by_cases here : j = s.bufCnt.toNat
    · have first : (j + 64 - s.bufCnt.toNat) % 64 = 0 := by omega
      have past : bs.length ≤ (j + 64 - (s.bufCnt.toNat + 1) % 64) % 64 := by omega
      rw [first, List.getD_cons_zero, List.getD_eq_default _ _ past]
      simp [s.appendByte_buf, here]
    · have later : (j + 64 - s.bufCnt.toNat) % 64 =
          (j + 64 - (s.bufCnt.toNat + 1) % 64) % 64 + 1 := by omega
      rw [later, List.getD_cons_succ]
      simp [s.appendByte_buf, Ne.symm here]

/-- APPEND_BYTE with room for one more byte touches neither W nor PHASE (R123). -/
theorem State.appendByte_room {s : State} (room : s.bufCnt.toNat < 63) (x : Byte) :
    (s.appendByte x).w = s.w ∧ (s.appendByte x).phase = s.phase := by
  have below : s.bufCnt ≠ 63#6 := fun full => absurd room (by rw [full]; decide)
  rw [s.appendByte_below x below]
  exact ⟨rfl, rfl⟩

/-- APPEND_BYTE at the last place loads the filled buffer (R123, R124). -/
theorem State.appendByte_last {s : State} (last : s.bufCnt.toNat = 63) (x : Byte) :
    (s.appendByte x).w = loadWords (s.appendByte x).buf.toList s.w ∧
      (s.appendByte x).phase = phaseSchedule := by
  have full : s.bufCnt = 63#6 := BitVec.eq_of_toNat_eq last
  rw [s.appendByte_fills x full]
  exact ⟨rfl, rfl⟩

/-- Bytes that leave room in BUF load no block (R123). -/
theorem State.appendBytes_room (bs : List Byte) (s : State)
    (room : s.bufCnt.toNat + bs.length < 64) :
    (bs.foldl State.appendByte s).w = s.w ∧ (bs.foldl State.appendByte s).phase = s.phase := by
  induction bs generalizing s with
  | nil => exact ⟨rfl, rfl⟩
  | cons x bs ih =>
    rw [List.length_cons] at room
    have cnt := s.appendByte_bufCnt_mod x
    obtain ⟨w, phase⟩ := State.appendByte_room (s := s) (by omega) x
    rw [List.foldl_cons, ← w, ← phase]
    exact ih _ (by omega)

/-- Of bytes that fill BUF, those up to its last place make the block that is loaded (R123,
R124). -/
theorem State.appendBytes_fills (bs : List Byte) (s : State) (few : bs.length ≤ 64)
    (full : 64 ≤ s.bufCnt.toNat + bs.length) :
    (bs.foldl State.appendByte s).w =
        loadWords ((bs.take (64 - s.bufCnt.toNat)).foldl State.appendByte s).buf.toList s.w ∧
      (bs.foldl State.appendByte s).phase = phaseSchedule := by
  have := s.bufCnt.isLt
  induction bs generalizing s with
  | nil => rw [List.length_nil] at full; omega
  | cons x bs ih =>
    rw [List.length_cons] at few full
    have cnt := s.appendByte_bufCnt_mod x
    obtain ⟨k, left⟩ : ∃ k, 64 - s.bufCnt.toNat = k + 1 := ⟨63 - s.bufCnt.toNat, by omega⟩
    rw [left, List.take_succ_cons, List.foldl_cons, List.foldl_cons]
    by_cases last : s.bufCnt.toNat = 63
    · obtain ⟨w, phase⟩ := State.appendByte_last last x
      obtain ⟨w', phase'⟩ := State.appendBytes_room bs (s.appendByte x) (by omega)
      obtain rfl : k = 0 := by omega
      exact ⟨w'.trans w, phase'.trans phase⟩
    · obtain ⟨w, -⟩ := State.appendByte_room (s := s) (by omega) x
      obtain rfl : k = 64 - (s.appendByte x).bufCnt.toNat := by omega
      rw [← w]
      exact ih _ (by omega) (by omega) (s.appendByte x).bufCnt.isLt

/-- A block load of a block given byte by byte (R124). -/
theorem loadWords_getElem_of_bytes {blk : List Byte} {byte : Nat → Byte}
    (same : ∀ j, j < 64 → blk.getD j 0#8 = byte j) {w : Vector Word 64} (k : Fin 64) :
    (loadWords blk w)[k] =
      if k.val < 16
      then be32 (byte (4 * k.val)) (byte (4 * k.val + 1)) (byte (4 * k.val + 2))
        (byte (4 * k.val + 3))
      else w[k] := by
  have word := wordAt_loadWords blk w k.val
  rw [wordAt_eq_getElem _ _ k.isLt, wordAt_eq_getElem _ _ k.isLt] at word
  refine word.trans ?_
  split
  · rw [blockWord, same _ (by omega), same _ (by omega), same _ (by omega), same _ (by omega)]
  · rfl

/-! ### An accepted ABSORB -/

/-- ABSORB takes DATA's bytes, the most significant first (R42, R82). -/
theorem absorbBytes_getD (n : BitVec 2) (s : State) (k : Nat) (x : Byte) :
    (absorbBytes n s.data).getD k x = if k < absorbCount n then s.dataByte k else x := by
  have count : absorbCount n ≤ 4 := n.isLt
  rw [List.getD_eq_getElem?_getD, absorbBytes, List.getElem?_take]
  split
  · next taken =>
    rw [wordBytes_getElem? s.data ⟨k, by omega⟩]
    rfl
  · rfl

/-- An accepted ABSORB puts DATA's byte `k` at the place BUFCNT + k of BUF, past its end from the
front again (R123, R205). -/
theorem State.absorbed_buf_taken {n : BitVec 2} (s : State) {j k : Nat} (hj : j < 64)
    (place : (j + 64 - s.bufCnt.toNat) % 64 = k) (taken : k < absorbCount n) :
    ((absorbBytes n s.data).foldl State.appendByte s).buf[j] = s.dataByte k := by
  have count : absorbCount n ≤ 4 := n.isLt
  have few : (absorbBytes n s.data).length ≤ 64 := by rw [absorbBytes_length]; omega
  rw [State.appendBytes_buf _ s few hj, place, absorbBytes_getD, if_pos taken]

/-- Every other place of BUF keeps its byte. -/
theorem State.absorbed_buf_kept {n : BitVec 2} (s : State) {j : Nat} (hj : j < 64)
    (past : absorbCount n ≤ (j + 64 - s.bufCnt.toNat) % 64) :
    ((absorbBytes n s.data).foldl State.appendByte s).buf[j] = s.buf[j] := by
  have few : (absorbBytes n s.data).length ≤ 64 := by rw [absorbBytes_length]; omega
  rw [State.appendBytes_buf _ s few hj, absorbBytes_getD, if_neg (by omega)]

/-- The block an ABSORB fills is the buffered bytes and then DATA's (R123, R205). -/
theorem State.filledBlock_getD {n : BitVec 2} (s : State)
    (full : 64 ≤ s.bufCnt.toNat + absorbCount n) {j : Nat} (hj : j < 64) :
    (((absorbBytes n s.data).take (64 - s.bufCnt.toNat)).foldl State.appendByte s).buf.toList.getD j
      0#8 = s.filledByte j := by
  have cntLt := s.bufCnt.isLt
  rw [List.getD_eq_getElem _ _ (by simpa using hj), Vector.getElem_toList,
    State.appendBytes_buf _ s (by simp) hj, State.filledByte, List.getD_eq_getElem?_getD,
    List.getElem?_take]
  by_cases before : j < s.bufCnt.toNat
  · rw [if_neg (by omega), if_pos before]
    simp [hj]
  · have place : (j + 64 - s.bufCnt.toNat) % 64 = j - s.bufCnt.toNat := by omega
    rw [place, if_pos (by omega), if_neg before, ← List.getD_eq_getElem?_getD, absorbBytes_getD,
      if_pos (by omega)]

theorem State.absorbed_len {n : BitVec 2} (s : State)
    (bound : s.len.toNat + absorbCount n ≤ maxMsgBytes) :
    ((absorbBytes n s.data).foldl State.appendByte s).len.toNat =
      s.len.toNat + absorbCount n := by
  rw [maxMsgBytes] at bound
  rw [State.appendBytes_len, absorbBytes_length, Nat.mod_eq_of_lt (by omega)]

theorem State.absorbed_bufCnt (n : BitVec 2) (s : State) :
    ((absorbBytes n s.data).foldl State.appendByte s).bufCnt.toNat =
      (s.bufCnt.toNat + absorbCount n) % 64 := by
  rw [State.appendBytes_bufCnt, absorbBytes_length]

theorem exec_absorb_accepted {s : State} {n : BitVec 2} (idle : s.phase = phaseIdle)
    (accepting : s.mode = .accepting) (bound : s.len.toNat + absorbCount n ≤ maxMsgBytes) :
    exec (.absorb n) s = .next ((absorbBytes n s.data).foldl State.appendByte s.release) := by
  rw [exec_absorb_idle idle, State.absorb_accepted n (s := s.release) accepting bound]
  rfl

/-- Settles O28: with room left the place of byte `k` is BUFCNT + k. -/
theorem absorbAppendsItsBytes : Obligations.AbsorbAppendsItsBytes := by
  intro s n idle accepting bound room
  have size := absorbBytes_length n s.data
  have frame := s.release.appendBytes_frame (absorbBytes n s.data)
  obtain ⟨w, phase⟩ := State.appendBytes_room (absorbBytes n s.data) s.release (by rwa [size])
  rw [← w, ← phase] at frame
  refine ⟨_, exec_absorb_accepted idle accepting bound, s.release.absorbed_len bound,
    (s.release.absorbed_bufCnt n).trans (Nat.mod_eq_of_lt room), fun j => ?buf,
    (congrArg State.held frame :), (congrArg (fun t : State => { t with held := s.held }) frame :)⟩
  case buf =>
    by_cases taken : s.bufCnt.toNat ≤ j.val ∧ j.val < s.bufCnt.toNat + (n.toNat + 1)
    · have place : (j.val + 64 - s.bufCnt.toNat) % 64 = j.val - s.bufCnt.toNat := by omega
      have within : j.val - s.bufCnt.toNat < n.toNat + 1 := by omega
      rw [if_pos taken]
      exact s.release.absorbed_buf_taken j.isLt place within
    · have past : n.toNat + 1 ≤ (j.val + 64 - s.bufCnt.toNat) % 64 := by omega
      rw [if_neg taken]
      exact s.release.absorbed_buf_kept j.isLt past

/-- Settles O29: the block is what stands in BUF when its last place is written, and the bytes
behind it go to the front. -/
theorem absorbThatFillsTheBufferLoadsTheBlock :
    Obligations.AbsorbThatFillsTheBufferLoadsTheBlock := by
  intro s n idle accepting bound full
  have count : n.toNat + 1 ≤ 4 := n.isLt
  have size : (absorbBytes n s.data).length = n.toNat + 1 := absorbBytes_length n s.data
  have cntLt := s.bufCnt.isLt
  have frame := s.release.appendBytes_frame (absorbBytes n s.data)
  obtain ⟨w, phase⟩ := State.appendBytes_fills (absorbBytes n s.data) s.release (by omega)
    (by rwa [size])
  have wraps : (s.bufCnt.toNat + (n.toNat + 1)) % 64 = s.bufCnt.toNat + (n.toNat + 1) - 64 := by
    omega
  refine ⟨_, exec_absorb_accepted idle accepting bound, s.release.absorbed_len bound,
    (s.release.absorbed_bufCnt n).trans wraps, fun j => ?buf, fun k => ?words, phase,
    (congrArg State.held frame :), (congrArg (fun t : State => { t with held := s.held }) frame :)⟩
  case buf =>
    by_cases last : s.bufCnt.toNat ≤ j.val
    · have place : (j.val + 64 - s.bufCnt.toNat) % 64 = j.val - s.bufCnt.toNat := by omega
      have within : j.val - s.bufCnt.toNat < n.toNat + 1 := by omega
      rw [if_pos last]
      exact s.release.absorbed_buf_taken j.isLt place within
    · have place : (j.val + 64 - s.bufCnt.toNat) % 64 = 64 - s.bufCnt.toNat + j.val := by omega
      rw [if_neg last]
      by_cases front : j.val < s.bufCnt.toNat + (n.toNat + 1) - 64
      · have within : 64 - s.bufCnt.toNat + j.val < n.toNat + 1 := by omega
        rw [if_pos front]
        exact s.release.absorbed_buf_taken j.isLt place within
      · have past : n.toNat + 1 ≤ (j.val + 64 - s.bufCnt.toNat) % 64 := by omega
        rw [if_neg front]
        exact s.release.absorbed_buf_kept j.isLt past
  case words =>
    rw [w]
    exact loadWords_getElem_of_bytes (fun j hj => s.release.filledBlock_getD full hj) k

end Sys2Proof.Machine

/-! ## FINAL (45_host_interface.md R206; 41_padding.md R125)

PAD_TAIL's block is a list put together of the tail, 0x80, zeros and the length; `State.paddedByte`
gives the same block place by place. -/

namespace Sys2Proof.Machine

theorem exec_final_idle {s : State} (idle : s.phase = phaseIdle) :
    exec .final s = .next s.release.finish :=
  exec_toInstr_idle idle .final

/-- BE64, byte by byte (R112). -/
theorem be64_getD (x : BitVec 64) {k : Nat} (hk : k < 8) :
    (be64 x).getD k 0#8 = x.extractLsb' (8 * (7 - k)) 8 := by
  interval_cases k <;> rfl

/-- What stands behind the buffered tail and 0x80 makes the padded block if it does so place by
place (R125). -/
theorem State.tail_append_getD (s : State) {rest : List Byte} {j : Nat}
    (behind : s.bufCnt.toNat < j → rest.getD (j - (s.bufCnt.toNat + 1)) 0#8 =
      if s.bufCnt.toNat ≤ 55 ∧ 56 ≤ j then (8#64 * s.len).extractLsb' (8 * (63 - j)) 8
      else 0x00#8) :
    (s.buf.toList.take s.bufCnt.toNat ++ [0x80#8] ++ rest).getD j 0#8 = s.paddedByte j := by
  have cntLt := s.bufCnt.isLt
  have size : (s.buf.toList.take s.bufCnt.toNat).length = s.bufCnt.toNat := by simp; omega
  rw [List.append_assoc, State.paddedByte]
  by_cases before : j < s.bufCnt.toNat
  · rw [List.getD_append _ _ _ _ (by omega), if_pos before]
    simp [before]
  · rw [List.getD_append_right _ _ _ _ (by omega), size, if_neg before]
    by_cases here : j = s.bufCnt.toNat
    · simp [here]
    · have past : j - s.bufCnt.toNat = j - (s.bufCnt.toNat + 1) + 1 := by omega
      rw [if_neg here, past, List.singleton_append, List.getD_cons_succ, behind (by omega)]

/-- The block PAD_TAIL loads, byte by byte (R125). -/
theorem State.tailBlock_getD (s : State) {j : Nat} (hj : j < 64) :
    s.tailBlock.getD j 0#8 = s.paddedByte j := by
  by_cases fits : s.bufCnt.toNat ≤ 55
  · rw [State.tailBlock_of_le fits, List.append_assoc]
    refine s.tail_append_getD fun behind => ?_
    by_cases length : 56 ≤ j
    · have place : j - (s.bufCnt.toNat + 1) - (55 - s.bufCnt.toNat) = j - 56 := by omega
      have fromEnd : 7 - (j - 56) = 63 - j := by omega
      rw [if_pos ⟨fits, length⟩, List.getD_append_right _ _ _ _ (by simp; omega),
        List.length_replicate, place, be64_getD _ (by omega), fromEnd, State.messageBits]
    · rw [if_neg (by omega), List.getD_append _ _ _ _ (by simp; omega),
        List.getD_replicate _ (by omega)]
  · rw [State.tailBlock_of_gt (by omega)]
    refine s.tail_append_getD fun behind => ?_
    rw [if_neg (by omega), List.getD_replicate _ (by omega)]

/-- Settles O30: PAD_TAIL loads `State.tailBlock`, which is the padded block byte by byte. -/
theorem finalPadsTheTail : Obligations.FinalPadsTheTail := by
  refine ⟨rfl, fun s idle => ⟨fun closed => ?refused, fun accepting => ?accepted⟩⟩
  case refused =>
    rw [exec_final_idle idle, State.finish_refused (s := s.release) closed]
    rfl
  case accepted =>
    have padded := State.finish_accepted (s := s.release) accepting
    refine ⟨_, (exec_final_idle idle).trans (congrArg _ padded), rfl, decide_eq_true_iff, rfl,
      fun k => ?words, rfl, rfl, rfl, rfl⟩
    case words => exact loadWords_getElem_of_bytes (fun j hj => s.release.tailBlock_getD hj) k

end Sys2Proof.Machine

/-! ## The error flags' setters, and the rest in IDLE (60_exceptions.md R241, R242, R255) -/

namespace Sys2Proof.Machine

/-! ### Who sets each flag -/

/-- What R241 and R242 ask of an instruction that sets the flag, in the state it begins in. -/
def ErrFlag.SetBy (i : Instr) (s : State) : ErrFlag → Prop
  | .cmd => ∃ w, i.performed = .cmdIllegal w
  | .seq => s.mode ≠ .accepting ∧ (i.performed = .final ∨ ∃ n, i.performed = .absorb n)
  | .len => ∃ n : BitVec 2, i.performed = .absorb n ∧ s.mode = .accepting ∧
      s.len.toNat + absorbCount n > maxMsgBytes
  | .bus => i.isBusError = true

/-- `flag ERR_X` sets no other flag (R13). -/
theorem State.eq_of_flag_sets {s : State} {e f : ErrFlag} (off : s.err f = false)
    (on : (s.flag e).err f = true) : f = e := by
  simpa [off] using on

/-- A flag that becomes 1 does so by an instruction and in a state R241 lists for it. -/
theorem Effect.setBy {i : Instr} {s t : State} (e : Effect i s t) {f : ErrFlag}
    (off : s.err f = false) (on : t.err f = true) : f.SetBy i s := by
  have kept (same : ∀ f, t.err f = s.err f) : f.SetBy i s := by simp [same, off] at on
  cases e with
  | busError bad =>
    obtain rfl := State.eq_of_flag_sets off on
    exact bad
  | init => exact absurd on (Bool.eq_false_iff.1 (s.release.clearErrors_err f))
  | illegal _ w does =>
    obtain rfl := State.eq_of_flag_sets (s := s.release) off on
    exact ⟨w, does⟩
  | final _ does =>
    rcases State.finish_cases s.release with ⟨closed, h⟩ | ⟨-, h⟩ <;> rw [h] at on kept
    · obtain rfl := State.eq_of_flag_sets (s := s.release) off on
      exact ⟨closed, .inl does⟩
    · exact kept (State.err_congr rfl rfl rfl rfl)
  | absorb _ n does =>
    rcases State.absorb_inversion n s.release with ⟨closed, h⟩ | ⟨accepting, tooLong, h⟩ |
      ⟨-, -, _, _, _, _, _, h⟩ <;> rw [h] at on kept
    · obtain rfl := State.eq_of_flag_sets (s := s.release) off on
      exact ⟨closed, .inr ⟨n, does⟩⟩
    · obtain rfl := State.eq_of_flag_sets (s := s.release) (e := .len) off on
      exact ⟨n, does, accepting, tooLong⟩
    · exact kept (State.err_congr rfl rfl rfl rfl)
  | _ => exact kept (State.err_congr rfl rfl rfl rfl)

/-- Settles O46: `Effect.setBy` at each of the four flags. -/
theorem onlyTheListedTransactionsSetFlags : Obligations.OnlyTheListedTransactionsSetFlags := by
  intro i s t next
  have set (f : ErrFlag) (off : s.err f = false) (on : t.err f = true) : f.SetBy i s :=
    (exec_effect next).setBy off on
  exact ⟨set .cmd, set .seq, set .len, set .bus⟩

/-! ### The rest in IDLE -/

theorem exec_engIdle (s : State) : exec .engIdle s = .next s := rfl

/-- In IDLE the engine's move is its rest (R85, R190). -/
theorem engineMove_idle {s : State} (idle : s.phase = phaseIdle) : engineMove s = .next s := by
  rw [engineMove, idle]
  exact exec_engIdle s

/-- Settles O12: a host that is done leaves the step to the engine, which rests. -/
theorem idleKeepsEveryItem : Obligations.IdleKeepsEveryItem :=
  ⟨exec_engIdle, fun _ idle program held plan =>
    (step_no_turn_blocked plan (State.hostEnabled_done held program)).trans (engineMove_idle idle)⟩

end Sys2Proof.Machine

/-! ## Progress and the end of a run (70_reset_and_hazards.md R269, R271)

`State.engineStepsLeft` counts down to IDLE, one engine step at a time. Between two engine steps the
host may move, but it leaves the block alone, and the turns it can still take are bounded
(`State.hostTurnsAhead`): by the turns the plan names, and then by the count that makes the free choice
fair. So every step of a block brings the next engine step nearer or IDLE (`step_in_block`). -/

namespace Sys2Proof.Machine

/-! ### The engine alone -/

/-- From a legal PHASE the engine never stops (R86, R256). -/
theorem exists_engineMove {s : State} (legal : s.PhaseLegal) :
    ∃ t, engineMove s = .next t ∧ t.PhaseLegal := by
  have next : ∃ t, engineMove s = .next t := by
    rcases decodePhase_cases s.phase with ⟨hp, -⟩ | ⟨hp, -⟩ | ⟨hp, -⟩ | ⟨k, hp, -⟩ | fault
    · exact ⟨_, engineMove_idle hp⟩
    · exact ⟨_, engineMove_schedule hp⟩
    · cases pend : s.pendLen with
      | true => exact ⟨_, engineMove_add_pending hp pend⟩
      | false => exact ⟨_, engineMove_add_last hp pend⟩
    · exact ⟨_, engineMove_round hp⟩
    · exact absurd (fault s) (engineMove_ne_fault legal _)
  obtain ⟨t, move⟩ := next
  exact ⟨t, move, (exec_effect move).phaseLegal legal⟩

theorem State.engineStepsLeft_eq_zero_iff (s : State) :
    s.engineStepsLeft = 0 ↔ s.phase = phaseIdle :=
  ⟨fun none => State.phase_idle_of_not_busy fun busy => (State.engineStepsLeft_pos busy).ne' none,
    State.engineStepsLeft_idle⟩

/-- 66 steps for a block, and 66 for the length block behind it (R36, R269). -/
theorem State.engineStepsLeft_schedule_eq_ite {s : State} (atSchedule : s.phase = phaseSchedule) :
    s.engineStepsLeft = if s.pendLen then 132 else 66 := by
  rw [State.engineStepsLeft_schedule atSchedule]
  cases s.pendLen <;> rfl

/-- Each step the engine makes alone is one fewer to go. -/
theorem engineRun_engineStepsLeft (n : Nat) {s : State} (legal : s.PhaseLegal)
    (within : n ≤ s.engineStepsLeft) :
    ∃ t, engineRun n s = some t ∧ t.engineStepsLeft + n = s.engineStepsLeft := by
  induction n generalizing s with
  | zero => exact ⟨s, rfl, rfl⟩
  | succ n ih =>
    have busy : s.busy = true := by
      rw [s.busy_eq_true_iff, ne_eq, ← s.engineStepsLeft_eq_zero_iff]
      omega
    obtain ⟨t, move, legal'⟩ := exists_engineMove legal
    obtain ⟨left, -⟩ := engineMove_engineStepsLeft busy move
    obtain ⟨u, run, left'⟩ := ih legal' (by omega)
    exact ⟨u, (engineRun_succ move n).trans run, by omega⟩

/-- Settles O50: PHASE is IDLE exactly when no step is left, and 66 or 132 are left at SCHEDULE. -/
theorem engineReturnsToIdleAfter66Or132Steps :
    Obligations.EngineReturnsToIdleAfter66Or132Steps := by
  intro s atSchedule
  have legal : s.PhaseLegal := .inl (by rw [atSchedule]; exact phaseSchedule_toNat_le)
  rw [← State.engineStepsLeft_schedule_eq_ite atSchedule]
  obtain ⟨t, run, left⟩ := engineRun_engineStepsLeft s.engineStepsLeft legal le_rfl
  refine ⟨t, run, t.engineStepsLeft_eq_zero_iff.1 (by omega), fun k before => ?_⟩
  obtain ⟨u, run', left'⟩ := engineRun_engineStepsLeft k legal before.le
  exact ⟨u, run', fun idle => by rw [State.engineStepsLeft_idle idle] at left'; omega⟩

/-! ### The host during a block -/

/-- From `s` to `t` nothing has changed but what the host writes while a block is in progress. -/
abbrev State.Undisturbed (s t : State) : Prop :=
  { t with
    data := s.data, errBus := s.errBus, reads := s.reads, held := s.held, program := s.program } = s

/-- No line of the host's program disturbs a block in progress (R190). -/
theorem HostLine.run_in_block {l : HostLine} {s t : State} (busy : s.busy = true)
    (next : l.run s = .next t) : s.Undisturbed t := by
  rcases HostLine.run_cases next with ⟨a, d, u, done, same⟩ | rfl
  · have frame := noTransactionDisturbsABlockInProgress s u a d (s.busy_eq_true_iff.1 busy) done
    have undisturbed : s.Undisturbed u :=
      (congrArg (fun v => { v with program := s.program }) frame :)
    rcases same with rfl | rfl <;> exact undisturbed
  · rfl

/-- During a block only a host that is not held can move, and what it does is refused by name or
leaves the block alone (R201, R53, R253). -/
theorem hostMove_in_block {s : State} (busy : s.busy = true) (enabled : s.hostEnabled = true) :
    s.held = none ∧
      ((∃ r, hostMove s = .refused r) ∨ ∃ t, hostMove s = .next t ∧ s.Undisturbed t) := by
  rcases hostMove_cases s with ⟨d, held, -⟩ | ⟨held, program, -⟩ | ⟨l, rest, held, -, move⟩
  · rw [State.hostEnabled_of_held held, busy] at enabled
    cases enabled
  · rw [State.hostEnabled_done held program] at enabled
    cases enabled
  · refine ⟨held, ?_⟩
    cases outcome : hostMove s with
    | next t =>
      have frame := HostLine.run_in_block (s := { s with program := rest }) busy
        (move.symm.trans outcome)
      exact .inr ⟨t, rfl, (congrArg (fun u => { u with program := s.program }) frame :)⟩
    | fault f => exact absurd outcome (hostMove_ne_fault s f)
    | refused r => exact .inl ⟨r, rfl⟩

/-! ### Fairness (R269, assumption log 16) -/

/-- How many turns the host can take, at most, before the engine's next: those the plan names, and then
those of the free choice. -/
def State.hostTurnsAhead (s : State) : Nat :=
  s.plan.length + hostTurnsLeft Config.hostLead s.draws

/-- A draw that gives the host the turn leaves it one fewer. -/
theorem hostTurnsLeft_succ {n : Nat} (host : hostMoves n = true) :
    hostTurnsLeft Config.hostLead (n + 1) + 1 = hostTurnsLeft Config.hostLead n := by
  rw [hostMoves, bne_iff_ne] at host
  obtain ⟨left, count⟩ := Nat.exists_eq_succ_of_ne_zero host
  simp only [hostTurnsLeft, count, Nat.succ_eq_add_one]

/-- A turn the plan names, and does not give to the platform's reset, is an agent's. -/
theorem step_named_turn {s : State} {turn : Turn} {ps : List Turn} (plan : s.plan = turn :: ps)
    (noReset : Turn.reset ∉ s.plan) : ∃ a, step s = turnOf a { s with plan := ps } := by
  cases turn with
  | host => exact step_agent_turn (.inl plan)
  | engine => exact step_agent_turn (.inr plan)
  | reset => exact absurd (plan ▸ List.mem_cons_self) noReset

/-- In a block a step without a reset is the engine's, or one of the turns the host has left. -/
theorem step_mover_in_block {s : State} (busy : s.busy = true) (noReset : Turn.reset ∉ s.plan) :
    ∃ ps n, Turn.reset ∉ ps ∧
      (step s = engineMove (s.withSchedule ps n) ∨
        s.hostEnabled = true ∧ step s = hostMove (s.withSchedule ps n) ∧
          (s.withSchedule ps n).hostTurnsAhead < s.hostTurnsAhead) := by
  cases plan : s.plan with
  | nil =>
    by_cases enabled : s.hostEnabled = true
    · refine ⟨[], s.draws + 1, List.not_mem_nil, ?_⟩
      have contested := step_plan_nil_contested plan enabled busy
      cases choice : hostMoves s.draws with
      | true =>
        rw [choice] at contested
        refine .inr ⟨enabled, contested.trans (turnOf_host enabled), ?_⟩
        have fewer := hostTurnsLeft_succ choice
        rw [State.hostTurnsAhead, State.hostTurnsAhead, plan]
        exact Nat.add_lt_add_left (Nat.lt_of_succ_le fewer.le) _
      | false =>
        rw [choice] at contested
        exact .inl (contested.trans (turnOf_engine busy))
    · exact ⟨s.plan, s.draws, noReset,
        .inl (step_no_turn_blocked plan (Bool.eq_false_iff.2 enabled))⟩
  | cons turn ps =>
    obtain ⟨a, named⟩ := step_named_turn plan noReset
    refine ⟨ps, s.draws, fun later => noReset (plan ▸ List.mem_cons_of_mem turn later), ?_⟩
    rcases turnOf_cases a { s with plan := ps } with ⟨enabled, move⟩ | ⟨-, move⟩
    · refine .inr ⟨enabled, named.trans move, ?_⟩
      rw [State.hostTurnsAhead, State.hostTurnsAhead, plan]
      exact Nat.add_lt_add_right (Nat.lt_succ_self _) _
    · exact .inl (named.trans move)

/-! ### A step of a block -/

/-- A step of a block in progress in `s` leads to `t`: what is held stays held, the engine steps are
counted, and IDLE is nearer or the next engine step is. -/
structure State.BlockStep (s t : State) : Prop where
  legal : t.PhaseLegal
  noReset : Turn.reset ∉ t.plan
  held : ∀ d, s.held = some d → t.held = some d
  count : s.engineStepsLeft = (if s.busy && t.phase != s.phase then 1 else 0) + t.engineStepsLeft
  nearer : t.engineStepsLeft < s.engineStepsLeft ∨
    t.engineStepsLeft = s.engineStepsLeft ∧ t.hostTurnsAhead < s.hostTurnsAhead

theorem State.blockStep_of_engineMove {s t : State} {ps : List Turn} {n : Nat}
    (legal : s.PhaseLegal) (busy : s.busy = true) (noReset : Turn.reset ∉ ps)
    (move : engineMove (s.withSchedule ps n) = .next t) : s.BlockStep t := by
  have busy' : (s.withSchedule ps n).busy = true := busy
  have frame := engineMove_frame busy' move
  have plan : t.plan = ps := (congrArg State.plan frame :)
  have held : t.held = s.held := (congrArg State.held frame :)
  obtain ⟨left, changed⟩ := engineMove_engineStepsLeft busy' move
  have left' : s.engineStepsLeft = t.engineStepsLeft + 1 := left
  have moved : (s.busy && t.phase != s.phase) = true := by simpa [busy] using changed
  exact {
    legal := (exec_effect move).phaseLegal legal
    noReset := by rwa [plan]
    held := fun d isHeld => held.trans isHeld
    count := by rw [moved, left']; exact Nat.add_comm _ 1
    nearer := .inl (by omega) }

theorem State.blockStep_of_hostMove {s t : State} {ps : List Turn} {n : Nat}
    (legal : s.PhaseLegal) (noReset : Turn.reset ∉ ps) (free : s.held = none)
    (frame : (s.withSchedule ps n).Undisturbed t)
    (fewer : (s.withSchedule ps n).hostTurnsAhead < s.hostTurnsAhead) : s.BlockStep t := by
  have phase : t.phase = s.phase := (congrArg State.phase frame :)
  have plan : t.plan = ps := (congrArg State.plan frame :)
  have left : t.engineStepsLeft = s.engineStepsLeft :=
    (congrArg State.engineStepsLeft frame :)
  have turns : t.hostTurnsAhead = (s.withSchedule ps n).hostTurnsAhead :=
    (congrArg State.hostTurnsAhead frame :)
  have kept : (s.busy && t.phase != s.phase) = false := by simp [phase]
  exact {
    legal := by rwa [State.PhaseLegal, phase]
    noReset := by rwa [plan]
    held := fun d isHeld => absurd (free.symm.trans isHeld) nofun
    count := by rw [kept, left]; exact (Nat.zero_add _).symm
    nearer := .inr ⟨left, turns ▸ fewer⟩ }

/-- A step of a block goes on with it, unless a host that is not held makes an access the model
refuses. -/
theorem step_in_block {s : State} (legal : s.PhaseLegal) (busy : s.busy = true)
    (noReset : Turn.reset ∉ s.plan) :
    (s.held = none ∧ ∃ r, step s = .refused r) ∨ ∃ t, step s = .next t ∧ s.BlockStep t := by
  obtain ⟨ps, n, noReset', engine | ⟨enabled, host, fewer⟩⟩ := step_mover_in_block busy noReset
  · obtain ⟨t, move, -⟩ := exists_engineMove (s := s.withSchedule ps n) legal
    exact .inr ⟨t, engine.trans move, State.blockStep_of_engineMove legal busy noReset' move⟩
  · rw [host]
    obtain ⟨free, refused | ⟨t, move, frame⟩⟩ :=
      hostMove_in_block (s := s.withSchedule ps n) busy enabled
    · exact .inl ⟨free, refused⟩
    · exact .inr ⟨t, move, State.blockStep_of_hostMove legal noReset' free frame fewer⟩

/-! ### The run of a block -/

theorem run_succ {s t : State} (next : step s = .next t) (k : Nat) :
    Sys2Proof.core.run (k + 1) s = Sys2Proof.core.run k t := by
  have first : Sys2Proof.core.step s = .next t := next
  simp only [Host.Core.run, first]

theorem run_succ_refused {s : State} {r : Refusal} (refused : step s = .refused r) (k : Nat) :
    Sys2Proof.core.run (k + 1) s = .refused r := by
  have first : Sys2Proof.core.step s = .refused r := refused
  simp only [Host.Core.run, first]

/-- After `k` steps from `s` PHASE is IDLE for the first time, or else the run is refused in the last of
them. -/
def State.BlockEndsAt (s : State) (k : Nat) : Prop :=
  (∀ j, j < k → ∃ u : State, Sys2Proof.core.run j s = .next u ∧ u.phase ≠ phaseIdle ∧
    ∀ d, s.held = some d → u.held = some d) ∧
  ((s.held = none ∧ ∃ r, Sys2Proof.core.run k s = .refused r) ∨
    ∃ t : State, Sys2Proof.core.run k s = .next t ∧ t.phase = phaseIdle ∧
      engineSteps k s = s.engineStepsLeft ∧ ∀ d, s.held = some d → t.held = some d)

theorem State.blockEndsAt_zero {s : State} (idle : s.phase = phaseIdle) : s.BlockEndsAt 0 :=
  ⟨fun _ before => absurd before (Nat.not_lt_zero _),
    .inr ⟨s, rfl, idle, (State.engineStepsLeft_idle idle).symm, fun _ held => held⟩⟩

theorem State.blockEndsAt_one_of_refused {s : State} (busy : s.busy = true) (free : s.held = none)
    {r : Refusal} (refused : step s = .refused r) : s.BlockEndsAt 1 := by
  refine ⟨fun j before => ?_, .inl ⟨free, r, run_succ_refused refused 0⟩⟩
  obtain rfl : j = 0 := by omega
  exact ⟨s, rfl, s.busy_eq_true_iff.1 busy, fun _ held => held⟩

theorem State.BlockEndsAt.succ {s t : State} {k : Nat} (ends : t.BlockEndsAt k)
    (busy : s.busy = true) (next : step s = .next t) (goesOn : s.BlockStep t) :
    s.BlockEndsAt (k + 1) := by
  obtain ⟨before, last⟩ := ends
  refine ⟨fun j within => ?_, ?_⟩
  · cases j with
    | zero => exact ⟨s, rfl, s.busy_eq_true_iff.1 busy, fun _ held => held⟩
    | succ j =>
      obtain ⟨u, run, working, held⟩ := before j (Nat.lt_of_succ_lt_succ within)
      exact ⟨u, (run_succ next j).trans run, working, fun d h => held d (goesOn.held d h)⟩
  · rw [run_succ next, engineSteps_succ next, goesOn.count]
    rcases last with ⟨free, refused⟩ | ⟨u, run, idle, steps, held⟩
    · have free' : s.held = none := Option.eq_none_iff_forall_ne_some.2 fun d h =>
        absurd (free.symm.trans (goesOn.held d h)) nofun
      exact .inl ⟨free', refused⟩
    · exact .inr ⟨u, run, idle, congrArg _ steps, fun d h => held d (goesOn.held d h)⟩

/-- Every block ends, by the engine steps it has left and, between two of them, the turns the host can
take. -/
theorem State.exists_blockEndsAt (s : State) (legal : s.PhaseLegal)
    (noReset : Turn.reset ∉ s.plan) : ∃ k, s.BlockEndsAt k := by
  by_cases busy : s.busy = true
  · obtain ⟨free, r, refused⟩ | ⟨t, next, goesOn⟩ := step_in_block legal busy noReset
    · exact ⟨1, State.blockEndsAt_one_of_refused busy free refused⟩
    · obtain ⟨k, ends⟩ := exists_blockEndsAt t goesOn.legal goesOn.noReset
      exact ⟨k + 1, ends.succ busy next goesOn⟩
  · exact ⟨0, State.blockEndsAt_zero (State.phase_idle_of_not_busy busy)⟩
termination_by (s.engineStepsLeft, s.hostTurnsAhead)
decreasing_by exact Prod.lex_def.2 goesOn.nearer

/-- Settles O58: every block ends, after the engine steps it had left at the start. -/
theorem blockEndsWhateverTheHostDoes : Obligations.BlockEndsWhateverTheHostDoes := by
  intro s legal _ noReset
  obtain ⟨k, before, last⟩ := s.exists_blockEndsAt legal noReset
  refine ⟨k, before, last.imp_right ?_⟩
  rintro ⟨t, run, idle, steps, held⟩
  exact ⟨t, run, idle, steps,
    fun atSchedule => steps.trans (State.engineStepsLeft_schedule_eq_ite atSchedule), held⟩

/-! ### `wait.digest` (R88, R89) -/

/-- The mask of `wait.digest` takes DVALID out of STATUS (R40). -/
theorem State.statusWord_and_digestMask (s : State) :
    s.statusWord &&& 0x00000002#32 = 0x00000002#32 ↔ s.dvalid = true := by
  obtain ⟨-, dvalid, -⟩ := s.statusWord_flags
  have mask : 0x00000002#32 = BitVec.twoPow 32 1 := rfl
  rw [mask, BitVec.and_twoPow, dvalid]
  cases s.dvalid <;> decide

/-- The host stands at `wait.digest`, after FINAL, with `rest` to follow. -/
structure State.WaitsForDigest (rest : List HostLine) (s : State) : Prop where
  legal : s.PhaseLegal
  finalized : s.mode = .finalized
  held : s.held = none
  program : s.program = Asm.waitDigest ++ rest
  noReset : Turn.reset ∉ s.plan

section
variable {s : State} {rest : List HostLine}

theorem State.WaitsForDigest.withSchedule (waits : s.WaitsForDigest rest) {ps : List Turn}
    (noReset : Turn.reset ∉ ps) (n : Nat) : (s.withSchedule ps n).WaitsForDigest rest :=
  { waits with noReset := noReset }

theorem State.WaitsForDigest.hostEnabled (waits : s.WaitsForDigest rest) :
    s.hostEnabled = true :=
  State.hostEnabled_of_program waits.held (by rw [waits.program]; exact List.cons_ne_nil _ _)

/-- The host reads STATUS, and goes on once DVALID is 1. -/
theorem State.WaitsForDigest.hostMove_eq (waits : s.WaitsForDigest rest) :
    hostMove s = .next { s.answer s.statusWord with
      program := if s.dvalid = true then rest else s.program } := by
  have status : ({ s with program := rest }).readValue
      (decodeBus (readDescriptor 0x04#6) 0#32) = s.statusWord := rfl
  have program : s.program = .poll 0x04#6 0x00000002#32 0x00000002#32 :: rest := waits.program
  rw [hostMove_next_line waits.held program, HostLine.run, pollMove_eq, status, program]
  simp only [State.statusWord_and_digestMask]
  rfl

/-- The host waits on for as long as the engine is busy, and neither agent's move stops. -/
theorem State.WaitsForDigest.step_busy (waits : s.WaitsForDigest rest) (busy : s.busy = true) :
    ∃ t, step s = .next t ∧ t.WaitsForDigest rest := by
  obtain ⟨a, ps, n, noReset, turn⟩ := step_without_reset waits.noReset
  have waits' := waits.withSchedule noReset n
  rcases turnOf_cases a (s.withSchedule ps n) with ⟨-, move⟩ | ⟨-, move⟩
  · have hidden : (s.withSchedule ps n).dvalid ≠ true := fun valid =>
      s.busy_eq_true_iff.1 busy (s.dvalid_iff.1 valid).2
    rw [waits'.hostMove_eq, if_neg hidden] at move
    exact ⟨_, turn.trans move, { waits' with }⟩
  · obtain ⟨t, next, legal⟩ := exists_engineMove waits'.legal
    have frame := engineMove_frame (s := s.withSchedule ps n) busy next
    have mode : t.mode = s.mode := (congrArg State.mode frame :)
    have held : t.held = s.held := (congrArg State.held frame :)
    have program : t.program = s.program := (congrArg State.program frame :)
    have plan : t.plan = ps := (congrArg State.plan frame :)
    exact ⟨t, (turn.trans move).trans next, legal, mode.trans waits.finalized,
      held.trans waits.held, program.trans waits.program, plan ▸ noReset⟩

/-- In IDLE the host's next read finds DVALID = 1 (R34). -/
theorem State.WaitsForDigest.step_idle (waits : s.WaitsForDigest rest)
    (idle : s.phase = phaseIdle) :
    ∃ t, step s = .next t ∧ t.program = rest ∧ t.dvalid = true := by
  obtain ⟨a, ps, n, noReset, turn⟩ := step_without_reset waits.noReset
  have waits' := waits.withSchedule noReset n
  have valid : s.dvalid = true := s.dvalid_iff.2 ⟨waits.finalized, idle⟩
  have move := turnOf_idle a waits'.hostEnabled (s.busy_eq_false_iff.2 idle)
  rw [waits'.hostMove_eq, if_pos (show (s.withSchedule ps n).dvalid = true from valid)] at move
  exact ⟨_, turn.trans move, rfl, valid⟩

end

/-- What every step from a busy state keeps still holds when a run has been busy all along. -/
theorem run_busy_induction {P : State → Prop}
    (keep : ∀ u, P u → u.busy = true → ∃ v, step u = .next v ∧ P v) (k : Nat) {s : State} (hs : P s)
    (working : ∀ j, j < k → ∃ u : State, Sys2Proof.core.run j s = .next u ∧ u.phase ≠ phaseIdle) :
    ∃ t : State, Sys2Proof.core.run k s = .next t ∧ P t := by
  induction k generalizing s with
  | zero => exact ⟨s, rfl, hs⟩
  | succ k ih =>
    obtain ⟨u, start, busy⟩ := working 0 k.succ_pos
    cases start
    obtain ⟨v, next, hv⟩ := keep s hs (s.busy_eq_true_iff.2 busy)
    rw [run_succ next]
    exact ih hv fun j before => run_succ next j ▸ working (j + 1) (Nat.succ_lt_succ before)

/-- Runs one after the other. -/
theorem run_add {s t : State} (k n : Nat) (run : Sys2Proof.core.run k s = .next t) :
    Sys2Proof.core.run (k + n) s = Sys2Proof.core.run n t := by
  induction k generalizing s with
  | zero =>
    cases run
    rw [Nat.zero_add]
  | succ k ih =>
    rw [Nat.add_right_comm]
    simp only [Host.Core.run] at run ⊢
    split at run
    · exact ih run
    · cases run
    · cases run

/-- Settles O59: the host waits until the block ends (O58), and one read later it goes on. -/
theorem waitForDigestEnds : Obligations.WaitForDigestEnds := by
  intro s rest legal finalized held program noReset
  have waits : s.WaitsForDigest rest := ⟨legal, finalized, held, program, noReset⟩
  obtain ⟨k, before, last⟩ := s.exists_blockEndsAt legal noReset
  obtain ⟨t, run, waits'⟩ := run_busy_induction (fun _ => State.WaitsForDigest.step_busy) k waits
    fun j within => (before j within).imp fun _ ⟨run, working, _⟩ => ⟨run, working⟩
  have idle : t.phase = phaseIdle := by
    rcases last with ⟨-, r, refused⟩ | ⟨u, run', idle, -⟩
    · cases refused.symm.trans run
    · cases run'.symm.trans run
      exact idle
  obtain ⟨u, next, behind, valid⟩ := waits'.step_idle idle
  exact ⟨k + 1, u, (run_add k 1 run).trans (run_succ next 0), behind, valid⟩

/-! ### After the end of a run (R271, R255) -/

/-- With the host done and PHASE IDLE a step takes a turn off the plan and changes nothing else. -/
theorem step_of_ended {s : State} {issuedFinal : Bool} (ended : s.RunEnded issuedFinal)
    (noReset : Turn.reset ∉ s.plan) : step s = .next { s with plan := s.plan.drop 1 } := by
  obtain ⟨program, held, idle, -⟩ := ended
  have done : s.hostEnabled = false := State.hostEnabled_done held program
  obtain ⟨a, turn⟩ : ∃ a, step s = turnOf a { s with plan := s.plan.drop 1 } := by
    cases plan : s.plan with
    | nil => exact ⟨.engine, by rw [step_plan_nil plan (.inl done), List.drop_nil, ← plan]⟩
    | cons turn ps => exact step_named_turn plan noReset
  have done' : ({ s with plan := s.plan.drop 1 }).hostEnabled = false := done
  exact turn.trans ((turnOf_blocked a done').trans (engineMove_idle idle))

theorem run_of_ended (n : Nat) {s : State} {issuedFinal : Bool} (ended : s.RunEnded issuedFinal)
    (noReset : Turn.reset ∉ s.plan) :
    Sys2Proof.core.run n s = .next { s with plan := s.plan.drop n } := by
  induction n generalizing s with
  | zero => rfl
  | succ n ih =>
    have ended' : ({ s with plan := s.plan.drop 1 }).RunEnded issuedFinal := ended
    rw [run_succ (step_of_ended ended noReset), ih ended' fun h => noReset (List.mem_of_mem_drop h),
      List.drop_drop, Nat.add_comm 1 n]

/-- Settles O60: every step after the end is `step_of_ended`. -/
theorem endedRunChangesNoMore : Obligations.EndedRunChangesNoMore := by
  refine ⟨fun s issuedFinal n ended noReset => run_of_ended n ended noReset,
    fun s t k n ends noReset => ?_⟩
  obtain ⟨run, ended, -⟩ := ends
  exact (run_add k n run).trans (run_of_ended n ended noReset)

end Sys2Proof.Machine
